-- ==== Sys2Proof/Word.lean ====
section
/-! DEFINITION. The word types of the block: what the spec treats as bits (R8), and nothing else. -/

namespace Sys2Proof

/-- A 32-bit register, operand word or OUT / coefficient element. -/
abbrev Word := BitVec 32

/-- A 16-bit input or history sample (s16, rule R7). -/
abbrev Sample := BitVec 16

/-- A 64-bit command packet P[63:0] = {CW, OP} (rule R110). -/
abbrev Packet := BitVec 64

end Sys2Proof
end

