-- ==== Sys2Proof/Config.lean ====
section
/-! DEFINITION. What an implementation fixes: the named parameters of rule R6 as plain data (State carries one record of
them, so every claim holds for every value), the fixed numbers of rule R7, and the one free value of the model. -/

namespace Sys2Proof

/-- BUS_ENDIAN: the byte order where a platform maps a memory onto a byte bus (R81, D32). -/
inductive Endian
  | little | big
  deriving DecidableEq, Repr

/-- The named parameters of rule R6 and the closeness fractions of rule R167, with the spec's defaults (DESIGN CHOICE: data
of the state rather than constants; assumption log 5). -/
structure Params where
  /-- OUT_FRAMES: stereo frames in the OUT memory (D20). -/
  outFrames : Nat := 16384
  /-- INP_WORDS: s16 samples in the INP memory (D21). -/
  inpWords : Nat := 65536
  /-- STATE_MULT: ring-buffer size multiplier (D24). -/
  stateMult : Nat := 4
  /-- STRIDE: dot-product unroll factor, read back in DISPATCH only (D25). -/
  stride : Nat := 4
  /-- BUS_ENDIAN (D32). -/
  busEndian : Endian := .little
  /-- 16 of the closeness test: a step is far only if it exceeds prevIn / 16 (R165, R167). -/
  nearDen : Nat := 16
  /-- 8 of the closeness test: and if it is more than FILTER_RATE / 8 from the designed rate (R165, R167). -/
  farDen : Nat := 8
  deriving DecidableEq, Repr

/-- The legal parameter values of rule R6. STATE_MULT has an upper end because HIST_FRAMES is a 16-bit register and
F = STATE_MULT · 2 · 32 must fit it (R9, R40; DEDUCED, assumption log 3). -/
def Params.legal (p : Params) : Bool :=
  decide (1 ≤ p.outFrames) && decide (1 ≤ p.inpWords) && decide (2 ≤ p.stateMult) && decide (p.stateMult ≤ 1023) &&
    decide (1 ≤ p.stride)

namespace Config

/-- PHASE_BITS (R7, D11). -/
def phaseBits : Nat := 30

/-- The lower end of the phase-count clamp (R158). -/
def minPhases : Nat := 63

/-- The upper end of the phase-count clamp (R158). -/
def maxPhases : Nat := 127

/-- Elements of each coefficient bank (R45). -/
def bankElems : Nat := 4096

/-- HIST_CAP = STATE_MULT · 2 · 32 · 2 elements (R47). -/
def histCap (p : Params) : Nat := p.stateMult * 2 * 32 * 2

/-- FREE VALUE. The contents of HIST while no history buffer exists (HIST_VALID = 0): unspecified after power-on, RESET
and CREATE (R60, U5, U6; assumption log 2). The first argument counts those events, the second is the element's index. It has no body. -/
opaque freeHist : Nat → Nat → Sample

end Config

end Sys2Proof
end

