-- ==== Sys2Proof/Syntax.lean ====
section
/-! DEFINITION. PFR command set v1 (rule R3): the nine commands of spec/opcode_table.json as one inductive, the operand
fields assembled as rules R113 and R114 assemble them, the pseudo-commands of rule R128 and the assembly text of rule R127. -/

namespace Sys2Proof

/-- The nine opcodes of rule R123. -/
inductive Opcode
  | nop | create | setRate | setVolume | resample | coefWrite | coefCommit | reset | readReg
  deriving DecidableEq, Repr

/-- A command with its operands. TIER, CHAN, BITS, COUNT, BASE and REGNUM are zero-extended fields and rates are s32(OP)
(rules R113, R114), so each is a mathematical integer as rule R9 computes with it; gains and VALUE are stored whole. -/
inductive Instr
  /-- NOP (R284). -/
  | nop
  /-- CREATE tier, chan, bits, outRate (R285). -/
  | create (tier chan bits : Nat) (outRate : Int)
  /-- SET_RATE inRate (R290). -/
  | setRate (inRate : Int)
  /-- SET_VOLUME gainL, gainR, unsigned Q4.12 (R299). -/
  | setVolume (gainL gainR : BitVec 16)
  /-- RESAMPLE count, base (R300). -/
  | resample (count base : Nat)
  /-- COEF_WRITE value; `start` is START of COEF_WRITE.S (R315). -/
  | coefWrite (start : Bool) (value : Word)
  /-- COEF_COMMIT (R318). -/
  | coefCommit
  /-- RESET (R320). -/
  | reset
  /-- READ_REG regnum (R330). -/
  | readReg (regnum : Nat)
  deriving DecidableEq, Repr

/-- The opcode a command is spelt with (R123). -/
def Instr.opcode : Instr → Opcode
  | .nop => .nop
  | .create _ _ _ _ => .create
  | .setRate _ => .setRate
  | .setVolume _ _ => .setVolume
  | .resample _ _ => .resample
  | .coefWrite _ _ => .coefWrite
  | .coefCommit => .coefCommit
  | .reset => .reset
  | .readReg _ => .readReg

/-! ### Pseudo-commands (R128) -/

/-- `LOAD_BANK v0, v1, …, vN`: COEF_WRITE.S of the first value, COEF_WRITE of each later one, then COEF_COMMIT. -/
def loadBank : List Word → List Instr
  | [] => [.coefCommit]
  | v :: vs => .coefWrite true v :: vs.map (.coefWrite false) ++ [.coefCommit]

/-- `UNITY`. -/
def unity : Instr := .setVolume 0x1000 0x1000

/-- `MUTE`. -/
def mute : Instr := .setVolume 0 0

/-- `INIT`, the document's `init()`. -/
def initCmd : Instr := .reset

/-! ### Assembly text (R127) -/

/-- The tier operand of CREATE as the assembler writes it; a code with no name is written as its number. -/
def tierText : Nat → String
  | 0 => "LOW"
  | 1 => "MEDIUM"
  | 2 => "HIGH"
  | n => toString n

/-- One command as an assembly line, numbers in decimal. -/
def Instr.text : Instr → String
  | .nop => "NOP"
  | .create t c b r => "CREATE " ++ tierText t ++ ", " ++ toString c ++ ", " ++ toString b ++ ", " ++ toString r
  | .setRate r => "SET_RATE " ++ toString r
  | .setVolume l r => "SET_VOLUME " ++ toString l.toNat ++ ", " ++ toString r.toNat
  | .resample n b => "RESAMPLE " ++ toString n ++ ", " ++ toString b
  | .coefWrite false v => "COEF_WRITE " ++ toString v.toInt
  | .coefWrite true v => "COEF_WRITE.S " ++ toString v.toInt
  | .coefCommit => "COEF_COMMIT"
  | .reset => "RESET"
  | .readReg n => "READ_REG " ++ toString n

end Sys2Proof
end

