-- ==== Sys2Proof/WellFormed.lean ====
section
/-! DEFINITION. Which commands have an encoding: every operand fits its field of rule R112. Values that a field can spell
and the block does not accept (TIER 3, CHAN 0, a rate ≤ 0, …) are well formed: rule R126 says they decode. -/

namespace Sys2Proof

/-- A value of s32(OP) (R114). -/
def isS32 (v : Int) : Bool := decide (-2 ^ 31 ≤ v ∧ v < 2 ^ 31)

/-- Every operand fits its field: TIER and CHAN 2 bits, BITS 6, rates signed 32, COUNT 24, BASE 32, REGNUM 8 (R112). -/
def Instr.wellFormed : Instr → Bool
  | .nop => true
  | .create tier chan bits outRate =>
      decide (tier < 4) && decide (chan < 4) && decide (bits < 64) && isS32 outRate
  | .setRate inRate => isS32 inRate
  | .setVolume _ _ => true
  | .resample count base => decide (count < 2 ^ 24) && decide (base < 2 ^ 32)
  | .coefWrite _ _ => true
  | .coefCommit => true
  | .reset => true
  | .readReg regnum => decide (regnum < 256)

end Sys2Proof
end

