-- ==== Sys2Proof/Decode.lean ====
section
/-! DEFINITION. Packets and commands: the opcode map of rule R123, the decoding procedure of rule R124, total on any 64 bits
and rejecting by name, the encoder written from the formats of rule R112, and the byte layout of rule R81. -/

namespace Sys2Proof

/-- The bits of `v` placed at bit `lo` of a word of `w` bits, every other bit 0 (rule R8). -/
def place {n : Nat} (w : Nat) (v : BitVec n) (lo : Nat) : BitVec w := v.setWidth w <<< lo

/-- The opcode byte CW[31:24] of a command (R123). -/
def Opcode.byte : Opcode → BitVec 8
  | .nop => 0x00
  | .create => 0x01
  | .setRate => 0x02
  | .setVolume => 0x03
  | .resample => 0x04
  | .coefWrite => 0x05
  | .coefCommit => 0x06
  | .reset => 0x07
  | .readReg => 0x08

/-- One row of the opcode map: a packet spells the command iff (P AND mask) = pattern (R123). -/
structure OpcodeRow where
  opcode : Opcode
  pattern : Packet
  mask : Packet
  deriving DecidableEq, Repr

/-- The opcode map of rule R123, row for row. -/
def opcodeRows : List OpcodeRow :=
  [ ⟨.nop,        0x0000000000000000, 0xFFFFFFFFFFFFFFFF⟩,
    ⟨.create,     0x0100000000000000, 0xFFFFC0CC00000000⟩,
    ⟨.setRate,    0x0200000000000000, 0xFFFFFFFF00000000⟩,
    ⟨.setVolume,  0x0300000000000000, 0xFFFFFFFF00000000⟩,
    ⟨.resample,   0x0400000000000000, 0xFF00000000000000⟩,
    ⟨.coefWrite,  0x0500000000000000, 0xFFFFFFFE00000000⟩,
    ⟨.coefCommit, 0x0600000000000000, 0xFFFFFFFFFFFFFFFF⟩,
    ⟨.reset,      0x0700000000000000, 0xFFFFFFFFFFFFFFFF⟩,
    ⟨.readReg,    0x0800000000000000, 0xFFFFFF00FFFFFFFF⟩ ]

/-- CW = P[63:32] (R110). -/
def Packet.cw (p : Packet) : Word := p.extractLsb' 32 32

/-- OP = P[31:0] (R110). -/
def Packet.op (p : Packet) : Word := p.extractLsb' 0 32

/-- The opcode field CW[31:24] (R110). -/
def Packet.opcodeByte (p : Packet) : BitVec 8 := p.extractLsb' 56 8

/-- Why a packet is illegal (R124). -/
inductive Illegal
  /-- The opcode is 0x09 .. 0xFF (R125). -/
  | reservedOpcode
  /-- A reserved bit or an unused operand bit is set (R124). -/
  | reservedBit
  deriving DecidableEq, Repr

/-- The fields of a packet that spells the command `op`, assembled as rules R113 and R114 say. -/
def fieldsOf (op : Opcode) (p : Packet) : Instr :=
  match op with
  | .nop => .nop
  | .create =>
      .create (p.extractLsb' 32 2).toNat (p.extractLsb' 36 2).toNat (p.extractLsb' 40 6).toNat (p.extractLsb' 0 32).toInt
  | .setRate => .setRate (p.extractLsb' 0 32).toInt
  | .setVolume => .setVolume (p.extractLsb' 0 16) (p.extractLsb' 16 16)
  | .resample => .resample (p.extractLsb' 32 24).toNat (p.extractLsb' 0 32).toNat
  | .coefWrite => .coefWrite (p.getLsbD 32) (p.extractLsb' 0 32)
  | .coefCommit => .coefCommit
  | .reset => .reset
  | .readReg => .readReg (p.extractLsb' 32 8).toNat

/-- The decoding procedure of rule R124: the row of the opcode byte, then its mask and match. -/
def decode (p : Packet) : Except Illegal Instr :=
  match opcodeRows.find? (fun row => row.opcode.byte == Packet.opcodeByte p) with
  | none => .error .reservedOpcode
  | some row => if p &&& row.mask = row.pattern then .ok (fieldsOf row.opcode p) else .error .reservedBit

/-- The packet of a command, from the formats of rule R112; an operand wider than its field is cut to it. -/
def encode : Instr → Packet
  | .nop => place 64 Opcode.nop.byte 56
  | .create tier chan bits outRate =>
      place 64 Opcode.create.byte 56 ||| place 64 (BitVec.ofNat 6 bits) 40 ||| place 64 (BitVec.ofNat 2 chan) 36 |||
        place 64 (BitVec.ofNat 2 tier) 32 ||| place 64 (BitVec.ofInt 32 outRate) 0
  | .setRate inRate => place 64 Opcode.setRate.byte 56 ||| place 64 (BitVec.ofInt 32 inRate) 0
  | .setVolume gainL gainR => place 64 Opcode.setVolume.byte 56 ||| place 64 gainR 16 ||| place 64 gainL 0
  | .resample count base =>
      place 64 Opcode.resample.byte 56 ||| place 64 (BitVec.ofNat 24 count) 32 ||| place 64 (BitVec.ofNat 32 base) 0
  | .coefWrite start value =>
      place 64 Opcode.coefWrite.byte 56 ||| place 64 (BitVec.ofBool start) 32 ||| place 64 value 0
  | .coefCommit => place 64 Opcode.coefCommit.byte 56
  | .reset => place 64 Opcode.reset.byte 56
  | .readReg regnum => place 64 Opcode.readReg.byte 56 ||| place 64 (BitVec.ofNat 8 regnum) 32

/-! ### The byte bus (R81) -/

/-- The `n` bytes of a value in bus order: least significant first on a little-endian bus (R81). -/
def bytesOf (e : Endian) (n : Nat) (v : Nat) : List (BitVec 8) :=
  match e with
  | .little => (List.range n).map fun k => BitVec.ofNat 8 (v >>> (8 * k))
  | .big => ((List.range n).map fun k => BitVec.ofNat 8 (v >>> (8 * k))).reverse

/-- The value of bytes given least significant first. -/
def valueLittle : List (BitVec 8) → Nat
  | [] => 0
  | b :: bs => b.toNat + 256 * valueLittle bs

/-- The value that bytes in bus order hold (R81). -/
def valueOf (e : Endian) (bs : List (BitVec 8)) : Nat :=
  match e with
  | .little => valueLittle bs
  | .big => valueLittle bs.reverse

/-- The eight bytes of a packet on a byte bus: CW at the lower word address, then OP (R81). -/
def packetBytes (e : Endian) (p : Packet) : List (BitVec 8) :=
  bytesOf e 4 (Packet.cw p).toNat ++ bytesOf e 4 (Packet.op p).toNat

/-- The packet that eight bytes of a byte bus hold; a packet is always whole (R81, D33). -/
def packetOfBytes (e : Endian) (bs : List (BitVec 8)) : Option Packet :=
  if bs.length = 8 then
    some (place 64 (BitVec.ofNat 32 (valueOf e (bs.take 4))) 32 ||| place 64 (BitVec.ofNat 32 (valueOf e (bs.drop 4))) 0)
  else none

/-- The packet that an instruction's bits spell, numbered as spec/opcode_table.json numbers them (P[63:0]). -/
def packetOfTableWord (nbits w : Nat) : Packet := BitVec.ofNat 64 (w % 2 ^ nbits)

/-- The instruction the decoder reads from the bits `w` of a table row of `nbits` bits; bits above `nbits` are 0. -/
def decodeTableWord (nbits w : Nat) : Option Instr :=
  if nbits ≤ 64 then
    match decode (packetOfTableWord nbits w) with
    | .ok i => some i
    | .error _ => none
  else none

end Sys2Proof
end

