-- ==== Sys2Proof/Machine/State.lean ====
section
/-! DEFINITION. The state of the block as plain data: the registers of 10_state.md, the five memories of rule R50, the
RESAMPLE a wait has interrupted (R31, R92), and the channels to the host, the provider and other agents (D1, R12). -/

namespace Sys2Proof.Machine

/-- The façade state STATE (R33). The codes 6 and 7 never occur, so the type has no such value. -/
inductive Facade
  | unconfigured | uninitialized | rateSet | ready | rateChanging | fault
  deriving DecidableEq, Repr

/-- The quality tier TIER (R35, R150). -/
inductive Tier
  | low | medium | high
  deriving DecidableEq, Repr

/-- FAULT_CAUSE (R34, R355): the values 2 .. 255 never occur. -/
inductive FaultCause
  | none | providerRange
  deriving DecidableEq, Repr

/-- Response status codes (R350); LAST_ERR holds one, `ok` standing for its value 0 (R34). -/
inductive Status
  | ok | errIllegal | errConfig | errState | errRange | errFault
  deriving DecidableEq, Repr

/-- A response of the block: 40 bits, status and data (R111). -/
structure Response where
  status : Status
  data : Word
  deriving DecidableEq, Repr

/-- One input block handed over by the provider (R12, D21); 32-bit fields as HELD_BASE and HELD_FRAMES have (R41; DEDUCED,
assumption log 13). -/
structure Descriptor where
  base : Word
  frames : Word
  deriving DecidableEq, Repr

/-- The registers of 10_state.md that a rule stores. COEF32, WRAP, DESIGN_REQ and DISPATCH are read views, computed in
Flags.lean (R35, R37, R44, R59; DEDUCED, assumption log 12). -/
structure Regs where
  /-- STATE, 3 bits (R33). -/
  state : Facade
  /-- FAULT_CAUSE, 8 bits (R34). -/
  faultCause : FaultCause
  /-- LAST_ERR, 8 bits (R34). -/
  lastErr : Status
  /-- TIER, 2 bits (R35). -/
  tier : Tier
  /-- C, the channel count (R35). -/
  c : BitVec 2
  /-- BITDEPTH (R35). -/
  bitDepth : BitVec 6
  /-- OUT_RATE (R35). -/
  outRate : Word
  /-- IN_RATE (R36). -/
  inRate : Word
  /-- FILTER_RATE (R36). -/
  filterRate : Word
  /-- L, phaseCount (R37). -/
  l : BitVec 8
  /-- SHIFT, coefShift (R37). -/
  shift : BitVec 5
  /-- H, halfNumCoefs (R37). -/
  h : BitVec 6
  /-- CONST_VALID (R37). -/
  constValid : Bool
  /-- PHASE, phaseFraction (R38). -/
  phase : Word
  /-- INC, phaseIncrement (R38). -/
  inc : Word
  /-- PENDING, input frames owed before the next output (R38). -/
  pending : Word
  /-- LOCKED (R38). -/
  locked : Bool
  /-- VOL_L, Q4.12 (R39). -/
  volL : BitVec 16
  /-- VOL_R, Q4.12 (R39). -/
  volR : BitVec 16
  /-- HIST_VALID (R40). -/
  histValid : Bool
  /-- HIST_FRAMES (R40). -/
  histFrames : BitVec 16
  /-- IMPULSE (R40). -/
  impulse : BitVec 16
  /-- RING_FULL (R40). -/
  ringFull : BitVec 16
  /-- HELD (R41). -/
  held : Bool
  /-- HELD_BASE (R41). -/
  heldBase : Word
  /-- HELD_FRAMES (R41). -/
  heldFrames : Word
  /-- INPUT_INDEX (R41). -/
  inputIndex : Word
  /-- COEF_COUNT (R42). -/
  coefCount : BitVec 13
  /-- DESIGN_ATTEN (R42). -/
  designAtten : BitVec 8
  /-- RESULT (R43). -/
  result : Word
  /-- SHORT (R43). -/
  short : Bool
  deriving DecidableEq, Repr

/-- The registers at power-on: STATE = Unconfigured and every stored register 0 (R60, R391). -/
def Regs.powerOn : Regs where
  state := .unconfigured
  faultCause := .none
  lastErr := .ok
  tier := .low
  c := 0
  bitDepth := 0
  outRate := 0
  inRate := 0
  filterRate := 0
  l := 0
  shift := 0
  h := 0
  constValid := false
  phase := 0
  inc := 0
  pending := 0
  locked := false
  volL := 0
  volR := 0
  histValid := false
  histFrames := 0
  impulse := 0
  ringFull := 0
  held := false
  heldBase := 0
  heldFrames := 0
  inputIndex := 0
  coefCount := 0
  designAtten := 0
  result := 0
  short := false

/-- A memory of `w`-bit elements (R11, R80): pairs of an index and an element, indices strictly rising, no element equal
to what an unlisted index reads as (Mem.lean gives that value, and the operations). Keys are element indices, since no
byte is visible inside the block (R80; DEDUCED, assumption log 14). -/
abbrev Mem (w : Nat) := List (Nat × BitVec w)

/-- A RESAMPLE that waits in GetNextBuffer (R92): its operands and the internal frame counter k (R31). -/
structure Waiting where
  count : Nat
  base : Nat
  k : Nat
  deriving DecidableEq, Repr

/-- A write of one whole element of INP or OUT by an agent other than the block (R50, R84). -/
inductive AgentWrite
  | inp (index : Nat) (value : Sample)
  | out (frame channel : Nat) (value : Word)
  deriving DecidableEq, Repr

/-- A read of one whole element of INP or OUT by an agent other than the block (R50, R84). -/
inductive AgentRead
  | inp (index : Nat)
  | out (frame channel : Nat)
  deriving DecidableEq, Repr

/-- An access of another agent to one element of INP or OUT (R93). -/
inductive AgentAccess
  | read (r : AgentRead)
  | write (w : AgentWrite)
  deriving DecidableEq, Repr

/-- What a read of another agent saw: the element and its whole value (R84). -/
inductive Observation
  | inp (index : Nat) (value : Sample)
  | out (frame channel : Nat) (value : Word)
  deriving DecidableEq, Repr

/-- What the host does next: push a command packet, or, outside any command, write an element of INP or OUT or read one, as
the consumer does too (D1, R50, R395, R93). -/
inductive HostAction
  | send (packet : Packet)
  | write (w : AgentWrite)
  | read (r : AgentRead)
  deriving DecidableEq, Repr

/-- The provider's answer to one GetNextBuffer: the INP elements it wrote before answering (R92), then Null or a
descriptor (R12). -/
structure ProviderAnswer where
  writes : List (Nat × Sample)
  block : Option Descriptor
  deriving DecidableEq, Repr

/-- A transaction of the block on the provider port (R12, R85). -/
inductive PortEvent
  | getNextBuffer (hint : Nat)
  | releaseBuffer (block : Descriptor)
  deriving DecidableEq, Repr

/-- Why a step stops the machine. Every packet is answered, so no command raises one. -/
inductive Fault
  /-- Raised by `step` when the host's next action writes or reads an element of INP or OUT that rule R87 says does not
  exist. Safe: the model stops, whatever the platform would do with such an access (DESIGN CHOICE, assumption log 8). -/
  | noSuchElement
  deriving DecidableEq, Repr

/-- Why an instruction is refused. -/
inductive Refusal
  /-- Raised by an arm of `exec` whose instruction has no meaning yet. Safe: the model stops. -/
  | notModelled (mnemonic : String)
  deriving DecidableEq, Repr

/-- The state of the block and of its channels. -/
structure State where
  /-- The named parameters of rule R6; no step changes them. -/
  params : Params
  /-- The registers (10_state.md). -/
  regs : Regs
  /-- INP, s16 elements (R50). -/
  inp : Mem 16
  /-- OUT, s32 elements, element 2·f + c being OUT[f][c] (R50, R11). -/
  out : Mem 32
  /-- HIST, s16 elements (R47). -/
  hist : Mem 16
  /-- ACOEF, the active coefficient bank (R45). -/
  acoef : Mem 32
  /-- SCOEF, the staging coefficient bank (R45). -/
  scoef : Mem 32
  /-- The RESAMPLE that waits in GetNextBuffer, if any (R92). -/
  waiting : Option Waiting
  /-- What the host does, next action first; it sends no packet before the response to the last (D2; DESIGN CHOICE,
  assumption log 4). -/
  host : List HostAction
  /-- The provider's coming answers, one per request (U9); none left means it has not answered yet (U10;
  DESIGN CHOICE, assumption log 6). -/
  provider : List ProviderAnswer
  /-- Accesses of other agents that land during a RESAMPLE, one batch at each point between its own accesses, its waits
  among them (R93; DESIGN CHOICE, assumption log 7). -/
  races : List (List AgentAccess)
  /-- The responses sent so far, oldest first (R111; DESIGN CHOICE, assumption log 9). -/
  responses : List Response
  /-- The provider-port transactions so far, oldest first (R85; DESIGN CHOICE, assumption log 9). -/
  events : List PortEvent
  /-- What the other agents' reads of INP and OUT saw, oldest first (R84, R93; DESIGN CHOICE, assumption log 7). -/
  observed : List Observation
  /-- The model's own counter: how often HIST has become unspecified since power-on (R60; assumption log 2). -/
  histEpoch : Nat
  deriving DecidableEq, Repr

/-- Power-on (R391): every register 0, no element of a memory written, nothing on any channel. -/
def State.reset : State where
  params := {}
  regs := Regs.powerOn
  inp := []
  out := []
  hist := []
  acoef := []
  scoef := []
  waiting := none
  host := []
  provider := []
  races := []
  responses := []
  events := []
  observed := []
  histEpoch := 0

end Sys2Proof.Machine
end

