-- ==== Sys2Proof/Machine/Flags.lean ====
section
/-! DEFINITION. Codes and flags: the numbers of the named states, tiers and statuses, the read views the spec derives from
stored registers (WRAP, COEF32, DESIGN_REQ, DISPATCH), the locked test, and the register words of rule R58. -/

namespace Sys2Proof.Machine

/-- The code of STATE (R33). -/
def Facade.code : Facade → BitVec 3
  | .unconfigured => 0
  | .uninitialized => 1
  | .rateSet => 2
  | .ready => 3
  | .rateChanging => 4
  | .fault => 5

/-- The code of TIER (R35). -/
def Tier.code : Tier → BitVec 2
  | .low => 0
  | .medium => 1
  | .high => 2

/-- The tier a CREATE operand names; 3 is not a tier (R113). -/
def Tier.ofCode : Nat → Option Tier
  | 0 => some .low
  | 1 => some .medium
  | 2 => some .high
  | _ => none

/-- The code of FAULT_CAUSE (R34). -/
def FaultCause.code : FaultCause → BitVec 8
  | .none => 0
  | .providerRange => 1

/-- The code of a response status and of LAST_ERR (R350). -/
def Status.code : Status → BitVec 8
  | .ok => 0
  | .errIllegal => 1
  | .errConfig => 2
  | .errState => 3
  | .errRange => 4
  | .errFault => 5

/-- The 40 bits of a response: {status, data}, status the more significant (R111, R8; DEDUCED, assumption log 20). -/
def Response.bits (r : Response) : BitVec 40 := place 40 r.status.code 32 ||| place 40 r.data 0

/-- WRAP = L << SHIFT, a read view (R37, R161). -/
def Regs.wrap (r : Regs) : Nat := r.l.toNat <<< r.shift.toNat

/-- COEF32 = 1 iff TIER = HIGH, a read view (R35). -/
def Regs.coef32 (r : Regs) : Bool := r.tier == .high

/-- DESIGN_REQ = 1 iff STATE ∈ {RateSet, RateChanging}, a read view (R44). -/
def Regs.designReq (r : Regs) : Bool := r.state == .rateSet || r.state == .rateChanging

/-- The number of coefficients of the current bank, (L + 1) · H (R161, R316). -/
def Regs.bankSize (r : Regs) : Nat := (r.l.toNat + 1) * r.h.toNat

/-- LOCKED_TEST: the increment has no bits below coefShift (R164). -/
def lockedTest (inc shift : Nat) : Bool := inc % 2 ^ shift == 0

/-- A flag as one bit at position `lo` of a register word. -/
def flagAt (b : Bool) (lo : Nat) : Word := place 32 (BitVec.ofBool b) lo

/-- STATUS (R58). -/
def Regs.statusWord (r : Regs) : Word :=
  place 32 r.state.code 0 ||| flagAt r.short 8 ||| flagAt r.designReq 9 ||| flagAt r.locked 10 ||| flagAt r.held 11 |||
    flagAt r.constValid 12 ||| flagAt r.histValid 13 ||| place 32 r.lastErr.code 16 ||| place 32 r.faultCause.code 24

/-- CONFIG (R58). -/
def Regs.configWord (r : Regs) : Word :=
  place 32 r.tier.code 0 ||| place 32 r.c 4 ||| place 32 r.bitDepth 8 ||| flagAt r.coef32 16

/-- FILTER (R58). -/
def Regs.filterWord (r : Regs) : Word := place 32 r.l 0 ||| place 32 r.shift 8 ||| place 32 r.h 16

/-- VOLUME (R58). -/
def Regs.volumeWord (r : Regs) : Word := place 32 r.volL 0 ||| place 32 r.volR 16

/-- DISPATCH, computed at the time of the read from C, LOCKED, COEF32 and STRIDE (R58, R59). -/
def Regs.dispatchWord (stride : Nat) (r : Regs) : Word :=
  flagAt (r.c == 2) 0 ||| flagAt r.locked 1 ||| flagAt r.coef32 2 ||| place 32 (BitVec.ofNat 8 (min stride 255)) 8

/-- SET_RATE's response data: bit 1 = LOCKED, bit 0 = DESIGN_REQ (R298). -/
def Regs.rateData (r : Regs) : Word := flagAt r.designReq 0 ||| flagAt r.locked 1

end Sys2Proof.Machine
end

