-- ==== Sys2Proof/Machine/Mem.lean ====
section
/-! DEFINITION. The operations on one element-addressed memory (R11, R80): read and write one element, write consecutive
elements, replace the first elements from another memory; and the canonical form they keep. -/

namespace Sys2Proof.Machine

/-- What an element nothing has written reads as. Memory contents at power-on are unspecified (R60); the model's memories
start at 0 (DESIGN CHOICE, unsafe: assumption log 1). -/
def Mem.unwritten (w : Nat) : BitVec w := 0#w

/-- Element `i` of the memory. -/
def Mem.read {w : Nat} (m : Mem w) (i : Nat) : BitVec w :=
  match m with
  | [] => Mem.unwritten w
  | (j, v) :: rest => if i = j then v else if i < j then Mem.unwritten w else Mem.read rest i

/-- The list `rest` (indices above `i`) with element `i` in front, unless its value is that of an unlisted element. -/
def Mem.consElem {w : Nat} (i : Nat) (v : BitVec w) (rest : Mem w) : Mem w :=
  if v = Mem.unwritten w then rest else (i, v) :: rest

/-- `M[i] <- v`: one whole element (R80). -/
def Mem.write {w : Nat} (m : Mem w) (i : Nat) (v : BitVec w) : Mem w :=
  match m with
  | [] => Mem.consElem i v []
  | (j, u) :: rest =>
    if i < j then Mem.consElem i v ((j, u) :: rest)
    else if i = j then Mem.consElem i v rest
    else (j, u) :: Mem.write rest i v

/-- Consecutive elements from index `i` on, written in rising order. -/
def Mem.fill {w : Nat} (m : Mem w) (i : Nat) : List (BitVec w) → Mem w
  | [] => m
  | v :: vs => Mem.fill (m.write i v) (i + 1) vs

/-- Elements 0 .. n−1 taken from `src`, the others from `dst` (a whole-bank copy, R46). -/
def Mem.copyLow {w : Nat} (n : Nat) (src dst : Mem w) : Mem w :=
  src.filter (fun e => decide (e.1 < n)) ++ dst.filter (fun e => decide (n ≤ e.1))

/-- Every index of the list is above `i`, the indices rise strictly, and no element reads as an unlisted one does. -/
def Mem.wfAbove {w : Nat} (i : Nat) : Mem w → Bool
  | [] => true
  | (j, v) :: rest => decide (i ≤ j) && decide (v ≠ Mem.unwritten w) && Mem.wfAbove (j + 1) rest

/-- The canonical form: equal memories are equal lists. -/
def Mem.wf {w : Nat} (m : Mem w) : Bool := Mem.wfAbove 0 m

/-- Every listed index is below the memory's size (R87). -/
def Mem.within {w : Nat} (m : Mem w) (size : Nat) : Bool := m.all fun e => decide (e.1 < size)

end Sys2Proof.Machine
end

