-- ==== Sys2Proof/Machine/Operands.lean ====
section
/-! DEFINITION. The memory addressing of the block, one form per memory (R341): which element each operand names, and the
integer it holds (R8, R231, R232). -/

namespace Sys2Proof.Machine

/-- The register C as a number of channels (R35). -/
def State.channels (s : State) : Nat := s.regs.c.toNat

/-- INP element HELD_BASE + INPUT_INDEX · C + c (R207, R341). -/
def State.inpIndex (s : State) (c : Nat) : Nat := s.regs.heldBase.toNat + s.regs.inputIndex.toNat * s.channels + c

/-- The OUT element of frame f, channel c (R11, R341); R81 lays the elements out in this order. -/
def outIndex (f c : Nat) : Nat := 2 * f + c

/-- The HIST element of frame f, channel c (R47, R341). -/
def State.histIndex (s : State) (f c : Nat) : Nat := f * s.channels + c

/-- HIST element `i`: unspecified, hence a free value, while no history buffer exists (R60, R61). -/
def State.histAt (s : State) (i : Nat) : Sample :=
  if s.regs.histValid then s.hist.read i else Config.freeHist s.histEpoch i

/-- x(f, c): the history sample of channel c in frame f (R231). -/
def State.sample (s : State) (f c : Nat) : Int := (s.histAt (s.histIndex f c)).toInt

/-- coef(i, j): tap j of phase row i of the active bank (R232, R45). -/
def State.coef (s : State) (i j : Nat) : Int := (s.acoef.read (i * s.regs.h.toNat + j)).toInt

/-- OUT[f][c] (R11). -/
def State.outAt (s : State) (f c : Nat) : Word := s.out.read (outIndex f c)

/-- `OUT[f][c] <- v` (R11). -/
def State.writeOut (s : State) (f c : Nat) (v : Word) : State := { s with out := s.out.write (outIndex f c) v }

/-- `HIST[i] <- v` (R11). -/
def State.writeHist (s : State) (i : Nat) (v : Sample) : State := { s with hist := s.hist.write i v }

/-- Byte `off` of the INP memory on a byte bus: element i is the two bytes at byte offset 2i (R81). -/
def State.inpByte (s : State) (off : Nat) : BitVec 8 :=
  (bytesOf s.params.busEndian 2 (s.inp.read (off / 2)).toNat).getD (off % 2) 0

/-- Byte `off` of the OUT memory on a byte bus: OUT[f][c] is the four bytes at byte offset 8f + 4c (R81). -/
def State.outByte (s : State) (off : Nat) : BitVec 8 :=
  (bytesOf s.params.busEndian 4 (s.out.read (off / 4)).toNat).getD (off % 4) 0

/-- What another agent's read of `n` bytes of INP from byte `off` on sees (R81): the elements as laid out. -/
def State.inpBusRead (s : State) (off n : Nat) : Nat :=
  valueOf s.params.busEndian ((List.range n).map fun k => s.inpByte (off + k))

/-- What another agent's read of `n` bytes of OUT from byte `off` on sees (R81). -/
def State.outBusRead (s : State) (off n : Nat) : Nat :=
  valueOf s.params.busEndian ((List.range n).map fun k => s.outByte (off + k))

end Sys2Proof.Machine
end

