-- ==== Sys2Proof/Machine/Ops.lean ====
section
/-! DEFINITION. The operations every command shares: answering (R12), the acceptance table (R281), fault entry (R366), the
reset actions (R321), the provider port (R12), and the moves of other agents (R92, R93). -/

namespace Sys2Proof.Machine

/-! ### Loops -/

/-- `for i in 0 .. n-1`, in rising order (R90). -/
def forUp (n : Nat) (body : Nat → State → State) (s : State) : State :=
  match n with
  | 0 => s
  | m + 1 => body m (forUp m body s)

/-- `sum_{j=0}^{n-1} f(j)`, exact integers (R242). -/
def sumTo (n : Nat) (f : Nat → Int) : Int :=
  match n with
  | 0 => 0
  | m + 1 => sumTo m f + f m

/-! ### Answers, errors and faults -/

/-- `answer(status, data)`: the response is sent, and a status other than OK is written to LAST_ERR (R12, R111, R351). -/
def answer (status : Status) (data : Word) (s : State) : State :=
  { s with
    responses := s.responses ++ [⟨status, data⟩]
    regs := { s.regs with lastErr := if status = .ok then s.regs.lastErr else status } }

/-- Fault entry, `raise Fault(cause) with data k` inside a RESAMPLE: STATE, FAULT_CAUSE, RESULT and SHORT are written and
the command ends with ERR_FAULT, which LAST_ERR records (R366, R355). The exit is `resetActions` (R367). -/
def raiseFault (cause : FaultCause) (k : Nat) (s : State) : State :=
  answer .errFault (BitVec.ofNat 32 k)
    { s with regs := { s.regs with
        state := .fault, faultCause := cause, result := BitVec.ofNat 32 k, short := true } }

/-- How the acceptance table of rule R281 answers a command. -/
inductive Acceptance
  | ok | errState | errFault
  deriving DecidableEq, Repr

/-- The acceptance table, row by row (R281). -/
def acceptance : Opcode → Facade → Acceptance
  | .nop, _ => .ok
  | .create, _ => .ok
  | .setRate, .unconfigured => .errState
  | .setRate, .fault => .errFault
  | .setRate, _ => .ok
  | .setVolume, .unconfigured => .errState
  | .setVolume, .fault => .errFault
  | .setVolume, _ => .ok
  | .resample, .ready => .ok
  | .resample, .fault => .errFault
  | .resample, _ => .errState
  | .coefWrite, .unconfigured => .errState
  | .coefWrite, .uninitialized => .errState
  | .coefWrite, .fault => .errFault
  | .coefWrite, _ => .ok
  | .coefCommit, .unconfigured => .errState
  | .coefCommit, .uninitialized => .errState
  | .coefCommit, .fault => .errFault
  | .coefCommit, _ => .ok
  | .reset, _ => .ok
  | .readReg, _ => .ok

/-- Checks (1) and (3) of rule R283 for a decoded command: its body runs only in a state that accepts it. -/
def whenAccepted (op : Opcode) (s : State) (body : State → State) : State :=
  match acceptance op s.regs.state with
  | .ok => body s
  | .errState => answer .errState 0 s
  | .errFault => answer .errFault 0 s

/-- Opcodes that pass the fault check of rule R283 (1). -/
def passesFaultCheck (opcodeByte : BitVec 8) : Bool :=
  opcodeByte == 0x00 || opcodeByte == 0x01 || opcodeByte == 0x07 || opcodeByte == 0x08

/-- A packet that decodes to no command: check (1) of rule R283, then check (2) (R352, R360). -/
def answerIllegal (p : Packet) (s : State) : State :=
  if s.regs.state = .fault ∧ passesFaultCheck (Packet.opcodeByte p) = false then answer .errFault 0 s
  else answer .errIllegal 0 s

/-! ### The provider port (R12) -/

/-- A transaction of the block on the provider port. -/
def portEvent (e : PortEvent) (s : State) : State := { s with events := s.events ++ [e] }

/-- The descriptor the block holds, as it goes into ReleaseBuffer (R303). -/
def State.heldBlock (s : State) : Descriptor := ⟨s.regs.heldBase, s.regs.heldFrames⟩

/-- HELD, HELD_BASE, HELD_FRAMES and INPUT_INDEX cleared (R303). -/
def Regs.dropHeld (r : Regs) : Regs := { r with held := false, heldBase := 0, heldFrames := 0, inputIndex := 0 }

/-- ReleaseBuffer of the held descriptor, and the provider registers cleared (R303). -/
def releaseHeld (s : State) : State :=
  let t := portEvent (.releaseBuffer s.heldBlock) s
  { t with regs := t.regs.dropHeld }

/-! ### Reset (R321) -/

/-- The register writes of RESET_ACTIONS; the configuration, the gains and STATE are not among them (R321). -/
def Regs.resetActions (r : Regs) : Regs :=
  { r with
    held := false, heldBase := 0, heldFrames := 0, inputIndex := 0
    inRate := 0, filterRate := 0
    l := 0, shift := 0, h := 0, constValid := false, designAtten := 0
    phase := 0, inc := 0, pending := 0, locked := false
    histValid := false, histFrames := 0, impulse := 0, ringFull := 0
    coefCount := 0, result := 0, short := false
    faultCause := .none, lastErr := .ok }

/-- RESET_ACTIONS: a held block is released, the registers are cleared, and HIST becomes unspecified (R321). -/
def resetActions (s : State) : State :=
  let t := if s.regs.held then releaseHeld s else s
  { t with regs := t.regs.resetActions, histEpoch := t.histEpoch + 1 }

/-! ### Other agents -/

/-- The element exists (R87). -/
def AgentWrite.inRange (p : Params) : AgentWrite → Bool
  | .inp i _ => decide (i < p.inpWords)
  | .out f c _ => decide (f < p.outFrames) && decide (c < 2)

/-- One element written by another agent, whole (R84); an element that does not exist takes no value (R87; DESIGN CHOICE,
assumption log 8). -/
def agentWrite (w : AgentWrite) (s : State) : State :=
  if w.inRange s.params then
    match w with
    | .inp i v => { s with inp := s.inp.write i v }
    | .out f c v => s.writeOut f c v
  else s

/-- The element exists (R87). -/
def AgentRead.inRange (p : Params) : AgentRead → Bool
  | .inp i => decide (i < p.inpWords)
  | .out f c => decide (f < p.outFrames) && decide (c < 2)

/-- The value a read sees: the element's whole value at that point (R84). -/
def State.look (s : State) : AgentRead → Observation
  | .inp i => .inp i (s.inp.read i)
  | .out f c => .out f c (s.outAt f c)

/-- One element read by another agent: it sees the value and changes nothing in the block (R84, R85); of an element that
does not exist it sees nothing (R87; DESIGN CHOICE, assumption log 8). -/
def agentRead (r : AgentRead) (s : State) : State :=
  if r.inRange s.params then { s with observed := s.observed ++ [s.look r] } else s

/-- One access of another agent (R93). -/
def agentAccess (a : AgentAccess) (s : State) : State :=
  match a with
  | .read r => agentRead r s
  | .write w => agentWrite w s

/-- A list of such accesses, in order. -/
def agentAccesses (as : List AgentAccess) (s : State) : State :=
  match as with
  | [] => s
  | a :: rest => agentAccesses rest (agentAccess a s)

/-- The accesses of other agents that land at one point of a RESAMPLE: before an access of the block to INP or OUT, at a
request, in the wait for its answer, after the answer, after a frame (R93; DESIGN CHOICE, assumption log 7). -/
def agentsMove (s : State) : State :=
  match s.races with
  | [] => s
  | batch :: rest => agentAccesses batch { s with races := rest }

/-- The provider's writes of INP elements, made before its answer (R92). -/
def providerWrites (ws : List (Nat × Sample)) (s : State) : State :=
  match ws with
  | [] => s
  | (i, v) :: rest => providerWrites rest (agentWrite (.inp i v) s)

end Sys2Proof.Machine
end

