-- ==== Sys2Proof/Machine/Bank.lean ====
section
/-! DEFINITION. The bank load: the meanings of COEF_WRITE and COEF_COMMIT, the document's `setBuf` (43_commands.md R315 to
R319). -/

namespace Sys2Proof.Machine

/-- COEF_COUNT as a response data word (R315, R319). -/
def Regs.coefCountWord (r : Regs) : Word := r.coefCount.setWidth 32

/-- A value a 16-bit bank takes: OP = sext_32(OP[15:0]) (R317). -/
def isSext16 (v : Word) : Bool := v == (v.extractLsb' 0 16).signExtend 32

/-- COEF_WRITE's pseudocode (R315). -/
def coefWriteBody (start : Bool) (value : Word) (s : State) : State :=
  let idx := if start then 0 else s.regs.coefCount.toNat
  if s.regs.bankSize ≤ idx then answer .errRange s.regs.coefCountWord s
  else if s.regs.coef32 = false ∧ isSext16 value = false then answer .errRange s.regs.coefCountWord s
  else
    answer .ok (BitVec.ofNat 32 (idx + 1))
      { s with
        scoef := s.scoef.write idx value
        regs := { s.regs with coefCount := BitVec.ofNat 13 (idx + 1) } }

/-- COEF_WRITE (R315). -/
def execCoefWrite (start : Bool) (value : Word) (s : State) : Host.Outcome State Fault Refusal :=
  .next (whenAccepted .coefWrite s (coefWriteBody start value))

/-- COEF_COMMIT's pseudocode: the staged bank becomes the active one whole (R318, R46). -/
def coefCommitBody (s : State) : State :=
  if s.regs.coefCount.toNat ≠ s.regs.bankSize then answer .errState s.regs.coefCountWord s
  else
    answer .ok (BitVec.ofNat 32 s.regs.bankSize)
      { s with
        acoef := Mem.copyLow s.regs.bankSize s.scoef s.acoef
        regs := { s.regs with coefCount := 0, state := .ready } }

/-- COEF_COMMIT (R318). -/
def execCoefCommit (s : State) : Host.Outcome State Fault Refusal :=
  .next (whenAccepted .coefCommit s coefCommitBody)

end Sys2Proof.Machine
end

