-- ==== Sys2Proof/Machine/Constants.lean ====
section
/-! DEFINITION. The coefficient store's derivation of the filter constants and the re-design decision (40_coefficient_store.md
R150 to R167). Everything is on mathematical integers (R9); SET_RATE stores the results. -/

namespace Sys2Proof.Machine

/-- bitlen(v): the least n with v < 2^n (R10). -/
def bitlen (v : Nat) : Nat := if v = 0 then 0 else Nat.log2 v + 1

/-- The half-length h of rule R156; `twice` is r2 = (inRate ≥ 2 · outRate). -/
def tierH (t : Tier) (twice : Bool) : Nat :=
  match t with
  | .low => if twice then 16 else 8
  | .medium => if twice then 32 else 16
  | .high => 32

/-- DESIGN_ATTEN of rule R156, in dB. -/
def tierAtten : Tier → Nat
  | .low => 80
  | .medium => 84
  | .high => 98

/-- The tap width of rule R156, in bits. -/
def tierTapWidth : Tier → Nat
  | .low => 16
  | .medium => 16
  | .high => 32

/-- `while L < 63, L ← 2 · L`, with at most `steps` doublings (R158). -/
def doublePhases (steps l : Nat) : Nat :=
  match steps with
  | 0 => l
  | k + 1 => if l < Config.minPhases then doublePhases k (2 * l) else l

/-- The clamp of rule R158: six doublings take every L0 ≥ 1 to 63 or above. -/
def clampPhases (l0 : Nat) : Nat := min Config.maxPhases (doublePhases 6 l0)

/-- L0 = outRate div gcd(outRate, inRate) (R157). -/
def basePhases (outRate inRate : Nat) : Nat := outRate / Nat.gcd outRate inRate

/-- lscale (R159). -/
def lscale (l outRate inRate : Nat) : Nat := if inRate / outRate < 2 then l - 1 else (l * inRate) / outRate

/-- The constants CONST_SET derives (R160). -/
structure Constants where
  l : Nat
  shift : Nat
  h : Nat
  atten : Nat
  deriving DecidableEq, Repr

/-- The derivation of rule R160; none where 30 − bitlen(lscale) is negative (R159). -/
def deriveConstants (t : Tier) (outRate inRate : Nat) : Option Constants :=
  let l := clampPhases (basePhases outRate inRate)
  let bits := bitlen (lscale l outRate inRate)
  if Config.phaseBits < bits then none
  else some
    { l := l, shift := Config.phaseBits - bits, h := tierH t (decide (2 * outRate ≤ inRate)), atten := tierAtten t }

/-- The register writes of CONST_SET (R160). -/
def Regs.constSet (k : Constants) (inRate : Nat) (r : Regs) : Regs :=
  { r with
    l := BitVec.ofNat 8 k.l, shift := BitVec.ofNat 5 k.shift, h := BitVec.ofNat 6 k.h, constValid := true
    designAtten := BitVec.ofNat 8 k.atten, filterRate := BitVec.ofNat 32 inRate, coefCount := 0 }

/-- INC_CALC: WRAP · inRate / outRate rounded half up, exact (R162). -/
def incCalc (wrap outRate inRate : Nat) : Nat := (2 * wrap * inRate + outRate) / (2 * outRate)

/-- abs(a − b) of two naturals. -/
def absDiff (a b : Nat) : Nat := (a - b) + (b - a)

/-- CLOSE_TEST: `far` (R165), with the fractions 1/16 and 1/8 of rule R167 as parameters. -/
def isFar (p : Params) (filterRate inRate prevIn : Nat) : Bool :=
  decide (p.nearDen * absDiff inRate prevIn > prevIn) && decide (p.farDen * absDiff inRate filterRate > filterRate)

/-- REDESIGN for a new inRate: no constants, far, or an increment that would not fit (R166). -/
def redesign (s : State) (inRate : Nat) : Bool :=
  !s.regs.constValid || isFar s.params s.regs.filterRate.toNat inRate s.regs.inRate.toNat ||
    decide (s.regs.wrap + incCalc s.regs.wrap s.regs.outRate.toNat inRate > 2 ^ 32)

end Sys2Proof.Machine
end

