-- ==== Sys2Proof/Machine/Convolution.lean ====
section
/-! DEFINITION. streaming_convolution_engine, symmetric_fir_dot_product and phase_accumulator (42_convolution.md): one output
frame from the window of HIST, and the step and rescale of the phase. -/

namespace Sys2Proof.Machine

/-- sat32(v) (R10). -/
def sat32 (v : Int) : Int := min (max v (-2 ^ 31)) (2 ^ 31 - 1)

/-- Q: the fraction bits of a tap, 15 for 16-bit taps and 31 for 32-bit taps (R239). -/
def Regs.tapFraction (r : Regs) : Nat := if r.coef32 then 31 else 15

/-- LERP(PHASE): the phase's fraction bits scaled to Q bits (R239). -/
def lerpOf (q shift phase : Nat) : Nat := (phase % 2 ^ shift) * 2 ^ q / 2 ^ shift

/-- INTERP(a, b, lerp) = a + floor((b − a) · lerp / 2^Q) (R240); the division is floor division (R9). -/
def interp (q : Nat) (a b : Int) (lerp : Nat) : Int := a + (b - a) * lerp / 2 ^ q

/-- The two half-length dot products with positive-side taps `cp` and negative-side taps `cn` (R233, R234, R242). -/
def dotProduct (s : State) (cp cn : Nat → Int) (c : Nat) : Int :=
  sumTo s.regs.h.toNat (fun j => cp j * s.sample (s.regs.impulse.toNat - j) c) +
    sumTo s.regs.h.toNat (fun j => cn j * s.sample (s.regs.impulse.toNat + 1 + j) c)

/-- indexP <- PHASE >> SHIFT (R235, R237). -/
def Regs.indexP (r : Regs) : Nat := r.phase.toNat >>> r.shift.toNat

/-- indexN of the locked path, (WRAP − PHASE) >> SHIFT (R235). -/
def Regs.indexNLocked (r : Regs) : Nat := (r.wrap - r.phase.toNat) >>> r.shift.toNat

/-- indexN of the interpolated path, (WRAP − PHASE − 1) >> SHIFT (R237). -/
def Regs.indexNInterp (r : Regs) : Nat := (r.wrap - r.phase.toNat - 1) >>> r.shift.toNat

/-- FIR_LOCKED, channel c (R235). -/
def firLocked (s : State) (c : Nat) : Int :=
  dotProduct s (fun j => s.coef s.regs.indexP j) (fun j => s.coef s.regs.indexNLocked j) c

/-- FIR_INTERP, channel c (R237). -/
def firInterp (s : State) (c : Nat) : Int :=
  let q := s.regs.tapFraction
  let lerp := lerpOf q s.regs.shift.toNat s.regs.phase.toNat
  dotProduct s
    (fun j => interp q (s.coef s.regs.indexP j) (s.coef (s.regs.indexP + 1) j) lerp)
    (fun j => interp q (s.coef (s.regs.indexNInterp + 1) j) (s.coef s.regs.indexNInterp j) lerp) c

/-- acc[c] of the path that LOCKED selects (R230, R243). -/
def accOf (s : State) (c : Nat) : Int := if s.regs.locked then firLocked s c else firInterp s c

/-- acc30: the accumulator in units of 2^−30 (R241). -/
def acc30 (r : Regs) (acc : Int) : Int := if r.coef32 then acc / 2 ^ 16 else acc

/-- SCALE(a30, g) (R246). -/
def scale (a30 : Int) (gain : BitVec 16) : Int := sat32 (a30 * gain.toNat / 2 ^ 15)

/-- `OUT[f][c] <- sat32(OUT[f][c] + term)`: a read followed by a write, not atomic for other agents (R247, R84). -/
def accumulate (f c : Nat) (term : Int) (s : State) : State :=
  let t := agentsMove s
  let sum := sat32 ((t.outAt f c).toInt + term)
  (agentsMove t).writeOut f c (BitVec.ofInt 32 sum)

/-- VOL_ACCUMULATE(f_out) of the accumulators (R247): mono goes to both channels. -/
def volAccumulate (f : Nat) (acc0 acc1 : Int) (s : State) : State :=
  let aL := acc30 s.regs acc0
  let aR := if s.regs.c = 2 then acc30 s.regs acc1 else acc30 s.regs acc0
  accumulate f 1 (scale aR s.regs.volR) (accumulate f 0 (scale aL s.regs.volL) s)

/-- PRODUCE_ONE_FRAME(f_out) (R230). -/
def produceOneFrame (f : Nat) (s : State) : State := volAccumulate f (accOf s 0) (accOf s 1) s

/-- PHASE_STEP (R260): every whole WRAP is one input frame owed (R262). -/
def Regs.phaseStep (r : Regs) : Regs :=
  let sum := r.phase.toNat + r.inc.toNat
  { r with
    pending := BitVec.ofNat 32 (r.pending.toNat + sum / r.wrap)
    phase := BitVec.ofNat 32 (sum % r.wrap) }

/-- PHASE_RESCALE(oldWrap) (R263). -/
def Regs.phaseRescale (oldWrap : Nat) (r : Regs) : Regs :=
  { r with phase := if oldWrap = 0 then 0 else BitVec.ofNat 32 (r.phase.toNat * r.wrap / oldWrap) }

/-- The locked selector, and the phase's fraction cleared when LOCKED is set, re-design or not (R297, R264; DEDUCED,
assumption log 10). -/
def Regs.selectLocked (r : Regs) : Regs :=
  let locked := lockedTest r.inc.toNat r.shift.toNat
  { r with
    locked := locked
    phase := if locked then BitVec.ofNat 32 (r.phase.toNat - r.phase.toNat % 2 ^ r.shift.toNat) else r.phase }

end Sys2Proof.Machine
end

