-- ==== Sys2Proof/Machine/Ring.lean ====
section
/-! DEFINITION. ring_buffer_sampler (41_ring_buffer.md): RB_RESIZE, RB_READ_AGAIN and RB_READ_ADVANCE. Positions are frame
indices; one frame is C consecutive HIST elements (R47). -/

namespace Sys2Proof.Machine

/-- F = STATE_MULT · 2 · h frames (R200). -/
def ringFrames (p : Params) (h : Nat) : Nat := p.stateMult * 2 * h

/-- Element `e` of the resized buffer: old frame IMPULSE + k goes to new frame hn + k for −hn ≤ k < hn, and every other
element is 0 (R202, R204, R205). All reads see the old HIST. -/
def resizedElem (s : State) (hn e : Nat) : Sample :=
  let f := e / s.channels
  let c := e % s.channels
  if s.regs.histValid = true ∧ f < 2 * hn ∧ hn ≤ s.regs.impulse.toNat + f ∧
      s.regs.impulse.toNat + f - hn < s.regs.histFrames.toNat then
    s.histAt (s.histIndex (s.regs.impulse.toNat + f - hn) c)
  else 0

/-- RB_RESIZE(hn) (R202); a resize to the size in use changes nothing (R203). -/
def rbResize (hn : Nat) (s : State) : State :=
  let fn := ringFrames s.params hn
  if s.regs.histValid = true ∧ s.regs.histFrames.toNat = fn then s
  else
    { s with
      hist := s.hist.fill 0 ((List.range (fn * s.channels)).map (resizedElem s hn))
      regs := { s.regs with
        histFrames := BitVec.ofNat 16 fn, impulse := BitVec.ofNat 16 hn
        ringFull := BitVec.ofNat 16 (fn - hn), histValid := true } }

/-- One channel of RB_READ_AGAIN: the sample goes to frame IMPULSE + H, the newest of the window (R207, R201). The read of
INP is an access that other agents can race with (R93). -/
def stageChannel (c : Nat) (s : State) : State :=
  let t := agentsMove s
  t.writeHist (t.histIndex (t.regs.impulse.toNat + t.regs.h.toNat) c) (t.inp.read (t.inpIndex c))

/-- RB_READ_AGAIN (R207). -/
def readAgain (s : State) : State := forUp s.channels stageChannel s

/-- The compaction of rule R208: the trailing 2H frames move to the start of the buffer and IMPULSE is rebased. -/
def compact (s : State) : State :=
  let sd := s.regs.ringFull.toNat - s.regs.h.toNat
  { s with
    hist := s.hist.fill 0 ((List.range (2 * s.regs.h.toNat * s.channels)).map fun e => s.histAt (sd * s.channels + e))
    regs := { s.regs with impulse := BitVec.ofNat 16 (s.regs.impulse.toNat - sd) } }

/-- IMPULSE <- IMPULSE + 1, and the compaction when that reaches RING_FULL (R208, R209). -/
def advanceImpulse (s : State) : State :=
  let t := { s with regs := { s.regs with impulse := s.regs.impulse + 1 } }
  if t.regs.ringFull.toNat ≤ t.regs.impulse.toNat then compact t else t

/-- RB_READ_ADVANCE (R208). -/
def readAdvance (s : State) : State := readAgain (advanceImpulse s)

end Sys2Proof.Machine
end

