-- ==== Sys2Proof/Machine/Configure.lean ====
section
/-! DEFINITION. The meanings of NOP, CREATE, SET_RATE, SET_VOLUME and RESET (43_commands.md). -/

namespace Sys2Proof.Machine

/-- NOP (R284). -/
def execNop (s : State) : Host.Outcome State Fault Refusal :=
  .next (whenAccepted .nop s (answer .ok 0))

/-- The register writes of an accepted CREATE after RESET_ACTIONS (R285). COEF32 follows TIER (R35). -/
def Regs.create (tier : Tier) (chan : Nat) (outRate : Int) (r : Regs) : Regs :=
  { r with
    tier := tier, c := BitVec.ofNat 2 chan, bitDepth := 16, outRate := BitVec.ofInt 32 outRate
    volL := 0, volR := 0, state := .uninitialized }

/-- CREATE's pseudocode (R285). -/
def createBody (tier chan bits : Nat) (outRate : Int) (s : State) : State :=
  match Tier.ofCode tier with
  | none => answer .errConfig 0 s
  | some t =>
    if (chan ≠ 1 ∧ chan ≠ 2) ∨ bits ≠ 16 ∨ outRate ≤ 0 then answer .errConfig 0 s
    else
      let r := resetActions s
      answer .ok 0 { r with regs := r.regs.create t chan outRate }

/-- CREATE (R285). -/
def execCreate (tier chan bits : Nat) (outRate : Int) (s : State) : Host.Outcome State Fault Refusal :=
  .next (whenAccepted .create s (createBody tier chan bits outRate))

/-- The state a re-design leaves: RateSet before the first bank, RateChanging after it (R294). -/
def Facade.afterRedesign : Facade → Facade
  | .uninitialized => .rateSet
  | .rateSet => .rateSet
  | _ => .rateChanging

/-- The re-design of SET_RATE: CONST_SET, PHASE_RESCALE, RB_RESIZE, STATE, in this order (R290, C8). -/
def redesigned (k : Constants) (inRate : Nat) (s : State) : State :=
  let oldWrap := if s.regs.constValid then s.regs.wrap else 0
  let t := { s with regs := (s.regs.constSet k inRate).phaseRescale oldWrap }
  let u := rbResize t.regs.h.toNat t
  { u with regs := { u.regs with state := u.regs.state.afterRedesign } }

/-- IN_RATE and INC, computed with the WRAP now in force (R296). -/
def Regs.storeRate (inRate : Nat) (r : Regs) : Regs :=
  { r with inRate := BitVec.ofNat 32 inRate, inc := BitVec.ofNat 32 (incCalc r.wrap r.outRate.toNat inRate) }

/-- The end of an accepted SET_RATE: rate, increment, locked selector, answer (R290, R298). -/
def finishRate (inRate : Nat) (s : State) : State :=
  let r := (s.regs.storeRate inRate).selectLocked
  answer .ok r.rateData { s with regs := r }

/-- SET_RATE's pseudocode (R290). -/
def setRateBody (inRate : Int) (s : State) : State :=
  if inRate ≤ 0 then answer .errConfig 0 s
  else
    let rate := inRate.toNat
    if s.regs.inRate ≠ 0 ∧ rate = s.regs.inRate.toNat then answer .ok s.regs.rateData s
    else if redesign s rate then
      match deriveConstants s.regs.tier s.regs.outRate.toNat rate with
      | none => answer .errConfig 0 s
      | some k => finishRate rate (redesigned k rate s)
    else finishRate rate s

/-- SET_RATE (R290). -/
def execSetRate (inRate : Int) (s : State) : Host.Outcome State Fault Refusal :=
  .next (whenAccepted .setRate s (setRateBody inRate))

/-- SET_VOLUME's pseudocode (R299). -/
def setVolumeBody (gainL gainR : BitVec 16) (s : State) : State :=
  answer .ok 0 { s with regs := { s.regs with volL := gainL, volR := gainR } }

/-- SET_VOLUME (R299). -/
def execSetVolume (gainL gainR : BitVec 16) (s : State) : Host.Outcome State Fault Refusal :=
  .next (whenAccepted .setVolume s (setVolumeBody gainL gainR))

/-- STATE after RESET: Unconfigured stays, any other becomes Uninitialized (R282, R320). -/
def Facade.afterReset : Facade → Facade
  | .unconfigured => .unconfigured
  | _ => .uninitialized

/-- RESET's pseudocode (R320); also the document's `init()`. -/
def resetBody (s : State) : State :=
  let r := resetActions s
  answer .ok 0 { r with regs := { r.regs with state := s.regs.state.afterReset } }

/-- RESET (R320). -/
def execReset (s : State) : Host.Outcome State Fault Refusal :=
  .next (whenAccepted .reset s resetBody)

end Sys2Proof.Machine
end

