-- ==== Sys2Proof/Machine/ReadReg.lean ====
section
/-! DEFINITION. READ_REG and the register map (10_state.md R58, 43_commands.md R330). -/

namespace Sys2Proof.Machine

/-- The value of register number `n`, none for the reserved numbers 0x14 and above (R58). -/
def regValue (s : State) (n : Nat) : Option Word :=
  match n with
  | 0x00 => some s.regs.statusWord
  | 0x01 => some s.regs.configWord
  | 0x02 => some s.regs.outRate
  | 0x03 => some s.regs.inRate
  | 0x04 => some s.regs.filterRate
  | 0x05 => some s.regs.filterWord
  | 0x06 => some s.regs.phase
  | 0x07 => some s.regs.inc
  | 0x08 => some s.regs.pending
  | 0x09 => some s.regs.volumeWord
  | 0x0A => some (s.regs.impulse.setWidth 32)
  | 0x0B => some (s.regs.ringFull.setWidth 32)
  | 0x0C => some (s.regs.histFrames.setWidth 32)
  | 0x0D => some s.regs.inputIndex
  | 0x0E => some s.regs.heldBase
  | 0x0F => some s.regs.heldFrames
  | 0x10 => some (s.regs.coefCount.setWidth 32)
  | 0x11 => some (s.regs.designAtten.setWidth 32)
  | 0x12 => some s.regs.result
  | 0x13 => some (s.regs.dispatchWord s.params.stride)
  | _ => none

/-- The name the assembler gives a register number (R58, R127). -/
def regName (n : Nat) : Option String :=
  ["STATUS", "CONFIG", "OUT_RATE", "IN_RATE", "FILTER_RATE", "FILTER", "PHASE", "INC", "PENDING", "VOLUME",
    "IMPULSE", "RING_FULL", "HIST_FRAMES", "INPUT_INDEX", "HELD_BASE", "HELD_FRAMES", "COEF_COUNT", "DESIGN_ATTEN",
    "RESULT", "DISPATCH"][n]?

/-- READ_REG's pseudocode (R330). -/
def readRegBody (regnum : Nat) (s : State) : State :=
  match regValue s regnum with
  | some v => answer .ok v s
  | none => answer .errRange 0 s

/-- READ_REG (R330). -/
def execReadReg (regnum : Nat) (s : State) : Host.Outcome State Fault Refusal :=
  .next (whenAccepted .readReg s (readRegBody regnum))

end Sys2Proof.Machine
end

