-- ==== Sys2Proof/Machine/Resample.lean ====
section
/-! DEFINITION. RESAMPLE (43_commands.md R300 to R312): the loop over output frames, the consumption of owed input frames,
and the pull protocol with the provider, whose wait in GetNextBuffer is the one point where the command is suspended. -/

namespace Sys2Proof.Machine

/-- What a part of the command's loop ends in: the loop goes on, or the command has ended or waits. -/
inductive Flow
  | go (s : State)
  | stop (s : State)
  deriving DecidableEq, Repr

/-- HINT(k): the input frames the rest of the request needs (R304). -/
def hint (n k : Nat) (r : Regs) : Nat :=
  min (2 ^ 31 - 1) (r.pending.toNat + (r.inc.toNat * (n - k - 1) + r.phase.toNat) / r.wrap)

/-- `done`: RESULT <- k, SHORT <- (k < n), answer(OK, k) (R300). -/
def finishResample (n k : Nat) (s : State) : State :=
  answer .ok (BitVec.ofNat 32 k)
    { s with regs := { s.regs with result := BitVec.ofNat 32 k, short := decide (k < n) } }

/-- The descriptor reaches past INP: a provider contract violation (R305). -/
def descriptorOutOfRange (s : State) (d : Descriptor) : Bool :=
  decide (d.base.toNat + d.frames.toNat * s.channels > s.params.inpWords)

/-- An accepted descriptor is held (R300). -/
def holdBlock (d : Descriptor) (s : State) : State :=
  { s with regs := { s.regs with held := true, heldBase := d.base, heldFrames := d.frames, inputIndex := 0 } }

/-- What the provider's answer does to the command, the provider's own writes made (R300, R305, R306). -/
def takeBlock (n k : Nat) (block : Option Descriptor) (s : State) : Flow :=
  match block with
  | none => .stop (finishResample n k s)
  | some d =>
    if d.frames = 0 then .stop (finishResample n k s)
    else if descriptorOutOfRange s d then .stop (raiseFault .providerRange k s)
    else .go (holdBlock d s)

/-- The provider's next answer arrives; with none left it has not answered yet and the command waits (R92, U10). Other
agents may move before the command goes on or ends (R93). -/
def receiveAnswer (n base k : Nat) (s : State) : Flow :=
  match s.provider with
  | [] => .stop { s with waiting := some ⟨n, base, k⟩ }
  | a :: rest =>
    takeBlock n k a.block (agentsMove (providerWrites a.writes { s with provider := rest, waiting := none }))

/-- `d <- GetNextBuffer(HINT(k))` and what follows from its answer (R300, R304). Other agents may move between the request
and the answer (R93). -/
def pullBlock (n base k : Nat) (s : State) : Flow :=
  receiveAnswer n base k (agentsMove (portEvent (.getNextBuffer (hint n k s.regs)) s))

/-- INPUT_INDEX <- INPUT_INDEX + 1, PENDING <- PENDING − 1 (R300). -/
def Regs.countInput (r : Regs) : Regs := { r with inputIndex := r.inputIndex + 1, pending := r.pending - 1 }

/-- One owed input frame consumed from the held block, which is released after its last frame (R302, R303). -/
def consumeFrame (s : State) : State :=
  let t := readAdvance s
  let u := { t with regs := t.regs.countInput }
  if u.regs.inputIndex = u.regs.heldFrames then releaseHeld u else u

/-- `while PENDING > 0` (R302), `owed` being PENDING; every round consumes one frame or ends the command. -/
def consumeOwed (n base k owed : Nat) (s : State) : Flow :=
  match owed with
  | 0 => .go s
  | m + 1 =>
    if s.regs.held then consumeOwed n base k m (consumeFrame s)
    else
      match pullBlock n base k s with
      | .stop t => .stop t
      | .go t => consumeOwed n base k m (consumeFrame t)

/-- One round of the outer loop: the owed input, one output frame, one phase step (R300, R90). Other agents may move after
the frame's last OUT write, before the next round or the response (R93). -/
def resampleFrame (n base k : Nat) (s : State) : Flow :=
  match consumeOwed n base k s.regs.pending.toNat s with
  | .stop t => .stop t
  | .go t =>
    let u := agentsMove (produceOneFrame (base + k) t)
    .go { u with regs := u.regs.phaseStep }

/-- `while k < n` (R300), `left` being n − k. -/
def resampleLoop (n base left : Nat) (s : State) : State :=
  match left with
  | 0 => finishResample n n s
  | m + 1 =>
    match resampleFrame n base (n - (m + 1)) s with
    | .stop t => t
    | .go t => resampleLoop n base m t

/-- RESAMPLE's pseudocode (R300); the range check is on mathematical integers (R301). -/
def resampleBody (n base : Nat) (s : State) : State :=
  if base + n > s.params.outFrames then answer .errRange 0 s else resampleLoop n base n s

/-- RESAMPLE (R300). -/
def execResample (count base : Nat) (s : State) : Host.Outcome State Fault Refusal :=
  .next (whenAccepted .resample s (resampleBody count base))

/-- A waiting RESAMPLE goes on when the provider has answered; until then it waits, with no timeout (R312, U10), while other
agents may move (R93). -/
def resumeResample (w : Waiting) (s : State) : State :=
  match s.provider with
  | [] => agentsMove s
  | _ :: _ =>
    match receiveAnswer w.count w.base w.k s with
    | .stop t => t
    | .go t => resampleLoop w.count w.base (w.count - w.k) t

end Sys2Proof.Machine
end

