-- ==== Sys2Proof/Machine/Dispatch.lean ====
section
/-! DEFINITION. One arm per command (R123). -/

namespace Sys2Proof.Machine

def exec (i : Instr) (s : State) : Host.Outcome State Fault Refusal :=
  match i with
  | .nop => Sys2Proof.Machine.execNop s
  | .create tier chan bits outRate => Sys2Proof.Machine.execCreate tier chan bits outRate s
  | .setRate inRate => Sys2Proof.Machine.execSetRate inRate s
  | .setVolume gainL gainR => Sys2Proof.Machine.execSetVolume gainL gainR s
  | .resample count base => Sys2Proof.Machine.execResample count base s
  | .coefWrite start value => Sys2Proof.Machine.execCoefWrite start value s
  | .coefCommit => Sys2Proof.Machine.execCoefCommit s
  | .reset => Sys2Proof.Machine.execReset s
  | .readReg regnum => Sys2Proof.Machine.execReadReg regnum s

end Sys2Proof.Machine
end

