-- ==== Sys2Proof/Machine/Fetch.lean ====
section
/-! DEFINITION. Taking the next thing the block does (R13, R91): a packet is decoded and run, the host's actions are taken
in order, a waiting RESAMPLE goes on. -/

namespace Sys2Proof.Machine

/-- One packet, from its decoding to its response (R13, R124, R283). -/
def runPacket (p : Packet) (s : State) : Host.Outcome State Fault Refusal :=
  match decode p with
  | .ok i => exec i s
  | .error _ => .next (answerIllegal p s)

/-- One action of the host, taken from its channel in order (R91); with none the block is idle and keeps all state
(R380). A host write or read of an element that does not exist stops the machine (R87; DESIGN CHOICE, assumption log 8). -/
def hostStep (s : State) : Host.Outcome State Fault Refusal :=
  match s.host with
  | [] => .next s
  | .send p :: rest => runPacket p { s with host := rest }
  | .write w :: rest =>
    if w.inRange s.params then .next (agentWrite w { s with host := rest }) else .fault .noSuchElement
  | .read r :: rest =>
    if r.inRange s.params then .next (agentRead r { s with host := rest }) else .fault .noSuchElement

/-- The next thing the block does: a waiting RESAMPLE first, since the host's next packet is not taken before the response
to the last one (R13, R92). -/
def nextAction (s : State) : Host.Outcome State Fault Refusal :=
  match s.waiting with
  | some w => .next (resumeResample w s)
  | none => hostStep s

/-- `s` with a packet pushed so that the very next step takes it: no RESAMPLE waits, and the packet is the host's next
action (assumption log 4). -/
def pushPacket (p : Packet) (s : State) : State := { s with waiting := none, host := .send p :: s.host }

end Sys2Proof.Machine
end

