-- ==== Sys2Proof/Machine/Step.lean ====
section
/-! DEFINITION. One step of the block, and the state in which the next step runs a given table word. -/

namespace Sys2Proof.Machine

/-- One step (R13, R91, R380). -/
def step (s : State) : Host.Outcome State Fault Refusal := nextAction s

/-- `s` with the packet of a table row where the next step fetches it (assumption log 4). -/
def State.withFetchWord (s : State) (nbits w : Nat) : State := pushPacket (packetOfTableWord nbits w) s

end Sys2Proof.Machine
end

