-- ==== Sys2Proof/Safety.lean ====
section
/-! DEFINITION. What a safe run of the block keeps: the invariants the spec states of its registers (R33 to R45, R210,
R213, R261, R264) and of its memories, in the terms the claims use. -/

namespace Sys2Proof.Machine

/-- The register invariants of 10_state.md, for one set of parameters. -/
structure Regs.Inv (p : Params) (r : Regs) : Prop where
  /-- FAULT_CAUSE is non-zero exactly when STATE = Fault (R34). -/
  faultCause : r.faultCause ≠ .none ↔ r.state = .fault
  /-- In Unconfigured the configuration registers are all 0 (R35). -/
  unconfigured : r.state = .unconfigured → r.tier = .low ∧ r.c = 0 ∧ r.bitDepth = 0 ∧ r.outRate = 0
  /-- Once created, C is 1 or 2, BITDEPTH is 16 and OUT_RATE is positive (R35). -/
  configured : r.state ≠ .unconfigured → (r.c = 1 ∨ r.c = 2) ∧ r.bitDepth = 16 ∧ 0 < r.outRate.toInt
  /-- Constants exist in RateSet, Ready, RateChanging and Fault, and in no other state (R282). -/
  constStates : r.constValid = true ↔
    r.state = .rateSet ∨ r.state = .ready ∨ r.state = .rateChanging ∨ r.state = .fault
  /-- A history buffer exists exactly while constants do (R61, R290). -/
  histStates : r.histValid = r.constValid
  /-- With no constants the registers that describe them and the stream are 0 (R37, R40, R42, R60). -/
  constZero : r.constValid = false →
    r.l = 0 ∧ r.shift = 0 ∧ r.h = 0 ∧ r.designAtten = 0 ∧ r.inRate = 0 ∧ r.filterRate = 0 ∧ r.phase = 0 ∧ r.inc = 0 ∧
      r.pending = 0 ∧ r.locked = false ∧ r.coefCount = 0 ∧ r.held = false ∧ r.histFrames = 0 ∧ r.impulse = 0 ∧
      r.ringFull = 0
  /-- L lies in 63 .. 127 (R158). -/
  phases : r.constValid = true → 63 ≤ r.l.toNat ∧ r.l.toNat ≤ 127
  /-- SHIFT lies in 0 .. 30 (R37). -/
  shiftRange : r.constValid = true → r.shift.toNat ≤ 30
  /-- The constants in force are those CONST_SET derives for FILTER_RATE (R160, R36). -/
  designed : r.constValid = true →
    deriveConstants r.tier r.outRate.toNat r.filterRate.toNat =
      some ⟨r.l.toNat, r.shift.toNat, r.h.toNat, r.designAtten.toNat⟩
  /-- The rates are positive signed words once set (R36, R291). -/
  rates : r.constValid = true → 0 < r.inRate.toInt ∧ 0 < r.filterRate.toInt
  /-- PHASE < WRAP and WRAP + INC ≤ 2^32 (R38). -/
  phase : r.constValid = true → r.phase.toNat < r.wrap ∧ r.wrap + r.inc.toNat ≤ 2 ^ 32
  /-- INC is INC_CALC of the current rate (R296). -/
  increment : r.constValid = true → r.inc.toNat = incCalc r.wrap r.outRate.toNat r.inRate.toNat
  /-- LOCKED is the locked test of INC (R297), and a locked phase has no fraction (R264). -/
  lockedPhase : r.constValid = true →
    r.locked = lockedTest r.inc.toNat r.shift.toNat ∧ (r.locked = true → r.phase.toNat % 2 ^ r.shift.toNat = 0)
  /-- PENDING < 2^27 (R261). -/
  pendingBound : r.pending.toNat < 2 ^ 27
  /-- F = STATE_MULT · 2 · H, RING_FULL = F − H and H ≤ IMPULSE < RING_FULL (R40, R210). -/
  ring : r.histValid = true →
    r.histFrames.toNat = ringFrames p r.h.toNat ∧ r.ringFull.toNat + r.h.toNat = r.histFrames.toNat ∧
      r.h.toNat ≤ r.impulse.toNat ∧ r.impulse.toNat < r.ringFull.toNat
  /-- A held descriptor is not empty, not used up, and inside INP (R41). -/
  heldBlock : r.held = true →
    r.inputIndex.toNat < r.heldFrames.toNat ∧ r.heldBase.toNat + r.heldFrames.toNat * r.c.toNat ≤ p.inpWords
  /-- With no descriptor held its registers are 0 (R41). -/
  heldZero : r.held = false → r.heldBase = 0 ∧ r.heldFrames = 0 ∧ r.inputIndex = 0
  /-- COEF_COUNT never passes the bank's size (R42, R316). -/
  coefCount : r.coefCount.toNat ≤ r.bankSize

/-- A RESAMPLE waits only in Ready, for owed input, holding no block, before its last frame (R92, R300). -/
def Waiting.Inv (p : Params) (r : Regs) (w : Waiting) : Prop :=
  r.state = .ready ∧ r.held = false ∧ 0 < r.pending.toNat ∧ w.k < w.count ∧ w.count < 2 ^ 24 ∧
    w.base + w.count ≤ p.outFrames

/-- Every memory is in canonical form and lists no element it does not have (R80, R87). -/
structure State.MemInv (s : State) : Prop where
  inp : s.inp.wf = true ∧ s.inp.within s.params.inpWords = true
  out : s.out.wf = true ∧ s.out.within (2 * s.params.outFrames) = true
  hist : s.hist.wf = true ∧ s.hist.within (Config.histCap s.params) = true
  acoef : s.acoef.wf = true ∧ s.acoef.within Config.bankElems = true
  scoef : s.scoef.wf = true ∧ s.scoef.within Config.bankElems = true

/-- Elements 0 .. n−1 of a 16-bit bank are sign-extended 16-bit values (R45, R317). -/
def Mem.sext16Below (m : Mem 32) (n : Nat) : Prop := ∀ i, i < n → isSext16 (m.read i) = true

/-- A bank of LOW or MEDIUM holds 16-bit taps: the staged elements, and in Ready the active ones (R45, R317). -/
structure State.BankInv (s : State) : Prop where
  staged : s.regs.coef32 = false → s.scoef.sext16Below s.regs.coefCount.toNat
  active : s.regs.coef32 = false → s.regs.state = .ready → s.acoef.sext16Below s.regs.bankSize

/-- The invariant of the block. -/
structure State.Inv (s : State) : Prop where
  params : s.params.legal = true
  regs : s.regs.Inv s.params
  waits : ∀ w, s.waiting = some w → w.Inv s.params s.regs
  mems : s.MemInv
  banks : s.BankInv

/-- No other agent writes INP or OUT during a command (R401, R402). -/
def State.raceFree (s : State) : Prop := s.races = []

end Sys2Proof.Machine
end

