-- ==== Sys2Proof/Certificates/Slice0/Obligations.lean ====
section
/-! DEFINITION. The statements for the provers. Each says what a command or the block does, in the spec's own quantities;
its docstring names the rules. `replies` and `refuses` write out what an answer leaves (R12, R351), independently of the
model's own `answer`. -/

open Sys2Proof Sys2Proof.Machine

namespace Sys2Proof.Claims

/-- `s` with the response {OK, d} sent and nothing else changed. -/
def replies (d : Word) (s : State) : State := { s with responses := s.responses ++ [⟨.ok, d⟩] }

/-- `s` with an error response sent and LAST_ERR written, nothing else changed (R351). -/
def refuses (st : Status) (d : Word) (s : State) : State :=
  { s with responses := s.responses ++ [⟨st, d⟩], regs := { s.regs with lastErr := st } }

/-- A Boolean as the number 0 or 1. -/
def bit (b : Bool) : Nat := if b then 1 else 0

/-- The states in which rule R281 answers ERR_STATE to a command. -/
def refusedByState (op : Opcode) (st : Facade) : Prop :=
  match op with
  | .setRate | .setVolume => st = .unconfigured
  | .resample => st = .unconfigured ∨ st = .uninitialized ∨ st = .rateSet ∨ st = .rateChanging
  | .coefWrite | .coefCommit => st = .unconfigured ∨ st = .uninitialized
  | .nop | .create | .reset | .readReg => False

/-- The commands that rule R281 answers ERR_FAULT in Fault. -/
def refusedInFault (op : Opcode) : Prop :=
  op = .setRate ∨ op = .setVolume ∨ op = .resample ∨ op = .coefWrite ∨ op = .coefCommit

/-- SET_RATE and SET_VOLUME are accepted in Uninitialized, RateSet, Ready and RateChanging (R281). -/
def acceptsRate (st : Facade) : Prop := st = .uninitialized ∨ st = .rateSet ∨ st = .ready ∨ st = .rateChanging

/-- COEF_WRITE and COEF_COMMIT are accepted in RateSet, Ready and RateChanging (R281). -/
def acceptsBank (st : Facade) : Prop := st = .rateSet ∨ st = .ready ∨ st = .rateChanging

/-- The release that RESET and CREATE send for a held block (R321). -/
def releaseEvents (s : State) : List PortEvent :=
  if s.regs.held then [.releaseBuffer ⟨s.regs.heldBase, s.regs.heldFrames⟩] else []

/-- The registers of rule R321 cleared; STATE, the configuration and the gains as given. -/
def clearedRegs (state : Facade) (tier : Tier) (c : BitVec 2) (bitDepth : BitVec 6) (outRate : Word)
    (volL volR : BitVec 16) : Regs :=
  { state := state, faultCause := .none, lastErr := .ok, tier := tier, c := c, bitDepth := bitDepth, outRate := outRate,
    inRate := 0, filterRate := 0, l := 0, shift := 0, h := 0, constValid := false, phase := 0, inc := 0, pending := 0,
    locked := false, volL := volL, volR := volR, histValid := false, histFrames := 0, impulse := 0, ringFull := 0,
    held := false, heldBase := 0, heldFrames := 0, inputIndex := 0, coefCount := 0, designAtten := 0, result := 0,
    short := false }

/-- far (R165), on integers, with the two fractions of the parameters. -/
def farFrom (s : State) (rate : Int) : Prop :=
  (s.params.nearDen : Int) * |rate - s.regs.inRate.toNat| > s.regs.inRate.toNat ∧
    (s.params.farDen : Int) * |rate - s.regs.filterRate.toNat| > s.regs.filterRate.toNat

/-- The three cases of rule R166. -/
def mustRedesign (s : State) (rate : Int) : Prop :=
  s.regs.constValid = false ∨ farFrom s rate ∨
    s.regs.wrap + incCalc s.regs.wrap s.regs.outRate.toNat rate.toNat > 2 ^ 32

/-- x(f, c) of a block that has a history buffer (R231). -/
def histSample (s : State) (f c : Nat) : Int := (s.hist.read (f * s.regs.c.toNat + c)).toInt

/-- coef(i, j) (R232). -/
def tap (s : State) (i j : Nat) : Int := (s.acoef.read (i * s.regs.h.toNat + j)).toInt

/-- The clamp to the signed 32-bit range (R10). -/
def clamp32 (v : Int) : Int := if v < -2147483648 then -2147483648 else if v > 2147483647 then 2147483647 else v

/-- Q (R239). -/
def tapBits (s : State) : Nat := if s.regs.tier = .high then 31 else 15

/-- acc[c] by the formulas of rules R235, R237, R239 and R240. -/
def accValue (s : State) (c : Nat) : Int :=
  let h := s.regs.h.toNat
  let shift := s.regs.shift.toNat
  let phase := s.regs.phase.toNat
  let wrap := s.regs.l.toNat * 2 ^ shift
  let imp := s.regs.impulse.toNat
  let q := tapBits s
  let iP := phase / 2 ^ shift
  if s.regs.locked then
    let iN := (wrap - phase) / 2 ^ shift
    (∑ j ∈ Finset.range h, tap s iP j * histSample s (imp - j) c) +
      ∑ j ∈ Finset.range h, tap s iN j * histSample s (imp + 1 + j) c
  else
    let iN := (wrap - phase - 1) / 2 ^ shift
    let lerp : Nat := phase % 2 ^ shift * 2 ^ q / 2 ^ shift
    (∑ j ∈ Finset.range h, (tap s iP j + (tap s (iP + 1) j - tap s iP j) * lerp / 2 ^ q) * histSample s (imp - j) c) +
      ∑ j ∈ Finset.range h,
        (tap s (iN + 1) j + (tap s iN j - tap s (iN + 1) j) * lerp / 2 ^ q) * histSample s (imp + 1 + j) c

/-- The term a frame adds to one output channel: acc30, gain, saturation (R241, R246). -/
def termValue (s : State) (acc : Int) (gain : BitVec 16) : Int :=
  clamp32 ((if s.regs.tier = .high then acc / 2 ^ 16 else acc) * gain.toNat / 2 ^ 15)

/-- The packets, waiting commands and responses of a state, counted together. -/
def packetsAndResponses (s : State) : Nat :=
  s.responses.length + bit s.waiting.isSome +
    (s.host.filter fun a => match a with | .send _ => true | .write _ | .read _ => false).length

/-- Two port events that agree but for the hint of a request (R308). -/
def sameButHint : PortEvent → PortEvent → Prop
  | .getNextBuffer _, .getNextBuffer _ => True
  | .releaseBuffer a, .releaseBuffer b => a = b
  | _, _ => False

/-- The frames of all the blocks released so far. -/
def releasedFrames : List PortEvent → Nat
  | [] => 0
  | .releaseBuffer d :: rest => d.frames.toNat + releasedFrames rest
  | .getNextBuffer _ :: rest => releasedFrames rest

/-- A provider answer that means exhaustion: Null or an empty block (R306). -/
def isExhaustion (a : ProviderAnswer) : Prop := a.block = none ∨ ∃ d, a.block = some d ∧ d.frames = 0

/-- The provider hands over a block of at least one frame that lies inside INP (R305). -/
def isBlockInInp (s : State) (a : ProviderAnswer) : Prop :=
  ∃ d, a.block = some d ∧ d.frames ≠ 0 ∧ d.base.toNat + d.frames.toNat * s.regs.c.toNat ≤ s.params.inpWords

/-- The provider's descriptor reaches past INP: its contract violation (R305). -/
def isBlockPastInp (s : State) (a : ProviderAnswer) : Prop :=
  ∃ d, a.block = some d ∧ d.frames ≠ 0 ∧ s.params.inpWords < d.base.toNat + d.frames.toNat * s.regs.c.toNat

/-- The frames of the blocks that these answers hand over. -/
def handedFrames : List ProviderAnswer → Nat
  | [] => 0
  | a :: rest => (match a.block with | none => 0 | some d => d.frames.toNat) + handedFrames rest

/-- The input frames left in the held block. -/
def heldInput (r : Regs) : Nat := if r.held then r.heldFrames.toNat - r.inputIndex.toNat else 0

/-- The input frames a RESAMPLE that starts from these registers has consumed before its output frame number k (R310). -/
def owedBefore (r : Regs) (k : Nat) : Nat := r.pending.toNat + (r.phase.toNat + k * r.inc.toNat) / r.wrap

/-- The last event is the request of round k, with the hint of rule R304 by the registers as they are. -/
def lastRequested (n k : Nat) (s : State) : Prop :=
  ∃ before, s.events = before ++ [.getNextBuffer (min (2 ^ 31 - 1)
    (s.regs.pending.toNat + (s.regs.inc.toNat * (n - k - 1) + s.regs.phase.toNat) / s.regs.wrap))]

/-- One owed input frame consumed from the held block: RB_READ_ADVANCE, INPUT_INDEX and PENDING counted, and the block
released if that was its last frame (R302, R303). -/
def afterOneInput (s : State) : State :=
  let w := readAdvance s
  let last := s.regs.inputIndex + 1 = s.regs.heldFrames
  { s with
    hist := w.hist
    events := s.events ++ if last then [.releaseBuffer ⟨s.regs.heldBase, s.regs.heldFrames⟩] else []
    regs := { s.regs with
      impulse := w.regs.impulse, pending := s.regs.pending - 1, held := decide (¬last)
      heldBase := if last then 0 else s.regs.heldBase, heldFrames := if last then 0 else s.regs.heldFrames
      inputIndex := if last then 0 else s.regs.inputIndex + 1 } }

/-- So many owed input frames consumed, one after the other. -/
def afterInputs : Nat → State → State
  | 0, s => s
  | m + 1, s => afterInputs m (afterOneInput s)

/-- What the provider's writes, in their order, leave in element i, if they write it. -/
def lastWrite : List (Nat × Sample) → Nat → Option Sample
  | [], _ => none
  | (j, v) :: rest, i => match lastWrite rest i with
    | some u => some u
    | none => if j = i then some v else none

/-- The number that stands for STATE (R33). -/
def stateNumber : Facade → Nat
  | .unconfigured => 0 | .uninitialized => 1 | .rateSet => 2 | .ready => 3 | .rateChanging => 4 | .fault => 5

/-- The number that stands for TIER (R35). -/
def tierNumber : Tier → Nat
  | .low => 0 | .medium => 1 | .high => 2

/-- The number of a response status, and of LAST_ERR (R350, R34). -/
def statusNumber : Status → Nat
  | .ok => 0 | .errIllegal => 1 | .errConfig => 2 | .errState => 3 | .errRange => 4 | .errFault => 5

/-- The number of FAULT_CAUSE (R34, R355). -/
def causeNumber : FaultCause → Nat
  | .none => 0 | .providerRange => 1

/-- A state in which a RESAMPLE of n frames at base starts: Ready, nothing waiting, the frames inside OUT (R281, R301). -/
def canResample (s : State) (n base : Nat) : Prop :=
  s.waiting = none ∧ s.regs.state = .ready ∧ n < 2 ^ 24 ∧ base + n ≤ s.params.outFrames

end Sys2Proof.Claims

open Sys2Proof.Claims

/-! ### Encoding -/

/-- The worked encodings of rule R129 decode to the commands they spell. -/
def Obligations.WorkedEncodingsDecode : Prop :=
  decode 0x0000000000000000 = .ok .nop ∧
  decode 0x010010100000BB80 = .ok (.create 0 1 16 48000) ∧
  decode 0x0100102200005622 = .ok (.create 2 2 16 22050) ∧
  decode 0x010010210000BB80 = .ok (.create 1 2 16 48000) ∧
  decode 0x0200000000001F40 = .ok (.setRate 8000) ∧
  decode 0x020000000000AC44 = .ok (.setRate 44100) ∧
  decode 0x020000000000BB80 = .ok (.setRate 48000) ∧
  decode 0x0300000010001000 = .ok (.setVolume 0x1000 0x1000) ∧
  decode 0x0400177000000000 = .ok (.resample 6000 0) ∧
  decode 0x0400000400000000 = .ok (.resample 4 0) ∧
  decode 0x0500000100007FFF = .ok (.coefWrite true 0x7FFF) ∧
  decode 0x05000000FFFFFFFF = .ok (.coefWrite false (-1)) ∧
  decode 0x0600000000000000 = .ok .coefCommit ∧
  decode 0x0700000000000000 = .ok .reset ∧
  decode 0x0800000600000000 = .ok (.readReg 6)

/-- Decoding the packet of any well-formed command gives the command back, every operand whole (R112 to R114). -/
def Obligations.DecodeInvertsEncode : Prop :=
  ∀ i : Instr, i.wellFormed = true → decode (encode i) = .ok i

/-- Every packet that decodes is the one packet of its command, and the command is well formed (R124). -/
def Obligations.DecodedPacketIsItsEncoding : Prop :=
  ∀ (p : Packet) (i : Instr), decode p = .ok i → i.wellFormed = true ∧ encode i = p

/-- The opcode map of rule R123: a packet spells a command iff (P AND mask) = match for that command's row. -/
def Obligations.PacketSpellsCommandIffRowMatches : Prop :=
  ∀ p : Packet,
    ((∃ i, decode p = .ok i ∧ i.opcode = .nop) ↔ p &&& 0xFFFFFFFFFFFFFFFF = 0x0000000000000000) ∧
    ((∃ i, decode p = .ok i ∧ i.opcode = .create) ↔ p &&& 0xFFFFC0CC00000000 = 0x0100000000000000) ∧
    ((∃ i, decode p = .ok i ∧ i.opcode = .setRate) ↔ p &&& 0xFFFFFFFF00000000 = 0x0200000000000000) ∧
    ((∃ i, decode p = .ok i ∧ i.opcode = .setVolume) ↔ p &&& 0xFFFFFFFF00000000 = 0x0300000000000000) ∧
    ((∃ i, decode p = .ok i ∧ i.opcode = .resample) ↔ p &&& 0xFF00000000000000 = 0x0400000000000000) ∧
    ((∃ i, decode p = .ok i ∧ i.opcode = .coefWrite) ↔ p &&& 0xFFFFFFFE00000000 = 0x0500000000000000) ∧
    ((∃ i, decode p = .ok i ∧ i.opcode = .coefCommit) ↔ p &&& 0xFFFFFFFFFFFFFFFF = 0x0600000000000000) ∧
    ((∃ i, decode p = .ok i ∧ i.opcode = .reset) ↔ p &&& 0xFFFFFFFFFFFFFFFF = 0x0700000000000000) ∧
    ((∃ i, decode p = .ok i ∧ i.opcode = .readReg) ↔ p &&& 0xFFFFFF00FFFFFFFF = 0x0800000000000000)

/-- On a byte bus the eight bytes of a packet hold the packet, in either byte order, CW at the lower word address, and on a
little-endian bus the elements of INP and OUT are laid out as rule R81 says, a 32-bit read of two INP samples among them. -/
def Obligations.BusBytesAreLaidOut : Prop :=
  (∀ (e : Endian) (p : Packet), packetOfBytes e (packetBytes e p) = some p) ∧
  (∀ (p : Packet) (b : Nat), b < 4 →
    (packetBytes .little p)[b]? = some (p.extractLsb' (32 + 8 * b) 8) ∧
    (packetBytes .little p)[4 + b]? = some (p.extractLsb' (8 * b) 8)) ∧
  ∀ s : State, s.params.busEndian = .little →
    (∀ i b, b < 2 → s.inpByte (2 * i + b) = (s.inp.read i).extractLsb' (8 * b) 8) ∧
    (∀ f c b, c < 2 → b < 4 → s.outByte (8 * f + 4 * c + b) = (s.outAt f c).extractLsb' (8 * b) 8) ∧
    (∀ i, s.inpBusRead (2 * i) 4 = (s.inp.read i).toNat + 2 ^ 16 * (s.inp.read (i + 1)).toNat)

/-! ### The step, the common checks and the answers -/

/-- A step takes the host's next packet, and runs the command it decodes to at the state without that packet (R13). That the
host's actions stand in a list is the model's form (assumption log 4). -/
def Obligations.StepRunsDecodedPacket : Prop :=
  ∀ (s : State) (p : Packet) (rest : List HostAction) (i : Instr),
    s.waiting = none → s.host = .send p :: rest → decode p = .ok i → step s = exec i { s with host := rest }

/-- The common checks, in the order of rule R283: Fault, illegal packet, state. -/
def Obligations.CommonChecksInOrder : Prop :=
  ∀ (s : State) (p : Packet) (rest : List HostAction), s.waiting = none → s.host = .send p :: rest →
    let op := p.extractLsb' 56 8
    let passes := op = 0x00 ∨ op = 0x01 ∨ op = 0x07 ∨ op = 0x08
    let s' := { s with host := rest }
    (s.regs.state = .fault ∧ ¬passes → step s = .next (refuses .errFault 0 s')) ∧
    (¬(s.regs.state = .fault ∧ ¬passes) → (∃ e, decode p = .error e) → step s = .next (refuses .errIllegal 0 s')) ∧
    (¬(s.regs.state = .fault ∧ ¬passes) →
      ∀ i, decode p = .ok i → refusedByState i.opcode s.regs.state → step s = .next (refuses .errState 0 s'))

/-- A reserved opcode, or a set reserved bit, is answered ERR_ILLEGAL and changes no state except LAST_ERR (R125). -/
def Obligations.ReservedPacketsAreIllegal : Prop :=
  (∀ p : Packet, decode p = .error .reservedOpcode ↔ 0x09 ≤ (p.extractLsb' 56 8).toNat) ∧
  (∀ p : Packet, (∃ e, decode p = .error e) ↔ ∀ row ∈ opcodeRows, p &&& row.mask ≠ row.pattern) ∧
  ∀ (s : State) (p : Packet) (rest : List HostAction) (e : Illegal),
    s.waiting = none → s.host = .send p :: rest → s.regs.state ≠ .fault → decode p = .error e →
      step s = .next (refuses .errIllegal 0 { s with host := rest })

/-- The acceptance table of rule R281 for a decoded command: the refused states answer ERR_STATE or ERR_FAULT. -/
def Obligations.AcceptanceTable : Prop :=
  ∀ (i : Instr) (s : State),
    (refusedByState i.opcode s.regs.state → exec i s = .next (refuses .errState 0 s)) ∧
    (s.regs.state = .fault → refusedInFault i.opcode → exec i s = .next (refuses .errFault 0 s))

/-- A packet answered with an error writes its status into LAST_ERR and changes nothing else, but for the ERR_FAULT that
a RESAMPLE raises; LAST_ERR becomes 0 only by RESET and CREATE (R351, R34). -/
def Obligations.RefusedCommandChangesOnlyLastErr : Prop :=
  (∀ (i : Instr) (s t : State) (st : Status) (d : Word),
    exec i s = .next t → t.responses = s.responses ++ [⟨st, d⟩] → st ≠ .ok →
      t.regs.lastErr = st ∧
      (t = refuses st d s ∨
        ((∃ n b, i = .resample n b) ∧ s.regs.state = .ready ∧ st = .errFault ∧ t.regs.state = .fault ∧
          t.regs.faultCause = .providerRange ∧ t.regs.result = d ∧ t.regs.short = true))) ∧
  (∀ (s t : State) (st : Status) (d : Word),
    step s = .next t → t.responses = s.responses ++ [⟨st, d⟩] → st ≠ .ok →
      t.regs.lastErr = st ∧
      (t = refuses st d { s with host := s.host.tail } ∨
        (st = .errFault ∧ t.regs.state = .fault ∧ t.regs.faultCause = .providerRange ∧ t.regs.result = d ∧
          t.regs.short = true))) ∧
  ∀ (i : Instr) (s t : State), exec i s = .next t → s.regs.lastErr ≠ .ok → t.regs.lastErr = .ok →
    i = .reset ∨ ∃ tier chan bits outRate, i = .create tier chan bits outRate

/-- Exactly one response is sent per packet (R111): packets not yet taken, a command that waits and responses sent are
conserved together by every step. -/
def Obligations.OneResponsePerPacket : Prop :=
  ∀ s t : State, step s = .next t → packetsAndResponses t = packetsAndResponses s

/-- The steps that run no command. Idle, the block keeps all state (R380). A RESAMPLE whose provider has not answered goes on
waiting (R312, U10; as a step, assumption log 6), and only the accesses of other agents that land in the wait are made, in
their order (R93; log 7). Between commands the host writes or reads one whole element of INP or OUT and nothing else changes
(R50, R84, R395); where the element does not exist the machine stops (the model's choice, assumption log 8). -/
def Obligations.StepsThatRunNoCommand : Prop :=
  (∀ s : State, s.waiting = none → s.host = [] → step s = .next s) ∧
  (∀ (s : State) (w : Waiting), s.waiting = some w → s.provider = [] →
    (s.races = [] → step s = .next s) ∧
    ∀ batch rest, s.races = batch :: rest →
      (batch = [] → step s = .next { s with races := rest }) ∧
      (∀ i v, batch = [.write (.inp i v)] → i < s.params.inpWords →
        step s = .next { s with races := rest, inp := s.inp.write i v }) ∧
      (∀ f c v, batch = [.write (.out f c v)] → f < s.params.outFrames → c < 2 →
        step s = .next { s with races := rest, out := s.out.write (2 * f + c) v }) ∧
      (∀ i, batch = [.read (.inp i)] → i < s.params.inpWords →
        step s = .next { s with races := rest, observed := s.observed ++ [.inp i (s.inp.read i)] }) ∧
      (∀ f c, batch = [.read (.out f c)] → f < s.params.outFrames → c < 2 →
        step s = .next { s with races := rest, observed := s.observed ++ [.out f c (s.outAt f c)] }) ∧
      ∀ a more, batch = a :: more →
        ∃ t, step { s with races := [a] :: more :: rest } = .next t ∧ step s = step t) ∧
  ∀ (s : State) (rest : List HostAction), s.waiting = none →
    (∀ i v, s.inp.wf = true → s.host = .write (.inp i v) :: rest → i < s.params.inpWords →
      ∃ t, step s = .next t ∧ t = { s with host := rest, inp := t.inp } ∧
        ∀ j, t.inp.read j = if j = i then v else s.inp.read j) ∧
    (∀ f c v, s.out.wf = true → s.host = .write (.out f c v) :: rest → f < s.params.outFrames → c < 2 →
      ∃ t, step s = .next t ∧ t = { s with host := rest, out := t.out } ∧
        ∀ g d, d < 2 → t.outAt g d = if g = f ∧ d = c then v else s.outAt g d) ∧
    (∀ i, s.host = .read (.inp i) :: rest → i < s.params.inpWords →
      step s = .next { s with host := rest, observed := s.observed ++ [.inp i (s.inp.read i)] }) ∧
    (∀ f c, s.host = .read (.out f c) :: rest → f < s.params.outFrames → c < 2 →
      step s = .next { s with host := rest, observed := s.observed ++ [.out f c (s.outAt f c)] }) ∧
    (∀ i v, (s.host = .write (.inp i v) :: rest ∨ s.host = .read (.inp i) :: rest) → s.params.inpWords ≤ i →
      step s = .fault .noSuchElement) ∧
    (∀ f c v, (s.host = .write (.out f c v) :: rest ∨ s.host = .read (.out f c) :: rest) →
      (s.params.outFrames ≤ f ∨ 2 ≤ c) → step s = .fault .noSuchElement)

/-! ### NOP, CREATE, SET_VOLUME, RESET, READ_REG -/

/-- NOP answers {OK, 0} in any state, Fault too, and changes no state; with any other bit set it is ERR_ILLEGAL (R284). -/
def Obligations.NopAnswersAndChangesNothing : Prop :=
  (∀ s : State, exec .nop s = .next (replies 0 s)) ∧
  decode 0x0000000000000000 = .ok .nop ∧
  ∀ (p : Packet) (s : State) (rest : List HostAction), p.extractLsb' 56 8 = 0x00 → p ≠ 0 →
    s.waiting = none → s.host = .send p :: rest → step s = .next (refuses .errIllegal 0 { s with host := rest })

/-- CREATE, from every state. Accepted: RESET_ACTIONS, then the configuration, zero gains and Uninitialized; OUT, INP and
both banks keep their contents. TIER 3, a channel count other than 1 or 2, a bit depth other than 16 or a rate ≤ 0 is
ERR_CONFIG and the old configuration and state stay; a reserved bit makes the packet illegal (R285). -/
def Obligations.CreateConfiguresOrRejects : Prop :=
  (∀ (s : State) (code chan : Nat) (tier : Tier) (outRate : Int),
    (code, tier) ∈ [(0, Tier.low), (1, Tier.medium), (2, Tier.high)] → (chan = 1 ∨ chan = 2) → 0 < outRate →
    outRate < 2 ^ 31 →
    ∃ epoch, exec (.create code chan 16 outRate) s = .next { s with
      regs := clearedRegs .uninitialized tier (BitVec.ofNat 2 chan) 16 (BitVec.ofInt 32 outRate) 0 0
      events := s.events ++ releaseEvents s
      histEpoch := epoch
      responses := s.responses ++ [⟨.ok, 0⟩] }) ∧
  (∀ (s : State) (code chan bits : Nat) (outRate : Int), (Instr.create code chan bits outRate).wellFormed = true →
    (code = 3 ∨ (chan ≠ 1 ∧ chan ≠ 2) ∨ bits ≠ 16 ∨ outRate ≤ 0) →
    exec (.create code chan bits outRate) s = .next (refuses .errConfig 0 s)) ∧
  ∀ p : Packet, p.extractLsb' 56 8 = 0x01 → p &&& 0xFFFFC0CC00000000 ≠ 0x0100000000000000 →
    decode p = .error .reservedBit

/-- RESET, from every state: a held block is released, RESET_ACTIONS, and Uninitialized unless Unconfigured; the
configuration, the gains, both banks, OUT and INP stay; with any other bit set it is illegal (R320, R321, R392). -/
def Obligations.ResetClearsStreamKeepsConfiguration : Prop :=
  (∀ p : Packet, p.extractLsb' 56 8 = 0x07 → p ≠ 0x0700000000000000 → decode p = .error .reservedBit) ∧
  ∀ s : State, ∃ epoch, exec .reset s = .next { s with
    regs := clearedRegs (if s.regs.state = .unconfigured then .unconfigured else .uninitialized)
      s.regs.tier s.regs.c s.regs.bitDepth s.regs.outRate s.regs.volL s.regs.volR
    events := s.events ++ releaseEvents s
    histEpoch := epoch
    responses := s.responses ++ [⟨.ok, 0⟩] }

/-- SET_VOLUME stores both gains and changes nothing else, for every 16-bit gain, in the four states that accept it; it is
ERR_STATE in Unconfigured and ERR_FAULT in Fault (R299). -/
def Obligations.SetVolumeStoresBothGains : Prop :=
  ∀ (s : State) (gainL gainR : BitVec 16),
    (acceptsRate s.regs.state → exec (.setVolume gainL gainR) s =
      .next (replies 0 { s with regs := { s.regs with volL := gainL, volR := gainR } })) ∧
    (s.regs.state = .unconfigured → exec (.setVolume gainL gainR) s = .next (refuses .errState 0 s)) ∧
    (s.regs.state = .fault → exec (.setVolume gainL gainR) s = .next (refuses .errFault 0 s))

/-- READ_REG answers {OK, value} by the map of rule R58, every code of rules R33 to R35, R350 and R355 a number, and changes
nothing, in every state; the numbers 0x14 and above are answered ERR_RANGE, and a set bit outside REGNUM makes the packet
illegal (R330). The 40 bits of a response (R111) are the status code above the data: that order is read from the notation
{status, data} (DEDUCED, assumption log 20). -/
def Obligations.ReadRegReturnsTheMap : Prop :=
  (∀ p : Packet, p.extractLsb' 56 8 = 0x08 → p &&& 0xFFFFFF00FFFFFFFF ≠ 0x0800000000000000 →
    decode p = .error .reservedBit) ∧
  (∀ r : Response, r.bits.toNat = 2 ^ 32 * statusNumber r.status + r.data.toNat) ∧
  ∀ s : State,
    (∀ n v, (n, v) ∈
        [ (0x00, stateNumber s.regs.state + 2 ^ 8 * bit s.regs.short +
            2 ^ 9 * bit (s.regs.state == .rateSet || s.regs.state == .rateChanging) + 2 ^ 10 * bit s.regs.locked + 2 ^ 11 * bit s.regs.held + 2 ^ 12 * bit s.regs.constValid +
            2 ^ 13 * bit s.regs.histValid + 2 ^ 16 * statusNumber s.regs.lastErr + 2 ^ 24 * causeNumber s.regs.faultCause),
          (0x01, tierNumber s.regs.tier + 2 ^ 4 * s.regs.c.toNat + 2 ^ 8 * s.regs.bitDepth.toNat +
            2 ^ 16 * bit (s.regs.tier == .high)),
          (0x02, s.regs.outRate.toNat), (0x03, s.regs.inRate.toNat), (0x04, s.regs.filterRate.toNat),
          (0x05, s.regs.l.toNat + 2 ^ 8 * s.regs.shift.toNat + 2 ^ 16 * s.regs.h.toNat),
          (0x06, s.regs.phase.toNat), (0x07, s.regs.inc.toNat), (0x08, s.regs.pending.toNat),
          (0x09, s.regs.volL.toNat + 2 ^ 16 * s.regs.volR.toNat), (0x0A, s.regs.impulse.toNat),
          (0x0B, s.regs.ringFull.toNat), (0x0C, s.regs.histFrames.toNat), (0x0D, s.regs.inputIndex.toNat),
          (0x0E, s.regs.heldBase.toNat), (0x0F, s.regs.heldFrames.toNat), (0x10, s.regs.coefCount.toNat),
          (0x11, s.regs.designAtten.toNat), (0x12, s.regs.result.toNat),
          (0x13, bit (s.regs.c == 2) + 2 * bit s.regs.locked + 4 * bit (s.regs.tier == .high) +
            2 ^ 8 * min s.params.stride 255) ] →
      ∃ d : Word, d.toNat = v ∧ exec (.readReg n) s = .next (replies d s)) ∧
    ∀ n, 0x14 ≤ n → exec (.readReg n) s = .next (refuses .errRange 0 s)

/-! ### SET_RATE and the coefficient store -/

/-- A rate ≤ 0, or a re-design whose coefShift would be negative, is answered ERR_CONFIG and nothing is written (R291,
R293). -/
def Obligations.SetRateRejectsBadRates : Prop :=
  ∀ (s : State) (rate : Int), acceptsRate s.regs.state →
    (rate ≤ 0 → exec (.setRate rate) s = .next (refuses .errConfig 0 s)) ∧
    (0 < rate → (s.regs.inRate.toNat : Int) ≠ rate → mustRedesign s rate →
      deriveConstants s.regs.tier s.regs.outRate.toNat rate.toNat = none →
      exec (.setRate rate) s = .next (refuses .errConfig 0 s))

/-- A SET_RATE whose rate equals IN_RATE changes nothing and answers the current DESIGN_REQ and LOCKED (R292). -/
def Obligations.SetRateUnchangedIsNoOp : Prop :=
  ∀ (s : State) (rate : Int), acceptsRate s.regs.state → 0 < rate → rate = s.regs.inRate.toNat →
    ∃ d : Word, d.toNat = bit (s.regs.state == .rateSet || s.regs.state == .rateChanging) + 2 * bit s.regs.locked ∧
      exec (.setRate rate) s = .next (replies d s)

/-- A SET_RATE that re-designs: the constants, the rescaled phase, the resized ring with its contents (all zero where no
buffer existed, else the window around IMPULSE moved to the new anchor, R204, R205), the rate, the increment and the locked
selector, the state that waits for a bank; everything else, PENDING and the held block among it, stays (R290, R293, R294,
R296 to R298). -/
def Obligations.SetRateRedesignEffect : Prop :=
  ∀ (s : State) (rate : Int) (k : Constants), s.Inv → acceptsRate s.regs.state → 0 < rate → rate < 2 ^ 31 →
    (s.regs.inRate.toNat : Int) ≠ rate → mustRedesign s rate →
    deriveConstants s.regs.tier s.regs.outRate.toNat rate.toNat = some k →
    ∃ t, exec (.setRate rate) s = .next t ∧
      t.regs.l.toNat = k.l ∧ t.regs.shift.toNat = k.shift ∧ t.regs.h.toNat = k.h ∧ t.regs.constValid = true ∧
      t.regs.designAtten.toNat = k.atten ∧ (t.regs.filterRate.toNat : Int) = rate ∧ (t.regs.inRate.toNat : Int) = rate ∧
      t.regs.coefCount = 0 ∧
      t.regs.state = (if s.regs.state = .uninitialized ∨ s.regs.state = .rateSet then .rateSet else .rateChanging) ∧
      t.regs.inc.toNat = (2 * (k.l * 2 ^ k.shift) * rate.toNat + s.regs.outRate.toNat) / (2 * s.regs.outRate.toNat) ∧
      (t.regs.locked = true ↔ t.regs.inc.toNat % 2 ^ k.shift = 0) ∧
      (let rescaled := if s.regs.constValid then s.regs.phase.toNat * (k.l * 2 ^ k.shift) / s.regs.wrap else 0
       t.regs.phase.toNat = if t.regs.locked then rescaled - rescaled % 2 ^ k.shift else rescaled) ∧
      t.regs.histValid = true ∧ t.hist = (rbResize k.h s).hist ∧
      (if s.regs.histValid = true ∧ s.regs.h.toNat = k.h then
        t.hist = s.hist ∧ t.regs.impulse = s.regs.impulse ∧ t.regs.histFrames = s.regs.histFrames ∧
          t.regs.ringFull = s.regs.ringFull
       else
        t.regs.histFrames.toNat = s.params.stateMult * 2 * k.h ∧ t.regs.impulse.toNat = k.h ∧
          t.regs.ringFull.toNat = s.params.stateMult * 2 * k.h - k.h ∧
          (∀ f c, f < s.params.stateMult * 2 * k.h → c < s.regs.c.toNat →
            t.hist.read (f * s.regs.c.toNat + c) =
              if s.regs.histValid = true ∧ f < 2 * k.h ∧ k.h ≤ s.regs.impulse.toNat + f ∧
                  s.regs.impulse.toNat + f - k.h < s.regs.histFrames.toNat then
                s.hist.read ((s.regs.impulse.toNat + f - k.h) * s.regs.c.toNat + c)
              else 0) ∧
          ∀ e, s.params.stateMult * 2 * k.h * s.regs.c.toNat ≤ e → t.hist.read e = s.hist.read e) ∧
      t.responses = s.responses ++ [⟨.ok, BitVec.ofNat 32 (1 + 2 * bit t.regs.locked)⟩] ∧
      t = { s with regs := t.regs, hist := t.hist, responses := t.responses } ∧
      t.regs = { s.regs with
        l := t.regs.l, shift := t.regs.shift, h := t.regs.h, constValid := t.regs.constValid
        designAtten := t.regs.designAtten, filterRate := t.regs.filterRate, inRate := t.regs.inRate
        coefCount := t.regs.coefCount, state := t.regs.state, inc := t.regs.inc, locked := t.regs.locked
        phase := t.regs.phase, histValid := t.regs.histValid, histFrames := t.regs.histFrames
        impulse := t.regs.impulse, ringFull := t.regs.ringFull }

/-- A SET_RATE without a re-design changes only IN_RATE, INC and LOCKED (R295, R296, R297) and, where it leaves LOCKED = 1,
clears PHASE's fraction bits. That last clause is the model's choice (DEDUCED, assumption log 10): rule R295 says that such a
SET_RATE keeps PHASE, rules R264 and R297 and the pseudocode of rule R290 clear its fraction. -/
def Obligations.SetRateKeepingConstants : Prop :=
  ∀ (s : State) (rate : Int), s.Inv → acceptsRate s.regs.state → 0 < rate → rate < 2 ^ 31 →
    (s.regs.inRate.toNat : Int) ≠ rate → ¬ mustRedesign s rate →
    ∃ (inc phase : Word) (locked : Bool) (d : Word),
      inc.toNat = (2 * s.regs.wrap * rate.toNat + s.regs.outRate.toNat) / (2 * s.regs.outRate.toNat) ∧
      (locked = true ↔ inc.toNat % 2 ^ s.regs.shift.toNat = 0) ∧
      phase.toNat = (if locked then s.regs.phase.toNat - s.regs.phase.toNat % 2 ^ s.regs.shift.toNat
        else s.regs.phase.toNat) ∧
      d.toNat = bit (s.regs.state == .rateSet || s.regs.state == .rateChanging) + 2 * bit locked ∧
      exec (.setRate rate) s = .next (replies d { s with regs := { s.regs with
        inRate := BitVec.ofInt 32 rate, inc := inc, locked := locked, phase := phase } })

/-- The model's re-design decision is the three cases of rule R166, with the closeness test of rule R165 on integers. -/
def Obligations.RedesignDecision : Prop :=
  ∀ (s : State) (rate : Nat), redesign s rate = true ↔ mustRedesign s rate

/-- The phase count is L0 doubled until it is at least 63, then capped at 127; so 63 ≤ L ≤ 127, and L is 127 or L0 · 2^m,
for every L0 ≥ 1 (R158). -/
def Obligations.PhaseCountIsClamped : Prop :=
  ∀ l0 : Nat, 1 ≤ l0 →
    (∃ m, 63 ≤ l0 * 2 ^ m ∧ (∀ j, j < m → l0 * 2 ^ j < 63) ∧ clampPhases l0 = min 127 (l0 * 2 ^ m)) ∧
    63 ≤ clampPhases l0 ∧ clampPhases l0 ≤ 127 ∧ (clampPhases l0 = 127 ∨ ∃ m, clampPhases l0 = l0 * 2 ^ m) ∧
    (l0 = 1 → clampPhases l0 = 64) ∧ (63 ≤ l0 → l0 ≤ 127 → clampPhases l0 = l0) ∧ (128 ≤ l0 → clampPhases l0 = 127)

/-- The derived constants: the phase count of rules R157 and R158, SHIFT = 30 − bitlen(lscale), the tier table of rule
R156; a rate is rejected exactly where the shift would be negative (R159, R160). -/
def Obligations.ConstantsFollowTheTierTable : Prop :=
  ∀ (t : Tier) (outRate inRate : Nat), 0 < outRate → 0 < inRate →
    let l := clampPhases (outRate / Nat.gcd outRate inRate)
    let scaled := if inRate < 2 * outRate then l - 1 else l * inRate / outRate
    let h := match t with
      | .low => if 2 * outRate ≤ inRate then 16 else 8
      | .medium => if 2 * outRate ≤ inRate then 32 else 16
      | .high => 32
    let atten := match t with | .low => 80 | .medium => 84 | .high => 98
    (deriveConstants t outRate inRate = none ↔ 2 ^ 30 ≤ scaled) ∧
    ∀ k, deriveConstants t outRate inRate = some k →
      k.l = l ∧ k.h = h ∧ k.atten = atten ∧ k.shift ≤ 30 ∧ 2 ^ (30 - k.shift - 1) ≤ scaled ∧ scaled < 2 ^ (30 - k.shift)

/-- For constants just derived, WRAP + INC_CALC(inRate) ≤ 2^32 (R163). -/
def Obligations.FreshConstantsBoundTheIncrement : Prop :=
  ∀ (t : Tier) (outRate inRate : Nat) (k : Constants), 0 < outRate → 0 < inRate →
    deriveConstants t outRate inRate = some k →
    k.l * 2 ^ k.shift + incCalc (k.l * 2 ^ k.shift) outRate inRate ≤ 2 ^ 32

/-! ### COEF_WRITE and COEF_COMMIT -/

/-- COEF_WRITE: a full bank and a value a 16-bit bank cannot hold are answered ERR_RANGE with COEF_COUNT; otherwise
SCOEF[idx] and COEF_COUNT are written and nothing else (R315, R317). -/
def Obligations.CoefWriteStagesOneElement : Prop :=
  ∀ (s : State) (start : Bool) (value : Word), acceptsBank s.regs.state →
    let idx := if start then 0 else s.regs.coefCount.toNat
    let size := (s.regs.l.toNat + 1) * s.regs.h.toNat
    let fits := s.regs.tier = .high ∨ value = (value.setWidth 16).signExtend 32
    (size ≤ idx ∨ ¬fits → exec (.coefWrite start value) s = .next (refuses .errRange (s.regs.coefCount.setWidth 32) s)) ∧
    (idx < size → fits → s.scoef.wf = true →
      ∃ t, exec (.coefWrite start value) s = .next t ∧
        t = { s with
          scoef := t.scoef
          regs := { s.regs with coefCount := BitVec.ofNat 13 (idx + 1) }
          responses := s.responses ++ [⟨.ok, BitVec.ofNat 32 (idx + 1)⟩] } ∧
        ∀ j, t.scoef.read j = if j = idx then value else s.scoef.read j)

/-- COEF_COMMIT: an incomplete load is answered ERR_STATE with COEF_COUNT; a complete one copies elements
0 .. (L + 1) · H − 1 of the staging bank, sets Ready and changes nothing else (R318). -/
def Obligations.CoefCommitInstallsTheBank : Prop :=
  ∀ s : State, acceptsBank s.regs.state →
    let size := (s.regs.l.toNat + 1) * s.regs.h.toNat
    (s.regs.coefCount.toNat ≠ size → exec .coefCommit s = .next (refuses .errState (s.regs.coefCount.setWidth 32) s)) ∧
    (s.regs.coefCount.toNat = size → s.scoef.wf = true → s.acoef.wf = true →
      ∃ t, exec .coefCommit s = .next t ∧
        t = { s with
          acoef := t.acoef
          regs := { s.regs with coefCount := 0, state := .ready }
          responses := s.responses ++ [⟨.ok, BitVec.ofNat 32 size⟩] } ∧
        ∀ j, t.acoef.read j = if j < size then s.scoef.read j else s.acoef.read j)

/-! ### The ring buffer -/

/-- A resize to the size already in use changes nothing (R203). -/
def Obligations.ResizeToSameSizeChangesNothing : Prop :=
  ∀ (s : State) (hn : Nat), s.regs.histValid = true → s.regs.histFrames.toNat = s.params.stateMult * 2 * hn →
    rbResize hn s = s

/-- The first resize zero-fills the buffer (R204), and a resize to a new size keeps the window of the new half-length at
the new anchor, every other element being 0 (R202, R205). -/
def Obligations.ResizeKeepsTheWindow : Prop :=
  ∀ (s : State) (hn : Nat), s.hist.wf = true → (s.regs.c = 1 ∨ s.regs.c = 2) → 0 < hn → hn ≤ 32 →
    2 ≤ s.params.stateMult → s.params.stateMult ≤ 1023 →
    ¬(s.regs.histValid = true ∧ s.regs.histFrames.toNat = s.params.stateMult * 2 * hn) →
    let fn := s.params.stateMult * 2 * hn
    let t := rbResize hn s
    t.regs.histFrames.toNat = fn ∧ t.regs.impulse.toNat = hn ∧ t.regs.ringFull.toNat = fn - hn ∧
    t.regs.histValid = true ∧
    (∀ f c, f < fn → c < s.regs.c.toNat →
      t.hist.read (f * s.regs.c.toNat + c) =
        if s.regs.histValid = true ∧ f < 2 * hn ∧ hn ≤ s.regs.impulse.toNat + f ∧
            s.regs.impulse.toNat + f - hn < s.regs.histFrames.toNat then
          s.hist.read ((s.regs.impulse.toNat + f - hn) * s.regs.c.toNat + c)
        else 0) ∧
    (∀ e, fn * s.regs.c.toNat ≤ e → t.hist.read e = s.hist.read e) ∧
    t = { s with hist := t.hist, regs := { s.regs with
      histFrames := t.regs.histFrames, impulse := t.regs.impulse, ringFull := t.regs.ringFull, histValid := true } }

/-- RB_READ_ADVANCE moves the window of the dot product by one frame: the frames it had shift by one, the newest is the
input frame, and a compaction is not visible; IMPULSE stays in [H, RING_FULL) (R207 to R211). -/
def Obligations.ReadAdvanceShiftsTheWindow : Prop :=
  ∀ (s : State), s.params.legal = true → s.hist.wf = true → s.raceFree → s.regs.histValid = true →
    (s.regs.c = 1 ∨ s.regs.c = 2) → 0 < s.regs.h.toNat → s.regs.h.toNat ≤ 32 →
    s.regs.histFrames.toNat = s.params.stateMult * 2 * s.regs.h.toNat →
    s.regs.ringFull.toNat + s.regs.h.toNat = s.regs.histFrames.toNat →
    s.regs.h.toNat ≤ s.regs.impulse.toNat → s.regs.impulse.toNat < s.regs.ringFull.toNat →
    let t := readAdvance s
    t.regs.h.toNat ≤ t.regs.impulse.toNat ∧ t.regs.impulse.toNat < t.regs.ringFull.toNat ∧
    (∀ m c, m + 1 < 2 * s.regs.h.toNat → c < s.regs.c.toNat →
      histSample t (t.regs.impulse.toNat - s.regs.h.toNat + 1 + m) c =
        histSample s (s.regs.impulse.toNat - s.regs.h.toNat + 1 + (m + 1)) c) ∧
    (∀ c, c < s.regs.c.toNat →
      t.hist.read ((t.regs.impulse.toNat + s.regs.h.toNat) * s.regs.c.toNat + c) =
        s.inp.read (s.regs.heldBase.toNat + s.regs.inputIndex.toNat * s.regs.c.toNat + c)) ∧
    t = { s with hist := t.hist, regs := { s.regs with impulse := t.regs.impulse } }

/-! ### The convolution and the phase -/

/-- If PHASE mod 2^SHIFT = 0 then FIR_INTERP and FIR_LOCKED give the same acc (R238). -/
def Obligations.LockedAndInterpolatedPathsAgree : Prop :=
  ∀ (s : State) (c : Nat), s.regs.phase.toNat < s.regs.wrap → s.regs.phase.toNat % 2 ^ s.regs.shift.toNat = 0 →
    firInterp s c = firLocked s c

/-- The interpolated tap is a + floor((b − a) · lerp / 2^Q); it lies between its two taps inclusive, so it fits the tap
width, and is a where lerp is 0 or b is a (R240). -/
def Obligations.InterpolatedTapLiesBetween : Prop :=
  ∀ (q lerp : Nat) (a b : Int), lerp < 2 ^ q →
    interp q a b lerp = a + ⌊((b - a) * lerp : ℚ) / 2 ^ q⌋ ∧ min a b ≤ interp q a b lerp ∧ interp q a b lerp ≤ max a b ∧
    interp q a b 0 = a ∧ interp q a a lerp = a

/-- Every row the dot products read is in 0 .. L, on the locked path from 1 on where the phase has no fraction, and
0 ≤ lerp < 2^Q (R236, R239, R264). -/
def Obligations.RowsReadLieInTheBank : Prop :=
  ∀ r : Regs, r.phase.toNat < r.wrap →
    r.indexP < r.l.toNat ∧ r.indexNLocked ≤ r.l.toNat ∧
    (r.phase.toNat % 2 ^ r.shift.toNat = 0 → 1 ≤ r.indexNLocked) ∧ r.indexNInterp < r.l.toNat ∧
    r.indexNInterp = r.l.toNat - 1 - r.indexP ∧
    lerpOf r.tapFraction r.shift.toNat r.phase.toNat < 2 ^ r.tapFraction

/-- With at most 64 products the accumulator is at most 2^36 in magnitude for 16-bit taps and 2^52 for 32-bit taps, on
both paths (R242). -/
def Obligations.AccumulatorNeverOverflows : Prop :=
  ∀ (s : State) (c : Nat), s.Inv → s.regs.state = .ready →
    |accOf s c| ≤ if s.regs.tier = .high then 2 ^ 52 else 2 ^ 36

/-- PHASE_STEP loses nothing and renormalises: PHASE < WRAP afterwards, and WRAP · (input frames newly owed) + PHASE is
the old PHASE + INC (R260, R262). -/
def Obligations.PhaseStepConservesPosition : Prop :=
  ∀ r : Regs, 63 ≤ r.wrap → r.phase.toNat < r.wrap → r.wrap + r.inc.toNat ≤ 2 ^ 32 → r.pending.toNat < 2 ^ 31 →
    r.phaseStep.phase.toNat < r.wrap ∧ r.pending.toNat ≤ r.phaseStep.pending.toNat ∧
    r.wrap * (r.phaseStep.pending.toNat - r.pending.toNat) + r.phaseStep.phase.toNat = r.phase.toNat + r.inc.toNat ∧
    r.phaseStep = { r with phase := r.phaseStep.phase, pending := r.phaseStep.pending }

/-- PHASE_RESCALE keeps PHASE below the new WRAP and proportional, rounded down, and is 0 with no previous filter (R263). -/
def Obligations.RescaledPhaseStaysInRange : Prop :=
  ∀ (r : Regs) (oldWrap : Nat), r.wrap ≤ 2 ^ 32 → 0 < r.wrap → (0 < oldWrap → r.phase.toNat < oldWrap) →
    (r.phaseRescale oldWrap).phase.toNat < r.wrap ∧
    (oldWrap = 0 → (r.phaseRescale oldWrap).phase = 0) ∧
    (0 < oldWrap → (r.phaseRescale oldWrap).phase.toNat = r.phase.toNat * r.wrap / oldWrap) ∧
    (r.phaseRescale oldWrap) = { r with phase := (r.phaseRescale oldWrap).phase }

/-! ### RESAMPLE -/

/-- base + n > OUT_FRAMES is answered ERR_RANGE, on mathematical integers; up to OUT_FRAMES inclusive it is accepted; n = 0 is
accepted for any base ≤ OUT_FRAMES and makes no provider call (R301). -/
def Obligations.ResampleChecksItsRange : Prop :=
  ∀ (s : State) (n base : Nat), s.regs.state = .ready →
    (s.params.outFrames < base + n → exec (.resample n base) s = .next (refuses .errRange 0 s)) ∧
    (base + n ≤ s.params.outFrames →
      ∃ t, exec (.resample n base) s = .next t ∧ ∀ d, t.responses ≠ s.responses ++ [⟨.errRange, d⟩]) ∧
    (base ≤ s.params.outFrames →
      exec (.resample 0 base) s = .next (replies 0 { s with regs := { s.regs with result := 0, short := false } }))

/-- RESAMPLE of one frame with no input owed: the frame is the symmetric dot product of the window, scaled by the gains
and added with saturation to OUT, then the phase steps; nothing else changes (R230, R235, R237, R241, R246, R247, R260). -/
def Obligations.ProducedFrameIsTheDotProduct : Prop :=
  ∀ (s : State) (base : Nat), s.Inv → s.raceFree → canResample s 1 base → s.regs.pending = 0 →
    ∃ t, exec (.resample 1 base) s = .next t ∧
      (t.outAt base 0).toInt = clamp32 ((s.outAt base 0).toInt + termValue s (accValue s 0) s.regs.volL) ∧
      (t.outAt base 1).toInt = clamp32 ((s.outAt base 1).toInt +
        termValue s (if s.regs.c = 2 then accValue s 1 else accValue s 0) s.regs.volR) ∧
      (∀ f c, c < 2 → f ≠ base → t.outAt f c = s.outAt f c) ∧
      t.regs.phase.toNat = (s.regs.phase.toNat + s.regs.inc.toNat) % s.regs.wrap ∧
      t.regs.pending.toNat = (s.regs.phase.toNat + s.regs.inc.toNat) / s.regs.wrap ∧
      t = { s with
        out := t.out
        regs := { s.regs with phase := t.regs.phase, pending := t.regs.pending, result := 1, short := false }
        responses := s.responses ++ [⟨.ok, 1⟩] }

/-- Owed input is consumed first (R302). With PENDING ≥ 1 and a block held a RESAMPLE does what it does from the state in which
one frame has been consumed, for every n ≥ 1; so with PENDING frames left in the block, however many, the output frame is the
dot product over the window they have moved, the block released if they were its last (R303, R230). -/
def Obligations.OwedFrameEntersTheOutput : Prop :=
  (∀ (s : State) (n base : Nat), s.raceFree → canResample s n base → 1 ≤ n → 0 < s.regs.pending.toNat →
    s.regs.held = true → exec (.resample n base) s = exec (.resample n base) (afterOneInput s)) ∧
  ∀ (s : State) (base : Nat), s.Inv → s.raceFree → canResample s 1 base → 0 < s.regs.pending.toNat →
    s.regs.pending.toNat ≤ heldInput s.regs →
    let w := afterInputs s.regs.pending.toNat s
    ∃ t, exec (.resample 1 base) s = .next t ∧
      (t.outAt base 0).toInt = clamp32 ((s.outAt base 0).toInt + termValue s (accValue w 0) s.regs.volL) ∧
      (t.outAt base 1).toInt = clamp32 ((s.outAt base 1).toInt +
        termValue s (if s.regs.c = 2 then accValue w 1 else accValue w 0) s.regs.volR) ∧
      (∀ f c, c < 2 → f ≠ base → t.outAt f c = s.outAt f c) ∧
      t.regs.phase.toNat = (s.regs.phase.toNat + s.regs.inc.toNat) % s.regs.wrap ∧
      t.regs.pending.toNat = (s.regs.phase.toNat + s.regs.inc.toNat) / s.regs.wrap ∧
      t = { w with
        out := t.out
        responses := s.responses ++ [⟨.ok, 1⟩]
        regs := { w.regs with phase := t.regs.phase, pending := t.regs.pending, result := 1, short := false } }

/-- A RESAMPLE whose input is in the held block runs to its end: it consumes PENDING + floor((PHASE + (n − 1) · INC) / WRAP)
frames, releases the block if they were its last, leaves the PHASE and PENDING of rule R310, and answers {OK, n}. -/
def Obligations.ResampleConsumesByTheFormula : Prop :=
  ∀ (s : State) (n base : Nat), s.Inv → s.raceFree → canResample s n base → 1 ≤ n →
    let r := s.regs
    let used := r.pending.toNat + (r.phase.toNat + (n - 1) * r.inc.toNat) / r.wrap
    let left := if r.held then r.heldFrames.toNat - r.inputIndex.toNat else 0
    used ≤ left →
    ∃ t, exec (.resample n base) s = .next t ∧
      t.regs.phase.toNat = (r.phase.toNat + n * r.inc.toNat) % r.wrap ∧
      t.regs.pending.toNat =
        (r.phase.toNat + n * r.inc.toNat) / r.wrap - (r.phase.toNat + (n - 1) * r.inc.toNat) / r.wrap ∧
      (if used < left ∨ left = 0 then
        t.regs.held = r.held ∧ t.regs.heldBase = r.heldBase ∧ t.regs.heldFrames = r.heldFrames ∧
          t.regs.inputIndex.toNat = r.inputIndex.toNat + used ∧ t.events = s.events
       else
        t.regs.held = false ∧ t.regs.heldBase = 0 ∧ t.regs.heldFrames = 0 ∧ t.regs.inputIndex = 0 ∧
          t.events = s.events ++ [.releaseBuffer ⟨r.heldBase, r.heldFrames⟩]) ∧
      (∀ f c, c < 2 → (f < base ∨ base + n ≤ f) → t.outAt f c = s.outAt f c) ∧
      t = { s with
        out := t.out, hist := t.hist, events := t.events
        responses := s.responses ++ [⟨.ok, BitVec.ofNat 32 n⟩]
        regs := { r with
          phase := t.regs.phase, pending := t.regs.pending, impulse := t.regs.impulse, held := t.regs.held
          heldBase := t.regs.heldBase, heldFrames := t.regs.heldFrames, inputIndex := t.regs.inputIndex
          result := BitVec.ofNat 32 n, short := false } }

/-- The window after a RESAMPLE whose input is in the held block: the frames of the window it starts from, then the frames
of INP it consumed, in input order; of these 2H + used frames the last 2H, oldest first, whatever compactions happened on the
way (R201, R207 to R211, R302). -/
def Obligations.HeldInputEntersTheWindowInOrder : Prop :=
  ∀ (s : State) (n base : Nat), s.Inv → s.raceFree → canResample s n base → 1 ≤ n →
    let r := s.regs
    let used := owedBefore r (n - 1)
    used ≤ heldInput r →
    ∃ t, exec (.resample n base) s = .next t ∧
      r.h.toNat ≤ t.regs.impulse.toNat ∧ t.regs.impulse.toNat < r.ringFull.toNat ∧
      ∀ m c, m < 2 * r.h.toNat → c < r.c.toNat →
        t.hist.read ((t.regs.impulse.toNat - r.h.toNat + 1 + m) * r.c.toNat + c) =
          if m + used < 2 * r.h.toNat then
            s.hist.read ((r.impulse.toNat - r.h.toNat + 1 + (m + used)) * r.c.toNat + c)
          else
            s.inp.read (r.heldBase.toNat + (r.inputIndex.toNat + (m + used - 2 * r.h.toNat)) * r.c.toNat + c)

/-- Over a RESAMPLE of n ≥ 1 frames that runs to its end, whatever blocks the provider hands over, the input frames consumed
are PENDING + floor((PHASE + (n − 1) · INC) / WRAP) by the registers it starts from, and PENDING and PHASE end as rule R310
and the phase step say. Frames consumed are the frames of the blocks released and the rise of INPUT_INDEX. -/
def Obligations.InputConsumptionFollowsTheFormula : Prop :=
  ∀ (s t : State) (n base : Nat), s.Inv → canResample s n base → 1 ≤ n → exec (.resample n base) s = .next t →
    t.responses = s.responses ++ [⟨.ok, BitVec.ofNat 32 n⟩] →
    let r := s.regs
    releasedFrames t.events + t.regs.inputIndex.toNat =
      releasedFrames s.events + r.inputIndex.toNat +
        (r.pending.toNat + (r.phase.toNat + (n - 1) * r.inc.toNat) / r.wrap) ∧
    t.regs.pending.toNat =
      (r.phase.toNat + n * r.inc.toNat) / r.wrap - (r.phase.toNat + (n - 1) * r.inc.toNat) / r.wrap ∧
    t.regs.phase.toNat = (r.phase.toNat + n * r.inc.toNat) % r.wrap

/-- A RESAMPLE ends only by reaching k = n, by exhaustion (a Null or an empty block) or by a provider fault (a descriptor past
INP); otherwise it waits for the provider's answer (as a state, the model's form: assumption log 6). RESULT, SHORT and the
answer are those of rules R300, R305, R306 and R366, the request it ends or waits at has the hint of rule R304, every answer
before the last is a block it took, and k is the number of output frames that the input had reaches for: frame k − 1 needed no
more (R302), frame k needs more. -/
def Obligations.ResampleEndsInOneOfFourWays : Prop :=
  ∀ (s : State) (n base : Nat), canResample s n base →
    ∃ t k taken, exec (.resample n base) s = .next t ∧ k ≤ n ∧ (∀ a ∈ taken, isBlockInInp s a) ∧
      ((t.waiting = none ∧ t.responses = s.responses ++ [⟨.ok, BitVec.ofNat 32 k⟩] ∧
          t.regs.result = BitVec.ofNat 32 k ∧ t.regs.short = decide (k < n) ∧ t.regs.state = .ready ∧
          t.regs.lastErr = s.regs.lastErr ∧ t.regs.faultCause = s.regs.faultCause ∧
          ((k = n ∧ s.provider = taken ++ t.provider) ∨
           (k < n ∧ t.regs.held = false ∧ lastRequested n k t ∧
              ∃ a, isExhaustion a ∧ s.provider = taken ++ a :: t.provider))) ∨
       (t.waiting = none ∧ k < n ∧ t.responses = s.responses ++ [⟨.errFault, BitVec.ofNat 32 k⟩] ∧
          t.regs.result = BitVec.ofNat 32 k ∧ t.regs.short = true ∧ t.regs.state = .fault ∧
          t.regs.faultCause = .providerRange ∧ t.regs.lastErr = .errFault ∧ t.regs.held = false ∧
          lastRequested n k t ∧ ∃ a, isBlockPastInp s a ∧ s.provider = taken ++ a :: t.provider) ∨
       (t.waiting = some ⟨n, base, k⟩ ∧ k < n ∧ t.provider = [] ∧ t.responses = s.responses ∧
          t.regs.state = .ready ∧ t.regs.held = false ∧ t.regs.result = s.regs.result ∧ t.regs.short = s.regs.short ∧
          lastRequested n k t ∧ s.provider = taken)) ∧
      (s.Inv →
        (0 < k → owedBefore s.regs (k - 1) ≤ heldInput s.regs + handedFrames taken) ∧
        (k < n → heldInput s.regs + handedFrames taken < owedBefore s.regs k))

/-- The first provider answer a RESAMPLE gets, the provider's writes of INP made before it (R92; a write of an element that
does not exist takes no effect: the model's choice, assumption log 8), other agents moving at the request and after the answer
(R93, log 7; nothing where there are no such moves): exhaustion ends the command short with PENDING and
PHASE kept (R306); a descriptor past INP raises Fault, is neither read, held nor released (R305, R366); a descriptor inside
INP, up to INP_WORDS inclusive, becomes HELD_BASE and HELD_FRAMES with INPUT_INDEX = 0, and the command goes on with it held
(R300); no answer leaves the request waiting (R92; as a state, assumption log 6). -/
def Obligations.ResampleAtItsFirstRequest : Prop :=
  ∀ (s : State) (n base : Nat), canResample s n base → 1 ≤ n → 0 < s.regs.pending.toNat → s.regs.held = false →
    let request := PortEvent.getNextBuffer (min (2 ^ 31 - 1)
      (s.regs.pending.toNat + (s.regs.inc.toNat * (n - 1) + s.regs.phase.toNat) / s.regs.wrap))
    let asked : State := { agentsMove s with events := s.events ++ [request] }
    (s.raceFree → asked = { s with events := s.events ++ [request] }) ∧
    (s.provider = [] → exec (.resample n base) s = .next { asked with waiting := some ⟨n, base, 0⟩ }) ∧
    ∀ a rest, s.provider = a :: rest →
      let written : State := { asked with provider := rest, inp := (providerWrites a.writes asked).inp }
      let answered : State := agentsMove written
      (s.raceFree → answered = written) ∧
      (s.inp.wf = true → ∀ i, written.inp.read i =
        if i < s.params.inpWords then (lastWrite a.writes i).getD (asked.inp.read i) else asked.inp.read i) ∧
      (isExhaustion a →
        exec (.resample n base) s = .next { answered with
          responses := s.responses ++ [⟨.ok, 0⟩], regs := { s.regs with result := 0, short := true } }) ∧
      ∀ d, a.block = some d → d.frames ≠ 0 →
        (s.params.inpWords < d.base.toNat + d.frames.toNat * s.regs.c.toNat →
          exec (.resample n base) s = .next { answered with
            responses := s.responses ++ [⟨.errFault, 0⟩]
            regs := { s.regs with
              state := .fault, faultCause := .providerRange, lastErr := .errFault, result := 0, short := true } }) ∧
        (d.base.toNat + d.frames.toNat * s.regs.c.toNat ≤ s.params.inpWords →
          exec (.resample n base) s = exec (.resample n base) { answered with
            regs := { s.regs with held := true, heldBase := d.base, heldFrames := d.frames, inputIndex := 0 } } ∧
          (n = 1 → s.regs.pending = 1 →
            ∃ t, exec (.resample n base) s = .next t ∧ t.responses = s.responses ++ [⟨.ok, 1⟩] ∧ t.provider = rest ∧
              if d.frames = 1 then
                t.regs.held = false ∧ t.regs.heldBase = 0 ∧ t.regs.heldFrames = 0 ∧ t.regs.inputIndex = 0 ∧
                  t.events = s.events ++ [request, .releaseBuffer d]
              else
                t.regs.held = true ∧ t.regs.heldBase = d.base ∧ t.regs.heldFrames = d.frames ∧
                  t.regs.inputIndex = 1 ∧ t.events = s.events ++ [request]))

/-- A RESAMPLE writes no OUT frame outside base .. base + n − 1, none at or past base + k where it stopped after k frames,
and changes no bank, gain, constant or configuration (R309, R311, R366). INP holds what the writes of the provider's answers
it took leave, and an element that none of them writes reads as before. Of HIST, only elements in use change (R213): all of
it stays where no input frame is consumed, and before a compaction only the frames that the consumed input goes to, from
IMPULSE + H + 1 on, do (R207, R208). -/
def Obligations.ResampleFrame : Prop :=
  ∀ (s t : State) (n base : Nat), s.out.wf = true → s.inp.wf = true → s.raceFree → exec (.resample n base) s = .next t →
    (∀ f c, c < 2 → (f < base ∨ base + n ≤ f) → t.outAt f c = s.outAt f c) ∧
    (∀ st k, k < 2 ^ 24 → t.responses = s.responses ++ [⟨st, BitVec.ofNat 32 k⟩] → n < 2 ^ 24 →
      ∀ f c, c < 2 → base + k ≤ f → t.outAt f c = s.outAt f c) ∧
    (∃ taken, s.provider = taken ++ t.provider ∧
      t.inp = (providerWrites (taken.flatMap fun a => a.writes) s).inp ∧
      ∀ i, (∀ a ∈ taken, ∀ v, (i, v) ∉ a.writes) → t.inp.read i = s.inp.read i) ∧
    (s.Inv → ∃ consumed,
      releasedFrames t.events + t.regs.inputIndex.toNat =
        releasedFrames s.events + s.regs.inputIndex.toNat + consumed ∧
      (consumed = 0 → t.hist = s.hist ∧ t.regs.impulse = s.regs.impulse) ∧
      (∀ e, s.regs.histFrames.toNat * s.regs.c.toNat ≤ e → t.hist.read e = s.hist.read e) ∧
      (s.regs.impulse.toNat + consumed < s.regs.ringFull.toNat →
        t.regs.impulse.toNat = s.regs.impulse.toNat + consumed ∧
        ∀ e, (e < (s.regs.impulse.toNat + s.regs.h.toNat + 1) * s.regs.c.toNat ∨
            (s.regs.impulse.toNat + s.regs.h.toNat + 1 + consumed) * s.regs.c.toNat ≤ e) →
          t.hist.read e = s.hist.read e)) ∧
    t = { s with
      out := t.out, hist := t.hist, inp := t.inp, waiting := t.waiting, provider := t.provider
      responses := t.responses, events := t.events
      regs := { s.regs with
        state := t.regs.state, faultCause := t.regs.faultCause, lastErr := t.regs.lastErr, phase := t.regs.phase
        pending := t.regs.pending, impulse := t.regs.impulse, held := t.regs.held, heldBase := t.regs.heldBase
        heldFrames := t.regs.heldFrames, inputIndex := t.regs.inputIndex, result := t.regs.result
        short := t.regs.short } }

/-- Two RESAMPLE commands of n1 and n2 frames at b and b + n1 write the same OUT values, make the same provider calls
except for hints, and leave the same registers as one of n1 + n2 frames (R308), but for RESULT: that exception is the model's
reading (DEDUCED, assumption log 19), rule R43 giving RESULT the count of the most recent RESAMPLE. -/
def Obligations.ResampleSplitsAnywhere : Prop :=
  ∀ (s t1 t2 : State) (n1 n2 b : Nat), canResample s (n1 + n2) b →
    exec (.resample n1 b) s = .next t1 → t1.responses = s.responses ++ [⟨.ok, BitVec.ofNat 32 n1⟩] →
    exec (.resample n2 (b + n1)) t1 = .next t2 → t2.responses = t1.responses ++ [⟨.ok, BitVec.ofNat 32 n2⟩] →
    ∃ t, exec (.resample (n1 + n2) b) s = .next t ∧
      t.responses = s.responses ++ [⟨.ok, BitVec.ofNat 32 (n1 + n2)⟩] ∧
      List.Forall₂ sameButHint t.events t2.events ∧
      t = { t2 with
        responses := t.responses, events := t.events
        regs := { t2.regs with result := BitVec.ofNat 32 (n1 + n2) } }

/-- The prefix property: the frames a RESAMPLE writes before it stops on exhaustion are those a provider that goes on
with any other answers would have produced in the same positions (R307). -/
def Obligations.ShortResultIsAPrefix : Prop :=
  ∀ (s t t' : State) (n base k : Nat) (before after more : List ProviderAnswer) (stop : ProviderAnswer),
    s.out.wf = true → s.raceFree → canResample s n base → s.provider = before ++ stop :: after → isExhaustion stop →
    exec (.resample n base) s = .next t → t.provider = after →
    t.responses = s.responses ++ [⟨.ok, BitVec.ofNat 32 k⟩] → k < n →
    exec (.resample n base) { s with provider := before ++ more } = .next t' →
    ∀ f c, c < 2 → f < base + k → t'.outAt f c = t.outAt f c

/-- A wait in GetNextBuffer is not visible in what the command does: a RESAMPLE that waited and is then answered ends as
if the answers had been there from the start (R13, R92; answers as a list are the model's form, assumption log 6). -/
def Obligations.WaitingChangesNothing : Prop :=
  ∀ (s t : State) (n base : Nat) (later : List ProviderAnswer), canResample s n base → later ≠ [] →
    exec (.resample n base) s = .next t → t.waiting ≠ none →
    step { t with provider := later } = exec (.resample n base) { s with provider := s.provider ++ later }

/-- Races with one output frame (R93, R84; the points where they land: assumption log 7). The frame reads and writes OUT
(base, 0), then OUT (base, 1). Another agent's read of one of them sees its old value before the block's write and its new
value after it. Another agent's write counts as made before the command where it lands before the block's read, is lost where
it lands between that read and the block's write, and stays where it lands after. A write of an element of INP that is about
to be consumed is consumed or not, as it lands before or after the block's read of it. -/
def Obligations.RacingAccessesInterleave : Prop :=
  (∀ (s u : State) (base c j : Nat), s.out.wf = true → canResample s 1 base → s.regs.pending = 0 → c < 2 → j < 5 →
    exec (.resample 1 base) { s with races := [] } = .next u →
    (s.races = List.replicate j [] ++ [[.read (.out base c)]] →
      exec (.resample 1 base) s = .next { u with
        observed := s.observed ++ [.out base c (if j < 2 * c + 2 then s.outAt base c else u.outAt base c)] }) ∧
    ∀ v, s.races = List.replicate j [] ++ [[.write (.out base c v)]] →
      (j ≤ 2 * c → exec (.resample 1 base) s =
        exec (.resample 1 base) { s with races := [], out := s.out.write (2 * base + c) v }) ∧
      (j = 2 * c + 1 → exec (.resample 1 base) s = .next u) ∧
      (2 * c + 1 < j → exec (.resample 1 base) s = .next { u with out := u.out.write (2 * base + c) v })) ∧
  ∀ (s u : State) (base c j : Nat) (v : Sample), s.Inv → canResample s 1 base → s.regs.pending = 1 →
    s.regs.held = true → c < s.regs.c.toNat → j < s.regs.c.toNat + 5 →
    exec (.resample 1 base) { s with races := [] } = .next u →
    let e := s.regs.heldBase.toNat + s.regs.inputIndex.toNat * s.regs.c.toNat + c
    s.races = List.replicate j [] ++ [[.write (.inp e v)]] →
    (j ≤ c → exec (.resample 1 base) s =
      exec (.resample 1 base) { s with races := [], inp := s.inp.write e v }) ∧
    (c < j → exec (.resample 1 base) s = .next { u with inp := u.inp.write e v })

/-! ### Whole-machine rules -/

/-- The state transitions of rule R282: every command leaves STATE unchanged or makes one of the listed moves. -/
def Obligations.StateTransitionsAreThoseListed : Prop :=
  ∀ (i : Instr) (s t : State), exec i s = .next t → t.regs.state ≠ s.regs.state →
    match i with
    | .create _ _ _ _ => t.regs.state = .uninitialized
    | .reset => s.regs.state ≠ .unconfigured ∧ t.regs.state = .uninitialized
    | .setRate _ => (s.regs.state = .uninitialized ∧ t.regs.state = .rateSet) ∨
        (s.regs.state = .ready ∧ t.regs.state = .rateChanging)
    | .coefCommit => (s.regs.state = .rateSet ∨ s.regs.state = .rateChanging) ∧ t.regs.state = .ready
    | .resample _ _ => s.regs.state = .ready ∧ t.regs.state = .fault
    | .nop | .setVolume _ _ | .coefWrite _ _ | .readReg _ => False

/-- Each register is written only by the commands whose rules name it (R32 to R43, R343): the configuration by CREATE, the
gains by SET_VOLUME and CREATE, the constants and IN_RATE by SET_RATE, RESET and CREATE, COEF_COUNT also by the bank commands,
PHASE and IMPULSE by SET_RATE and RESAMPLE, the stream's other registers by RESAMPLE, RESET and CREATE, STATE by the commands
of rule R282, and LAST_ERR by an error answer, RESET and CREATE (R34, R351). -/
def Obligations.RegistersHaveTheirWriters : Prop :=
  ∀ (i : Instr) (s t : State), exec i s = .next t →
    (i.opcode ≠ .create → t.regs.tier = s.regs.tier ∧ t.regs.c = s.regs.c ∧ t.regs.bitDepth = s.regs.bitDepth ∧
      t.regs.outRate = s.regs.outRate) ∧
    (i.opcode ≠ .create → i.opcode ≠ .setVolume → t.regs.volL = s.regs.volL ∧ t.regs.volR = s.regs.volR) ∧
    (i.opcode ≠ .create → i.opcode ≠ .reset → i.opcode ≠ .setRate →
      t.regs.l = s.regs.l ∧ t.regs.shift = s.regs.shift ∧ t.regs.h = s.regs.h ∧ t.regs.constValid = s.regs.constValid ∧
        t.regs.designAtten = s.regs.designAtten ∧ t.regs.filterRate = s.regs.filterRate ∧ t.regs.inRate = s.regs.inRate ∧
        t.regs.inc = s.regs.inc ∧ t.regs.locked = s.regs.locked ∧ t.regs.histValid = s.regs.histValid ∧
        t.regs.histFrames = s.regs.histFrames ∧ t.regs.ringFull = s.regs.ringFull) ∧
    (i.opcode ≠ .create → i.opcode ≠ .reset → i.opcode ≠ .setRate → i.opcode ≠ .coefWrite → i.opcode ≠ .coefCommit →
      t.regs.coefCount = s.regs.coefCount) ∧
    (i.opcode ≠ .create → i.opcode ≠ .reset → i.opcode ≠ .resample →
      t.regs.pending = s.regs.pending ∧ t.regs.held = s.regs.held ∧ t.regs.heldBase = s.regs.heldBase ∧
        t.regs.heldFrames = s.regs.heldFrames ∧ t.regs.inputIndex = s.regs.inputIndex ∧
        t.regs.result = s.regs.result ∧ t.regs.short = s.regs.short ∧ t.regs.faultCause = s.regs.faultCause) ∧
    (i.opcode ≠ .create → i.opcode ≠ .reset → i.opcode ≠ .setRate → i.opcode ≠ .resample →
      t.regs.phase = s.regs.phase ∧ t.regs.impulse = s.regs.impulse) ∧
    (i.opcode ≠ .create → i.opcode ≠ .reset → i.opcode ≠ .setRate → i.opcode ≠ .resample → i.opcode ≠ .coefCommit →
      t.regs.state = s.regs.state) ∧
    (t.regs.lastErr = s.regs.lastErr ∨ ((i.opcode = .create ∨ i.opcode = .reset) ∧ t.regs.lastErr = .ok) ∨
      ∃ st d, st ≠ .ok ∧ t.responses = s.responses ++ [⟨st, d⟩] ∧ t.regs.lastErr = st)

/-- Each memory is written only by the commands whose rules name it (R46, R83): ACOEF by COEF_COMMIT, SCOEF by COEF_WRITE,
HIST by SET_RATE and RESAMPLE, OUT and INP during RESAMPLE only. That RESET and CREATE leave the list of HIST as it was is the
model's choice (DESIGN CHOICE, assumption log 2): after them rules R60 and R321 leave the contents unspecified. -/
def Obligations.MemoriesHaveTheirWriters : Prop :=
  ∀ (i : Instr) (s t : State), exec i s = .next t →
    (i.opcode ≠ .coefCommit → t.acoef = s.acoef) ∧
    (i.opcode ≠ .coefWrite → t.scoef = s.scoef) ∧
    (i.opcode ≠ .setRate → i.opcode ≠ .resample → t.hist = s.hist) ∧
    (i.opcode ≠ .resample → t.out = s.out ∧ t.inp = s.inp)

/-- Only RESET and CREATE leave Fault; NOP and READ_REG work there, and every other command answers ERR_FAULT and changes
nothing but LAST_ERR (R367). -/
def Obligations.OnlyResetAndCreateLeaveFault : Prop :=
  ∀ (i : Instr) (s : State), s.regs.state = .fault →
    (∀ t, exec i s = .next t → t.regs.state ≠ .fault →
      (i = .reset ∨ ∃ tier chan bits outRate, i = .create tier chan bits outRate) ∧
        t.regs.faultCause = .none ∧ t.regs.lastErr = .ok) ∧
    (refusedInFault i.opcode → exec i s = .next (refuses .errFault 0 s)) ∧
    (i = .nop → exec i s = .next (replies 0 s)) ∧
    (∀ n, i = .readReg n → n < 0x14 → ∃ d, exec i s = .next (replies d s))

/-- STRIDE has no effect on anything but the DISPATCH read-back (R250, R59). -/
def Obligations.StrideNeverChangesAnything : Prop :=
  ∀ (i : Instr) (s t : State) (stride : Nat), i ≠ .readReg 0x13 → exec i s = .next t →
    exec i { s with params := { s.params with stride := stride } } =
      .next { t with params := { t.params with stride := stride } }

/-- Unspecified HIST contents are never read (R61): while no history buffer exists, no command's answer, register or other
memory depends on them, and the resize that makes the buffer leaves the same elements in use. -/
def Obligations.UnspecifiedHistoryIsNeverRead : Prop :=
  ∀ (i : Instr) (s t : State) (hist : Mem 16) (epoch : Nat), s.Inv → s.regs.histValid = false → hist.wf = true →
    exec i s = .next t →
    ∃ t', exec i { s with hist := hist, histEpoch := epoch } = .next t' ∧
      t' = { t with hist := t'.hist, histEpoch := t'.histEpoch } ∧
      (t.regs.histValid = true → ∀ e, e < t.regs.histFrames.toNat * t.regs.c.toNat → t'.hist.read e = t.hist.read e)

/-! ### Invariants -/

/-- Power-on: the block is Unconfigured and every register reads 0, but for the view DISPATCH, which reads min(STRIDE, 255)
· 2^8 (R391, R59). -/
def Obligations.PowerOnRegistersReadZero : Prop :=
  State.reset.regs.state = .unconfigured ∧
  ∀ (p : Params) (n : Nat), n < 0x14 → let s := { State.reset with params := p }
    exec (.readReg n) s = .next (replies (if n = 0x13 then BitVec.ofNat 32 (min p.stride 255 * 2 ^ 8) else 0) s)

/-- The block meets its invariant at power-on, for every legal set of parameters (R60; the memories' start is the model's
choice, assumption log 1, and so is the upper end of STATE_MULT, log 3). -/
def Obligations.PowerOnMeetsTheInvariant : Prop :=
  ∀ p : Params, p.legal = true → State.Inv { State.reset with params := p }

/-- Every step keeps the invariant of the block: the register invariants R34 to R42, the ring, the descriptor, the
canonical memories and the tap widths. -/
def Obligations.EveryStepKeepsTheInvariant : Prop :=
  ∀ s t : State, s.Inv → step s = .next t → t.Inv

/-- Every step keeps every memory in its canonical form, from any state whose memories are. -/
def Obligations.EveryStepKeepsMemoriesCanonical : Prop :=
  ∀ s t : State, s.inp.wf = true → s.out.wf = true → s.hist.wf = true → s.acoef.wf = true → s.scoef.wf = true →
    step s = .next t → t.inp.wf = true ∧ t.out.wf = true ∧ t.hist.wf = true ∧ t.acoef.wf = true ∧ t.scoef.wf = true

/-- A step never refuses, and stops only at a host write or read of an element that does not exist (the model's choice,
assumption log 8). -/
def Obligations.StepStopsOnlyAtMissingElements : Prop :=
  ∀ s : State, (∃ t, step s = .next t) ∨
    (step s = .fault .noSuchElement ∧ s.waiting = none ∧
      ∃ rest, (∃ w, s.host = .write w :: rest ∧ w.inRange s.params = false) ∨
        ∃ r, s.host = .read r :: rest ∧ r.inRange s.params = false)
end

