-- ==== Sys2Proof/Laws/State.lean ====
section
/-! SUPPORT. One lemma per field for each operation that writes fields of State directly, true by unfolding, so that no
later proof unfolds a record update. -/

namespace Sys2Proof.Machine

/-! #### answer -/

@[simp] theorem answer_params (st : Status) (d : Word) (s : State) : (answer st d s).params = s.params := rfl
@[simp] theorem answer_regs (st : Status) (d : Word) (s : State) : (answer st d s).regs = { s.regs with lastErr := if st = .ok then s.regs.lastErr else st } := rfl
@[simp] theorem answer_inp (st : Status) (d : Word) (s : State) : (answer st d s).inp = s.inp := rfl
@[simp] theorem answer_out (st : Status) (d : Word) (s : State) : (answer st d s).out = s.out := rfl
@[simp] theorem answer_hist (st : Status) (d : Word) (s : State) : (answer st d s).hist = s.hist := rfl
@[simp] theorem answer_acoef (st : Status) (d : Word) (s : State) : (answer st d s).acoef = s.acoef := rfl
@[simp] theorem answer_scoef (st : Status) (d : Word) (s : State) : (answer st d s).scoef = s.scoef := rfl
@[simp] theorem answer_waiting (st : Status) (d : Word) (s : State) : (answer st d s).waiting = s.waiting := rfl
@[simp] theorem answer_host (st : Status) (d : Word) (s : State) : (answer st d s).host = s.host := rfl
@[simp] theorem answer_provider (st : Status) (d : Word) (s : State) : (answer st d s).provider = s.provider := rfl
@[simp] theorem answer_races (st : Status) (d : Word) (s : State) : (answer st d s).races = s.races := rfl
@[simp] theorem answer_responses (st : Status) (d : Word) (s : State) : (answer st d s).responses = s.responses ++ [⟨st, d⟩] := rfl
@[simp] theorem answer_events (st : Status) (d : Word) (s : State) : (answer st d s).events = s.events := rfl
@[simp] theorem answer_histEpoch (st : Status) (d : Word) (s : State) : (answer st d s).histEpoch = s.histEpoch := rfl
@[simp] theorem answer_observed (st : Status) (d : Word) (s : State) : (answer st d s).observed = s.observed := rfl

/-! #### portEvent -/

@[simp] theorem portEvent_params (e : PortEvent) (s : State) : (portEvent e s).params = s.params := rfl
@[simp] theorem portEvent_regs (e : PortEvent) (s : State) : (portEvent e s).regs = s.regs := rfl
@[simp] theorem portEvent_inp (e : PortEvent) (s : State) : (portEvent e s).inp = s.inp := rfl
@[simp] theorem portEvent_out (e : PortEvent) (s : State) : (portEvent e s).out = s.out := rfl
@[simp] theorem portEvent_hist (e : PortEvent) (s : State) : (portEvent e s).hist = s.hist := rfl
@[simp] theorem portEvent_acoef (e : PortEvent) (s : State) : (portEvent e s).acoef = s.acoef := rfl
@[simp] theorem portEvent_scoef (e : PortEvent) (s : State) : (portEvent e s).scoef = s.scoef := rfl
@[simp] theorem portEvent_waiting (e : PortEvent) (s : State) : (portEvent e s).waiting = s.waiting := rfl
@[simp] theorem portEvent_host (e : PortEvent) (s : State) : (portEvent e s).host = s.host := rfl
@[simp] theorem portEvent_provider (e : PortEvent) (s : State) : (portEvent e s).provider = s.provider := rfl
@[simp] theorem portEvent_races (e : PortEvent) (s : State) : (portEvent e s).races = s.races := rfl
@[simp] theorem portEvent_responses (e : PortEvent) (s : State) : (portEvent e s).responses = s.responses := rfl
@[simp] theorem portEvent_events (e : PortEvent) (s : State) : (portEvent e s).events = s.events ++ [e] := rfl
@[simp] theorem portEvent_histEpoch (e : PortEvent) (s : State) : (portEvent e s).histEpoch = s.histEpoch := rfl
@[simp] theorem portEvent_observed (e : PortEvent) (s : State) : (portEvent e s).observed = s.observed := rfl

/-! #### writeOut -/

@[simp] theorem writeOut_params (s : State) (f c : Nat) (v : Word) : (s.writeOut f c v).params = s.params := rfl
@[simp] theorem writeOut_regs (s : State) (f c : Nat) (v : Word) : (s.writeOut f c v).regs = s.regs := rfl
@[simp] theorem writeOut_inp (s : State) (f c : Nat) (v : Word) : (s.writeOut f c v).inp = s.inp := rfl
@[simp] theorem writeOut_out (s : State) (f c : Nat) (v : Word) : (s.writeOut f c v).out = s.out.write (outIndex f c) v := rfl
@[simp] theorem writeOut_hist (s : State) (f c : Nat) (v : Word) : (s.writeOut f c v).hist = s.hist := rfl
@[simp] theorem writeOut_acoef (s : State) (f c : Nat) (v : Word) : (s.writeOut f c v).acoef = s.acoef := rfl
@[simp] theorem writeOut_scoef (s : State) (f c : Nat) (v : Word) : (s.writeOut f c v).scoef = s.scoef := rfl
@[simp] theorem writeOut_waiting (s : State) (f c : Nat) (v : Word) : (s.writeOut f c v).waiting = s.waiting := rfl
@[simp] theorem writeOut_host (s : State) (f c : Nat) (v : Word) : (s.writeOut f c v).host = s.host := rfl
@[simp] theorem writeOut_provider (s : State) (f c : Nat) (v : Word) : (s.writeOut f c v).provider = s.provider := rfl
@[simp] theorem writeOut_races (s : State) (f c : Nat) (v : Word) : (s.writeOut f c v).races = s.races := rfl
@[simp] theorem writeOut_responses (s : State) (f c : Nat) (v : Word) : (s.writeOut f c v).responses = s.responses := rfl
@[simp] theorem writeOut_events (s : State) (f c : Nat) (v : Word) : (s.writeOut f c v).events = s.events := rfl
@[simp] theorem writeOut_histEpoch (s : State) (f c : Nat) (v : Word) : (s.writeOut f c v).histEpoch = s.histEpoch := rfl
@[simp] theorem writeOut_observed (s : State) (f c : Nat) (v : Word) : (s.writeOut f c v).observed = s.observed := rfl

/-! #### writeHist -/

@[simp] theorem writeHist_params (s : State) (i : Nat) (v : Sample) : (s.writeHist i v).params = s.params := rfl
@[simp] theorem writeHist_regs (s : State) (i : Nat) (v : Sample) : (s.writeHist i v).regs = s.regs := rfl
@[simp] theorem writeHist_inp (s : State) (i : Nat) (v : Sample) : (s.writeHist i v).inp = s.inp := rfl
@[simp] theorem writeHist_out (s : State) (i : Nat) (v : Sample) : (s.writeHist i v).out = s.out := rfl
@[simp] theorem writeHist_hist (s : State) (i : Nat) (v : Sample) : (s.writeHist i v).hist = s.hist.write i v := rfl
@[simp] theorem writeHist_acoef (s : State) (i : Nat) (v : Sample) : (s.writeHist i v).acoef = s.acoef := rfl
@[simp] theorem writeHist_scoef (s : State) (i : Nat) (v : Sample) : (s.writeHist i v).scoef = s.scoef := rfl
@[simp] theorem writeHist_waiting (s : State) (i : Nat) (v : Sample) : (s.writeHist i v).waiting = s.waiting := rfl
@[simp] theorem writeHist_host (s : State) (i : Nat) (v : Sample) : (s.writeHist i v).host = s.host := rfl
@[simp] theorem writeHist_provider (s : State) (i : Nat) (v : Sample) : (s.writeHist i v).provider = s.provider := rfl
@[simp] theorem writeHist_races (s : State) (i : Nat) (v : Sample) : (s.writeHist i v).races = s.races := rfl
@[simp] theorem writeHist_responses (s : State) (i : Nat) (v : Sample) : (s.writeHist i v).responses = s.responses := rfl
@[simp] theorem writeHist_events (s : State) (i : Nat) (v : Sample) : (s.writeHist i v).events = s.events := rfl
@[simp] theorem writeHist_histEpoch (s : State) (i : Nat) (v : Sample) : (s.writeHist i v).histEpoch = s.histEpoch := rfl
@[simp] theorem writeHist_observed (s : State) (i : Nat) (v : Sample) : (s.writeHist i v).observed = s.observed := rfl

/-! #### releaseHeld -/

@[simp] theorem releaseHeld_params (s : State) : (releaseHeld s).params = s.params := rfl
@[simp] theorem releaseHeld_regs (s : State) : (releaseHeld s).regs = s.regs.dropHeld := rfl
@[simp] theorem releaseHeld_inp (s : State) : (releaseHeld s).inp = s.inp := rfl
@[simp] theorem releaseHeld_out (s : State) : (releaseHeld s).out = s.out := rfl
@[simp] theorem releaseHeld_hist (s : State) : (releaseHeld s).hist = s.hist := rfl
@[simp] theorem releaseHeld_acoef (s : State) : (releaseHeld s).acoef = s.acoef := rfl
@[simp] theorem releaseHeld_scoef (s : State) : (releaseHeld s).scoef = s.scoef := rfl
@[simp] theorem releaseHeld_waiting (s : State) : (releaseHeld s).waiting = s.waiting := rfl
@[simp] theorem releaseHeld_host (s : State) : (releaseHeld s).host = s.host := rfl
@[simp] theorem releaseHeld_provider (s : State) : (releaseHeld s).provider = s.provider := rfl
@[simp] theorem releaseHeld_races (s : State) : (releaseHeld s).races = s.races := rfl
@[simp] theorem releaseHeld_responses (s : State) : (releaseHeld s).responses = s.responses := rfl
@[simp] theorem releaseHeld_events (s : State) : (releaseHeld s).events = s.events ++ [.releaseBuffer s.heldBlock] := rfl
@[simp] theorem releaseHeld_histEpoch (s : State) : (releaseHeld s).histEpoch = s.histEpoch := rfl
@[simp] theorem releaseHeld_observed (s : State) : (releaseHeld s).observed = s.observed := rfl

/-! #### holdBlock -/

@[simp] theorem holdBlock_params (d : Descriptor) (s : State) : (holdBlock d s).params = s.params := rfl
@[simp] theorem holdBlock_regs (d : Descriptor) (s : State) : (holdBlock d s).regs = { s.regs with held := true, heldBase := d.base, heldFrames := d.frames, inputIndex := 0 } := rfl
@[simp] theorem holdBlock_inp (d : Descriptor) (s : State) : (holdBlock d s).inp = s.inp := rfl
@[simp] theorem holdBlock_out (d : Descriptor) (s : State) : (holdBlock d s).out = s.out := rfl
@[simp] theorem holdBlock_hist (d : Descriptor) (s : State) : (holdBlock d s).hist = s.hist := rfl
@[simp] theorem holdBlock_acoef (d : Descriptor) (s : State) : (holdBlock d s).acoef = s.acoef := rfl
@[simp] theorem holdBlock_scoef (d : Descriptor) (s : State) : (holdBlock d s).scoef = s.scoef := rfl
@[simp] theorem holdBlock_waiting (d : Descriptor) (s : State) : (holdBlock d s).waiting = s.waiting := rfl
@[simp] theorem holdBlock_host (d : Descriptor) (s : State) : (holdBlock d s).host = s.host := rfl
@[simp] theorem holdBlock_provider (d : Descriptor) (s : State) : (holdBlock d s).provider = s.provider := rfl
@[simp] theorem holdBlock_races (d : Descriptor) (s : State) : (holdBlock d s).races = s.races := rfl
@[simp] theorem holdBlock_responses (d : Descriptor) (s : State) : (holdBlock d s).responses = s.responses := rfl
@[simp] theorem holdBlock_events (d : Descriptor) (s : State) : (holdBlock d s).events = s.events := rfl
@[simp] theorem holdBlock_histEpoch (d : Descriptor) (s : State) : (holdBlock d s).histEpoch = s.histEpoch := rfl
@[simp] theorem holdBlock_observed (d : Descriptor) (s : State) : (holdBlock d s).observed = s.observed := rfl

/-! #### finishResample -/

@[simp] theorem finishResample_params (n k : Nat) (s : State) : (finishResample n k s).params = s.params := rfl
@[simp] theorem finishResample_regs (n k : Nat) (s : State) : (finishResample n k s).regs = { s.regs with result := BitVec.ofNat 32 k, short := decide (k < n) } := rfl
@[simp] theorem finishResample_inp (n k : Nat) (s : State) : (finishResample n k s).inp = s.inp := rfl
@[simp] theorem finishResample_out (n k : Nat) (s : State) : (finishResample n k s).out = s.out := rfl
@[simp] theorem finishResample_hist (n k : Nat) (s : State) : (finishResample n k s).hist = s.hist := rfl
@[simp] theorem finishResample_acoef (n k : Nat) (s : State) : (finishResample n k s).acoef = s.acoef := rfl
@[simp] theorem finishResample_scoef (n k : Nat) (s : State) : (finishResample n k s).scoef = s.scoef := rfl
@[simp] theorem finishResample_waiting (n k : Nat) (s : State) : (finishResample n k s).waiting = s.waiting := rfl
@[simp] theorem finishResample_host (n k : Nat) (s : State) : (finishResample n k s).host = s.host := rfl
@[simp] theorem finishResample_provider (n k : Nat) (s : State) : (finishResample n k s).provider = s.provider := rfl
@[simp] theorem finishResample_races (n k : Nat) (s : State) : (finishResample n k s).races = s.races := rfl
@[simp] theorem finishResample_responses (n k : Nat) (s : State) : (finishResample n k s).responses = s.responses ++ [⟨.ok, BitVec.ofNat 32 k⟩] := rfl
@[simp] theorem finishResample_events (n k : Nat) (s : State) : (finishResample n k s).events = s.events := rfl
@[simp] theorem finishResample_histEpoch (n k : Nat) (s : State) : (finishResample n k s).histEpoch = s.histEpoch := rfl
@[simp] theorem finishResample_observed (n k : Nat) (s : State) : (finishResample n k s).observed = s.observed := rfl

/-! #### raiseFault -/

@[simp] theorem raiseFault_params (cause : FaultCause) (k : Nat) (s : State) : (raiseFault cause k s).params = s.params := rfl
@[simp] theorem raiseFault_regs (cause : FaultCause) (k : Nat) (s : State) : (raiseFault cause k s).regs = { s.regs with
        state := .fault, faultCause := cause, result := BitVec.ofNat 32 k, short := true, lastErr := .errFault } := rfl
@[simp] theorem raiseFault_inp (cause : FaultCause) (k : Nat) (s : State) : (raiseFault cause k s).inp = s.inp := rfl
@[simp] theorem raiseFault_out (cause : FaultCause) (k : Nat) (s : State) : (raiseFault cause k s).out = s.out := rfl
@[simp] theorem raiseFault_hist (cause : FaultCause) (k : Nat) (s : State) : (raiseFault cause k s).hist = s.hist := rfl
@[simp] theorem raiseFault_acoef (cause : FaultCause) (k : Nat) (s : State) : (raiseFault cause k s).acoef = s.acoef := rfl
@[simp] theorem raiseFault_scoef (cause : FaultCause) (k : Nat) (s : State) : (raiseFault cause k s).scoef = s.scoef := rfl
@[simp] theorem raiseFault_waiting (cause : FaultCause) (k : Nat) (s : State) : (raiseFault cause k s).waiting = s.waiting := rfl
@[simp] theorem raiseFault_host (cause : FaultCause) (k : Nat) (s : State) : (raiseFault cause k s).host = s.host := rfl
@[simp] theorem raiseFault_provider (cause : FaultCause) (k : Nat) (s : State) : (raiseFault cause k s).provider = s.provider := rfl
@[simp] theorem raiseFault_races (cause : FaultCause) (k : Nat) (s : State) : (raiseFault cause k s).races = s.races := rfl
@[simp] theorem raiseFault_responses (cause : FaultCause) (k : Nat) (s : State) : (raiseFault cause k s).responses = s.responses ++ [⟨.errFault, BitVec.ofNat 32 k⟩] := rfl
@[simp] theorem raiseFault_events (cause : FaultCause) (k : Nat) (s : State) : (raiseFault cause k s).events = s.events := rfl
@[simp] theorem raiseFault_histEpoch (cause : FaultCause) (k : Nat) (s : State) : (raiseFault cause k s).histEpoch = s.histEpoch := rfl
@[simp] theorem raiseFault_observed (cause : FaultCause) (k : Nat) (s : State) : (raiseFault cause k s).observed = s.observed := rfl

/-! #### pushPacket -/

@[simp] theorem pushPacket_params (p : Packet) (s : State) : (pushPacket p s).params = s.params := rfl
@[simp] theorem pushPacket_regs (p : Packet) (s : State) : (pushPacket p s).regs = s.regs := rfl
@[simp] theorem pushPacket_inp (p : Packet) (s : State) : (pushPacket p s).inp = s.inp := rfl
@[simp] theorem pushPacket_out (p : Packet) (s : State) : (pushPacket p s).out = s.out := rfl
@[simp] theorem pushPacket_hist (p : Packet) (s : State) : (pushPacket p s).hist = s.hist := rfl
@[simp] theorem pushPacket_acoef (p : Packet) (s : State) : (pushPacket p s).acoef = s.acoef := rfl
@[simp] theorem pushPacket_scoef (p : Packet) (s : State) : (pushPacket p s).scoef = s.scoef := rfl
@[simp] theorem pushPacket_waiting (p : Packet) (s : State) : (pushPacket p s).waiting = none := rfl
@[simp] theorem pushPacket_host (p : Packet) (s : State) : (pushPacket p s).host = .send p :: s.host := rfl
@[simp] theorem pushPacket_provider (p : Packet) (s : State) : (pushPacket p s).provider = s.provider := rfl
@[simp] theorem pushPacket_races (p : Packet) (s : State) : (pushPacket p s).races = s.races := rfl
@[simp] theorem pushPacket_responses (p : Packet) (s : State) : (pushPacket p s).responses = s.responses := rfl
@[simp] theorem pushPacket_events (p : Packet) (s : State) : (pushPacket p s).events = s.events := rfl
@[simp] theorem pushPacket_histEpoch (p : Packet) (s : State) : (pushPacket p s).histEpoch = s.histEpoch := rfl
@[simp] theorem pushPacket_observed (p : Packet) (s : State) : (pushPacket p s).observed = s.observed := rfl

/-! #### resetActions -/

@[simp] theorem resetActions_params (s : State) : (resetActions s).params = s.params := by
  unfold resetActions; split <;> rfl
@[simp] theorem resetActions_inp (s : State) : (resetActions s).inp = s.inp := by
  unfold resetActions; split <;> rfl
@[simp] theorem resetActions_out (s : State) : (resetActions s).out = s.out := by
  unfold resetActions; split <;> rfl
@[simp] theorem resetActions_hist (s : State) : (resetActions s).hist = s.hist := by
  unfold resetActions; split <;> rfl
@[simp] theorem resetActions_acoef (s : State) : (resetActions s).acoef = s.acoef := by
  unfold resetActions; split <;> rfl
@[simp] theorem resetActions_scoef (s : State) : (resetActions s).scoef = s.scoef := by
  unfold resetActions; split <;> rfl
@[simp] theorem resetActions_waiting (s : State) : (resetActions s).waiting = s.waiting := by
  unfold resetActions; split <;> rfl
@[simp] theorem resetActions_host (s : State) : (resetActions s).host = s.host := by
  unfold resetActions; split <;> rfl
@[simp] theorem resetActions_provider (s : State) : (resetActions s).provider = s.provider := by
  unfold resetActions; split <;> rfl
@[simp] theorem resetActions_races (s : State) : (resetActions s).races = s.races := by
  unfold resetActions; split <;> rfl
@[simp] theorem resetActions_responses (s : State) : (resetActions s).responses = s.responses := by
  unfold resetActions; split <;> rfl
@[simp] theorem resetActions_regs (s : State) : (resetActions s).regs = s.regs.resetActions := by
  unfold resetActions; split <;> rfl
@[simp] theorem resetActions_histEpoch (s : State) : (resetActions s).histEpoch = s.histEpoch + 1 := by
  unfold resetActions; split <;> rfl
@[simp] theorem resetActions_observed (s : State) : (resetActions s).observed = s.observed := by
  unfold resetActions; split <;> rfl
theorem resetActions_events (s : State) :
    (resetActions s).events = if s.regs.held then s.events ++ [.releaseBuffer s.heldBlock] else s.events := by
  unfold resetActions; split <;> rfl

end Sys2Proof.Machine
end

