-- ==== Sys2Proof/Laws/Ops.lean ====
section
/-! SUPPORT. For each shared operation over memories and agents one lemma that says which fields of State it keeps (a
conjunction that simp uses field by field), and induction lemmas for what it does to INP and OUT. -/

namespace Sys2Proof.Machine

/-! ### Moves of other agents -/

/-- Another agent's write changes INP and OUT only. -/
@[simp] theorem agentWrite_keeps (w : AgentWrite) (s : State) :
    (agentWrite w s).params = s.params ∧ (agentWrite w s).regs = s.regs ∧ (agentWrite w s).hist = s.hist ∧
      (agentWrite w s).acoef = s.acoef ∧ (agentWrite w s).scoef = s.scoef ∧ (agentWrite w s).waiting = s.waiting ∧
      (agentWrite w s).host = s.host ∧ (agentWrite w s).provider = s.provider ∧ (agentWrite w s).races = s.races ∧
      (agentWrite w s).responses = s.responses ∧ (agentWrite w s).events = s.events ∧
      (agentWrite w s).observed = s.observed ∧
      (agentWrite w s).histEpoch = s.histEpoch := by
  unfold agentWrite
  split
  · cases w <;> simp
  · simp

/-- Another agent's read changes nothing but what was observed (R85). -/
@[simp] theorem agentRead_keeps (r : AgentRead) (s : State) :
    (agentRead r s).params = s.params ∧ (agentRead r s).regs = s.regs ∧ (agentRead r s).inp = s.inp ∧
      (agentRead r s).out = s.out ∧ (agentRead r s).hist = s.hist ∧ (agentRead r s).acoef = s.acoef ∧
      (agentRead r s).scoef = s.scoef ∧ (agentRead r s).waiting = s.waiting ∧ (agentRead r s).host = s.host ∧
      (agentRead r s).provider = s.provider ∧ (agentRead r s).races = s.races ∧
      (agentRead r s).responses = s.responses ∧ (agentRead r s).events = s.events ∧
      (agentRead r s).histEpoch = s.histEpoch := by
  unfold agentRead
  split <;> simp

@[simp] theorem agentAccess_keeps (a : AgentAccess) (s : State) :
    (agentAccess a s).params = s.params ∧ (agentAccess a s).regs = s.regs ∧ (agentAccess a s).hist = s.hist ∧
      (agentAccess a s).acoef = s.acoef ∧ (agentAccess a s).scoef = s.scoef ∧
      (agentAccess a s).waiting = s.waiting ∧ (agentAccess a s).host = s.host ∧
      (agentAccess a s).provider = s.provider ∧ (agentAccess a s).races = s.races ∧
      (agentAccess a s).responses = s.responses ∧ (agentAccess a s).events = s.events ∧
      (agentAccess a s).histEpoch = s.histEpoch := by
  cases a <;> simp [agentAccess]

@[simp] theorem agentAccesses_keeps (as : List AgentAccess) (s : State) :
    (agentAccesses as s).params = s.params ∧ (agentAccesses as s).regs = s.regs ∧
      (agentAccesses as s).hist = s.hist ∧ (agentAccesses as s).acoef = s.acoef ∧
      (agentAccesses as s).scoef = s.scoef ∧ (agentAccesses as s).waiting = s.waiting ∧
      (agentAccesses as s).host = s.host ∧ (agentAccesses as s).provider = s.provider ∧
      (agentAccesses as s).races = s.races ∧ (agentAccesses as s).responses = s.responses ∧
      (agentAccesses as s).events = s.events ∧ (agentAccesses as s).histEpoch = s.histEpoch := by
  induction as generalizing s with
  | nil => simp [agentAccesses]
  | cons a rest ih => simpa [agentAccesses] using ih (agentAccess a s)

/-- The provider writes INP only. -/
@[simp] theorem providerWrites_keeps (ws : List (Nat × Sample)) (s : State) :
    (providerWrites ws s).params = s.params ∧ (providerWrites ws s).regs = s.regs ∧
      (providerWrites ws s).out = s.out ∧ (providerWrites ws s).hist = s.hist ∧
      (providerWrites ws s).acoef = s.acoef ∧ (providerWrites ws s).scoef = s.scoef ∧
      (providerWrites ws s).waiting = s.waiting ∧ (providerWrites ws s).host = s.host ∧
      (providerWrites ws s).provider = s.provider ∧ (providerWrites ws s).races = s.races ∧
      (providerWrites ws s).responses = s.responses ∧ (providerWrites ws s).events = s.events ∧
      (providerWrites ws s).observed = s.observed ∧
      (providerWrites ws s).histEpoch = s.histEpoch := by
  induction ws generalizing s with
  | nil => simp [providerWrites]
  | cons w rest ih =>
    have h : (agentWrite (.inp w.1 w.2) s).out = s.out := by unfold agentWrite; split <;> rfl
    simpa [providerWrites, h] using ih (agentWrite (.inp w.1 w.2) s)

/-- The other agents' moves change INP, OUT, the coming moves and what was observed, nothing else. -/
@[simp] theorem agentsMove_keeps (s : State) :
    (agentsMove s).params = s.params ∧ (agentsMove s).regs = s.regs ∧ (agentsMove s).hist = s.hist ∧
      (agentsMove s).acoef = s.acoef ∧ (agentsMove s).scoef = s.scoef ∧ (agentsMove s).waiting = s.waiting ∧
      (agentsMove s).host = s.host ∧ (agentsMove s).provider = s.provider ∧ (agentsMove s).responses = s.responses ∧
      (agentsMove s).events = s.events ∧ (agentsMove s).histEpoch = s.histEpoch := by
  unfold agentsMove
  split <;> simp

/-- With no moves to come nothing changes. -/
theorem agentsMove_raceFree {s : State} (h : s.races = []) : agentsMove s = s := by
  unfold agentsMove; rw [h]

/-- Accesses of other agents neither read nor write the provider port: they commute with a change of it. -/
theorem agentAccesses_port (as : List AgentAccess) (s : State) (p : List ProviderAnswer) (w : Option Waiting)
    (ev : List PortEvent) :
    agentAccesses as { s with provider := p, waiting := w, events := ev } =
      { agentAccesses as s with provider := p, waiting := w, events := ev } := by
  induction as generalizing s with
  | nil => rfl
  | cons a rest ih =>
    have h : agentAccess a { s with provider := p, waiting := w, events := ev } =
        { agentAccess a s with provider := p, waiting := w, events := ev } := by
      cases a with
      | read r => simp only [agentAccess, agentRead]; split <;> rfl
      | write x => simp only [agentAccess, agentWrite]; split <;> (cases x <;> rfl)
    simp only [agentAccesses]
    rw [h, ih]

/-- The other agents' moves commute with a change of the provider port. -/
theorem agentsMove_port (s : State) (p : List ProviderAnswer) (w : Option Waiting) (ev : List PortEvent) :
    agentsMove { s with provider := p, waiting := w, events := ev } =
      { agentsMove s with provider := p, waiting := w, events := ev } := by
  unfold agentsMove
  dsimp only
  split
  · rfl
  · rename_i batch rest _
    exact agentAccesses_port batch { s with races := rest } p w ev

/-- Two lists of the provider's writes, one after the other. -/
theorem providerWrites_append (ws vs : List (Nat × Sample)) (s : State) :
    providerWrites (ws ++ vs) s = providerWrites vs (providerWrites ws s) := by
  induction ws generalizing s with
  | nil => rfl
  | cons w rest ih => exact ih (agentWrite (.inp w.1 w.2) s)

/-- What every write in range keeps true of INP stays true under another agent's accesses. -/
theorem agentAccesses_inp_induct (P : Mem 16 → Prop) {p : Params}
    (hw : ∀ m i v, i < p.inpWords → P m → P (m.write i v)) (as : List AgentAccess) (s : State) (hp : s.params = p)
    (h : P s.inp) : P (agentAccesses as s).inp := by
  induction as generalizing s with
  | nil => exact h
  | cons a rest ih =>
    refine ih (agentAccess a s) (by simp [hp]) ?_
    cases a with
    | read r => simpa [agentAccess] using h
    | write w =>
      unfold agentAccess agentWrite
      dsimp only
      split
      · rename_i hr
        cases w with
        | inp i v =>
          have hi : i < s.params.inpWords := by simpa [AgentWrite.inRange] using hr
          exact hw _ _ _ (hp ▸ hi) h
        | out f c v => exact h
      · exact h

/-- The same for OUT, whose elements are 2 · OUT_FRAMES. -/
theorem agentAccesses_out_induct (P : Mem 32 → Prop) {p : Params}
    (hw : ∀ m i v, i < 2 * p.outFrames → P m → P (m.write i v)) (as : List AgentAccess) (s : State) (hp : s.params = p)
    (h : P s.out) : P (agentAccesses as s).out := by
  induction as generalizing s with
  | nil => exact h
  | cons a rest ih =>
    refine ih (agentAccess a s) (by simp [hp]) ?_
    cases a with
    | read r => simpa [agentAccess] using h
    | write w =>
      unfold agentAccess agentWrite
      dsimp only
      split
      · rename_i hr
        cases w with
        | inp i v => exact h
        | out f c v =>
          have hi : f < s.params.outFrames ∧ c < 2 := by simpa [AgentWrite.inRange] using hr
          refine hw _ _ _ ?_ h
          rw [← hp]; unfold outIndex; omega
      · exact h

theorem agentsMove_inp_induct (P : Mem 16 → Prop) (s : State)
    (hw : ∀ m i v, i < s.params.inpWords → P m → P (m.write i v)) (h : P s.inp) : P (agentsMove s).inp := by
  unfold agentsMove
  split
  · exact h
  · exact agentAccesses_inp_induct P hw _ _ rfl h

theorem agentsMove_out_induct (P : Mem 32 → Prop) (s : State)
    (hw : ∀ m i v, i < 2 * s.params.outFrames → P m → P (m.write i v)) (h : P s.out) : P (agentsMove s).out := by
  unfold agentsMove
  split
  · exact h
  · exact agentAccesses_out_induct P hw _ _ rfl h

theorem providerWrites_inp_induct (P : Mem 16 → Prop) {p : Params}
    (hw : ∀ m i v, i < p.inpWords → P m → P (m.write i v)) (ws : List (Nat × Sample)) (s : State) (hp : s.params = p)
    (h : P s.inp) : P (providerWrites ws s).inp := by
  induction ws generalizing s with
  | nil => exact h
  | cons w rest ih =>
    refine ih (agentWrite (.inp w.1 w.2) s) (by simp [hp]) ?_
    unfold agentWrite
    split
    · rename_i hr
      have hi : w.1 < s.params.inpWords := by simpa [AgentWrite.inRange] using hr
      exact hw _ _ _ (hp ▸ hi) h
    · exact h

/-! ### The ring buffer -/

@[simp] theorem stageChannel_keeps (c : Nat) (s : State) :
    (stageChannel c s).params = s.params ∧ (stageChannel c s).regs = s.regs ∧ (stageChannel c s).acoef = s.acoef ∧
      (stageChannel c s).scoef = s.scoef ∧ (stageChannel c s).waiting = s.waiting ∧
      (stageChannel c s).host = s.host ∧ (stageChannel c s).provider = s.provider ∧
      (stageChannel c s).responses = s.responses ∧ (stageChannel c s).events = s.events ∧
      (stageChannel c s).histEpoch = s.histEpoch := by
  simp [stageChannel]

@[simp] theorem forUp_stageChannel_keeps (n : Nat) (s : State) :
    (forUp n stageChannel s).params = s.params ∧ (forUp n stageChannel s).regs = s.regs ∧
      (forUp n stageChannel s).acoef = s.acoef ∧ (forUp n stageChannel s).scoef = s.scoef ∧
      (forUp n stageChannel s).waiting = s.waiting ∧ (forUp n stageChannel s).host = s.host ∧
      (forUp n stageChannel s).provider = s.provider ∧ (forUp n stageChannel s).responses = s.responses ∧
      (forUp n stageChannel s).events = s.events ∧ (forUp n stageChannel s).histEpoch = s.histEpoch := by
  induction n with
  | zero => simp [forUp]
  | succ m ih => simpa [forUp] using ih

/-- RB_READ_AGAIN writes no register and, of the block's own memories, HIST only (R207). -/
@[simp] theorem readAgain_keeps (s : State) :
    (readAgain s).params = s.params ∧ (readAgain s).regs = s.regs ∧ (readAgain s).acoef = s.acoef ∧
      (readAgain s).scoef = s.scoef ∧ (readAgain s).waiting = s.waiting ∧ (readAgain s).host = s.host ∧
      (readAgain s).provider = s.provider ∧ (readAgain s).responses = s.responses ∧ (readAgain s).events = s.events ∧
      (readAgain s).histEpoch = s.histEpoch := by
  unfold readAgain
  exact forUp_stageChannel_keeps _ _

@[simp] theorem compact_keeps (s : State) :
    (compact s).params = s.params ∧ (compact s).inp = s.inp ∧ (compact s).out = s.out ∧ (compact s).acoef = s.acoef ∧
      (compact s).scoef = s.scoef ∧ (compact s).waiting = s.waiting ∧ (compact s).host = s.host ∧
      (compact s).provider = s.provider ∧ (compact s).races = s.races ∧ (compact s).responses = s.responses ∧
      (compact s).events = s.events ∧ (compact s).observed = s.observed ∧
      (compact s).histEpoch = s.histEpoch := by
  simp [compact]

@[simp] theorem advanceImpulse_keeps (s : State) :
    (advanceImpulse s).params = s.params ∧ (advanceImpulse s).inp = s.inp ∧ (advanceImpulse s).out = s.out ∧
      (advanceImpulse s).acoef = s.acoef ∧ (advanceImpulse s).scoef = s.scoef ∧
      (advanceImpulse s).waiting = s.waiting ∧ (advanceImpulse s).host = s.host ∧
      (advanceImpulse s).provider = s.provider ∧ (advanceImpulse s).races = s.races ∧
      (advanceImpulse s).responses = s.responses ∧ (advanceImpulse s).events = s.events ∧
      (advanceImpulse s).observed = s.observed ∧
      (advanceImpulse s).histEpoch = s.histEpoch := by
  unfold advanceImpulse
  dsimp only
  split <;> simp

/-- RB_READ_ADVANCE writes HIST and IMPULSE (R208). -/
@[simp] theorem readAdvance_keeps (s : State) :
    (readAdvance s).params = s.params ∧ (readAdvance s).acoef = s.acoef ∧ (readAdvance s).scoef = s.scoef ∧
      (readAdvance s).waiting = s.waiting ∧ (readAdvance s).host = s.host ∧ (readAdvance s).provider = s.provider ∧
      (readAdvance s).responses = s.responses ∧ (readAdvance s).events = s.events ∧
      (readAdvance s).histEpoch = s.histEpoch := by
  simp [readAdvance]

/-- IMPULSE is the one register that RB_READ_ADVANCE writes. -/
theorem advanceImpulse_regs (s : State) :
    (advanceImpulse s).regs = { s.regs with impulse := (advanceImpulse s).regs.impulse } := by
  unfold advanceImpulse
  dsimp only
  split <;> simp [compact]

theorem readAdvance_regs (s : State) :
    (readAdvance s).regs = { s.regs with impulse := (readAdvance s).regs.impulse } := by
  simpa [readAdvance] using advanceImpulse_regs s

/-- RB_RESIZE writes HIST and the four registers of rule R202. -/
@[simp] theorem rbResize_keeps (hn : Nat) (s : State) :
    (rbResize hn s).params = s.params ∧ (rbResize hn s).inp = s.inp ∧ (rbResize hn s).out = s.out ∧
      (rbResize hn s).acoef = s.acoef ∧ (rbResize hn s).scoef = s.scoef ∧ (rbResize hn s).waiting = s.waiting ∧
      (rbResize hn s).host = s.host ∧ (rbResize hn s).provider = s.provider ∧ (rbResize hn s).races = s.races ∧
      (rbResize hn s).responses = s.responses ∧ (rbResize hn s).events = s.events ∧
      (rbResize hn s).observed = s.observed ∧
      (rbResize hn s).histEpoch = s.histEpoch := by
  unfold rbResize
  dsimp only
  split <;> simp

/-! ### One output frame -/

@[simp] theorem accumulate_keeps (f c : Nat) (term : Int) (s : State) :
    (accumulate f c term s).params = s.params ∧ (accumulate f c term s).regs = s.regs ∧
      (accumulate f c term s).hist = s.hist ∧ (accumulate f c term s).acoef = s.acoef ∧
      (accumulate f c term s).scoef = s.scoef ∧ (accumulate f c term s).waiting = s.waiting ∧
      (accumulate f c term s).host = s.host ∧ (accumulate f c term s).provider = s.provider ∧
      (accumulate f c term s).responses = s.responses ∧ (accumulate f c term s).events = s.events ∧
      (accumulate f c term s).histEpoch = s.histEpoch := by
  simp [accumulate]

@[simp] theorem volAccumulate_keeps (f : Nat) (acc0 acc1 : Int) (s : State) :
    (volAccumulate f acc0 acc1 s).params = s.params ∧ (volAccumulate f acc0 acc1 s).regs = s.regs ∧
      (volAccumulate f acc0 acc1 s).hist = s.hist ∧ (volAccumulate f acc0 acc1 s).acoef = s.acoef ∧
      (volAccumulate f acc0 acc1 s).scoef = s.scoef ∧ (volAccumulate f acc0 acc1 s).waiting = s.waiting ∧
      (volAccumulate f acc0 acc1 s).host = s.host ∧ (volAccumulate f acc0 acc1 s).provider = s.provider ∧
      (volAccumulate f acc0 acc1 s).responses = s.responses ∧ (volAccumulate f acc0 acc1 s).events = s.events ∧
      (volAccumulate f acc0 acc1 s).histEpoch = s.histEpoch := by
  simp [volAccumulate]

/-- A produced frame changes OUT only, but for other agents' moves (R247). -/
@[simp] theorem produceOneFrame_keeps (f : Nat) (s : State) :
    (produceOneFrame f s).params = s.params ∧ (produceOneFrame f s).regs = s.regs ∧
      (produceOneFrame f s).hist = s.hist ∧ (produceOneFrame f s).acoef = s.acoef ∧
      (produceOneFrame f s).scoef = s.scoef ∧ (produceOneFrame f s).waiting = s.waiting ∧
      (produceOneFrame f s).host = s.host ∧ (produceOneFrame f s).provider = s.provider ∧
      (produceOneFrame f s).responses = s.responses ∧ (produceOneFrame f s).events = s.events ∧
      (produceOneFrame f s).histEpoch = s.histEpoch := by
  simp [produceOneFrame]

/-! ### One owed input frame -/

/-- Consuming a frame writes HIST, registers and perhaps one release (R302, R303). -/
@[simp] theorem consumeFrame_keeps (s : State) :
    (consumeFrame s).params = s.params ∧ (consumeFrame s).acoef = s.acoef ∧ (consumeFrame s).scoef = s.scoef ∧
      (consumeFrame s).waiting = s.waiting ∧ (consumeFrame s).host = s.host ∧
      (consumeFrame s).provider = s.provider ∧ (consumeFrame s).responses = s.responses ∧
      (consumeFrame s).histEpoch = s.histEpoch := by
  unfold consumeFrame
  dsimp only
  split <;> simp

end Sys2Proof.Machine
end

