-- ==== Sys2Proof/Laws/Resample.lean ====
section
/-! SUPPORT. RESAMPLE's loop, packaged once: what every piece of the loop keeps holds when the command ends or waits. -/

namespace Sys2Proof.Machine

/-! ### The pieces -/

/-- Consuming a frame changes IMPULSE, INPUT_INDEX and PENDING, and the provider registers at a release (R302, R303). -/
theorem consumeFrame_regs (s : State) :
    (consumeFrame s).regs =
      let r := { s.regs with impulse := (readAdvance s).regs.impulse, inputIndex := s.regs.inputIndex + 1
                             pending := s.regs.pending - 1 }
      if s.regs.inputIndex + 1 = s.regs.heldFrames then r.dropHeld else r := by
  have hr := readAdvance_regs s
  generalize hi : (readAdvance s).regs.impulse = imp at hr ⊢
  unfold consumeFrame
  simp only [hr, Regs.countInput]
  split <;> simp

/-- The release of a used-up block is the one event of a consumed frame (R303). -/
theorem consumeFrame_events (s : State) :
    (consumeFrame s).events =
      if s.regs.inputIndex + 1 = s.regs.heldFrames then s.events ++ [.releaseBuffer s.heldBlock] else s.events := by
  have hr := readAdvance_regs s
  generalize hi : (readAdvance s).regs.impulse = imp at hr
  unfold consumeFrame
  simp only [hr, Regs.countInput]
  split <;> simp [State.heldBlock]

@[simp] theorem consumeFrame_pending (s : State) : (consumeFrame s).regs.pending = s.regs.pending - 1 := by
  rw [consumeFrame_regs]
  dsimp only
  split <;> rfl

@[simp] theorem holdBlock_pending (d : Descriptor) (s : State) : (holdBlock d s).regs.pending = s.regs.pending := rfl

theorem pred_toNat {p : Word} {m : Nat} (h : p.toNat = m + 1) : (p - 1).toNat = m := by
  have := p.isLt
  rw [BitVec.toNat_sub]
  simp
  omega

/-- The state after one round's frame and phase step, the other agents' moves after it made. -/
def produced (f : Nat) (s : State) : State :=
  { agentsMove (produceOneFrame f s) with regs := s.regs.phaseStep }

theorem resampleFrame_eq (n base k : Nat) (s : State) :
    resampleFrame n base k s =
      match consumeOwed n base k s.regs.pending.toNat s with
      | .stop t => .stop t
      | .go t => .go (produced (base + k) t) := by
  unfold resampleFrame produced
  cases consumeOwed n base k s.regs.pending.toNat s <;> simp

/-- With a block held the next owed frame is consumed (R302). -/
theorem consumeOwed_held {n base k m : Nat} {s : State} (h : s.regs.held = true) :
    consumeOwed n base k (m + 1) s = consumeOwed n base k m (consumeFrame s) := by
  rw [consumeOwed, if_pos h]

/-- With none held the provider is asked first (R302). -/
theorem consumeOwed_pull {n base k m : Nat} {s : State} (h : s.regs.held = false) :
    consumeOwed n base k (m + 1) s =
      match pullBlock n base k s with
      | .stop t => .stop t
      | .go t => consumeOwed n base k m (consumeFrame t) := by
  have hn : ¬ s.regs.held = true := by simp [h]
  exact if_neg hn

/-- One round of the loop: the owed input, the frame, the rest (R300). -/
theorem resampleLoop_succ (n base m : Nat) (s : State) :
    resampleLoop n base (m + 1) s =
      match consumeOwed n base (n - (m + 1)) s.regs.pending.toNat s with
      | .stop t => t
      | .go t => resampleLoop n base m (produced (base + (n - (m + 1))) t) := by
  rw [resampleLoop, resampleFrame_eq]
  generalize consumeOwed n base (n - (m + 1)) s.regs.pending.toNat s = f
  cases f <;> rfl

/-- The state in which the provider's answer `a` has arrived, `rest` still to come (R92), and other agents have moved. -/
def afterAnswer (a : ProviderAnswer) (rest : List ProviderAnswer) (s : State) : State :=
  agentsMove (providerWrites a.writes { s with provider := rest, waiting := none })

/-- All that the provider's answer can do (R92, R300, R305, R306). -/
theorem receiveAnswer_cases (n base k : Nat) (s : State) :
    (s.provider = [] ∧ receiveAnswer n base k s = .stop { s with waiting := some ⟨n, base, k⟩ }) ∨
    ∃ a rest t, s.provider = a :: rest ∧ t = afterAnswer a rest s ∧
      (((a.block = none ∨ ∃ d, a.block = some d ∧ d.frames = 0) ∧
          receiveAnswer n base k s = .stop (finishResample n k t)) ∨
       (∃ d, a.block = some d ∧ d.frames ≠ 0 ∧ descriptorOutOfRange t d = true ∧
          receiveAnswer n base k s = .stop (raiseFault .providerRange k t)) ∨
       (∃ d, a.block = some d ∧ d.frames ≠ 0 ∧ descriptorOutOfRange t d = false ∧
          receiveAnswer n base k s = .go (holdBlock d t))) := by
  rcases hp : s.provider with _ | ⟨a, rest⟩
  · exact .inl ⟨rfl, by simp [receiveAnswer, hp]⟩
  · have hr : receiveAnswer n base k s =
        takeBlock n k a.block (afterAnswer a rest s) := by
      rw [receiveAnswer, hp]; rfl
    refine .inr ⟨a, rest, _, rfl, rfl, ?_⟩
    generalize afterAnswer a rest s = t at hr ⊢
    rw [hr]
    unfold takeBlock
    rcases hb : a.block with _ | d
    · exact .inl ⟨.inl rfl, rfl⟩
    · dsimp only
      by_cases h0 : d.frames = 0
      · exact .inl ⟨.inr ⟨d, rfl, h0⟩, by rw [if_pos h0]⟩
      · rw [if_neg h0]
        cases ho : descriptorOutOfRange t d
        · exact .inr (.inr ⟨d, rfl, h0, ho, by simp⟩)
        · exact .inr (.inl ⟨d, rfl, h0, ho, by simp⟩)

/-! ### Induction over the loop -/

/-- What each piece of the loop of rule R300 must keep: `P k s` holds in round k, `A k s` while round k's request has no answer
yet, `Q` when the command ends or waits. -/
structure LoopRule (n base : Nat) (P A : Nat → State → Prop) (Q : State → Prop) : Prop where
  request : ∀ k s, k < n → P k s → s.regs.held = false → 0 < s.regs.pending.toNat →
    A k (agentsMove (portEvent (.getNextBuffer (hint n k s.regs)) s))
  wait : ∀ k s, k < n → A k s → s.regs.held = false → 0 < s.regs.pending.toNat → s.provider = [] →
    Q { s with waiting := some ⟨n, base, k⟩ }
  short : ∀ k s a rest, k < n → A k s → s.regs.held = false → 0 < s.regs.pending.toNat → s.provider = a :: rest →
    (a.block = none ∨ ∃ d, a.block = some d ∧ d.frames = 0) → Q (finishResample n k (afterAnswer a rest s))
  bad : ∀ k s a rest d, k < n → A k s → s.regs.held = false → 0 < s.regs.pending.toNat → s.provider = a :: rest →
    a.block = some d → d.frames ≠ 0 → descriptorOutOfRange s d = true →
    Q (raiseFault .providerRange k (afterAnswer a rest s))
  hold : ∀ k s a rest d, k < n → A k s → s.regs.held = false → 0 < s.regs.pending.toNat → s.provider = a :: rest →
    a.block = some d → d.frames ≠ 0 → descriptorOutOfRange s d = false → P k (holdBlock d (afterAnswer a rest s))
  consume : ∀ k s, k < n → P k s → s.regs.held = true → 0 < s.regs.pending.toNat → P k (consumeFrame s)
  produce : ∀ k s, k < n → P k s → s.regs.pending = 0 → P (k + 1) (produced (base + k) s)
  done : ∀ s, P n s → Q (finishResample n n s)

/-- An answer and the moves after it change INP, OUT and the channels, no register and no parameter. -/
theorem afterAnswer_keeps (a : ProviderAnswer) (rest : List ProviderAnswer) (s : State) :
    afterAnswer a rest s =
      { s with
        provider := rest, waiting := none, inp := (afterAnswer a rest s).inp, out := (afterAnswer a rest s).out
        races := (afterAnswer a rest s).races, observed := (afterAnswer a rest s).observed } := by
  have h := agentsMove_keeps (providerWrites a.writes { s with provider := rest, waiting := none })
  have h' := providerWrites_keeps a.writes { s with provider := rest, waiting := none }
  unfold afterAnswer
  cases hx : agentsMove (providerWrites a.writes { s with provider := rest, waiting := none })
  rw [hx] at h
  simp_all

/-- With no moves to come an answer is the provider's writes. -/
theorem afterAnswer_raceFree {s : State} (h : s.races = []) (a : ProviderAnswer) (rest : List ProviderAnswer) :
    afterAnswer a rest s = providerWrites a.writes { s with provider := rest, waiting := none } := by
  unfold afterAnswer
  exact agentsMove_raceFree (by simpa using h)

theorem descriptorOutOfRange_afterAnswer (a : ProviderAnswer) (rest : List ProviderAnswer) (s : State) (d : Descriptor) :
    descriptorOutOfRange (afterAnswer a rest s) d = descriptorOutOfRange s d := by
  rw [afterAnswer_keeps]; rfl

variable {n base : Nat} {P A : Nat → State → Prop} {Q : State → Prop}

/-- The rule where the arrival of an answer keeps `P` whatever the answer is. -/
theorem LoopRule.ofAnswered
    (request : ∀ k s, k < n → P k s → s.regs.held = false → 0 < s.regs.pending.toNat →
      P k (agentsMove (portEvent (.getNextBuffer (hint n k s.regs)) s)))
    (wait : ∀ k s, k < n → P k s → s.regs.held = false → 0 < s.regs.pending.toNat → s.provider = [] →
      Q { s with waiting := some ⟨n, base, k⟩ })
    (answered : ∀ k s a rest, k < n → P k s → s.regs.held = false → 0 < s.regs.pending.toNat →
      s.provider = a :: rest → P k (afterAnswer a rest s))
    (short : ∀ k s, k < n → P k s → s.regs.held = false → s.waiting = none → Q (finishResample n k s))
    (bad : ∀ k s d, k < n → P k s → s.regs.held = false → s.waiting = none → descriptorOutOfRange s d = true →
      Q (raiseFault .providerRange k s))
    (hold : ∀ k s d, k < n → P k s → s.regs.held = false → d.frames ≠ 0 → descriptorOutOfRange s d = false →
      P k (holdBlock d s))
    (consume : ∀ k s, k < n → P k s → s.regs.held = true → 0 < s.regs.pending.toNat → P k (consumeFrame s))
    (produce : ∀ k s, k < n → P k s → s.regs.pending = 0 → P (k + 1) (produced (base + k) s))
    (done : ∀ s, P n s → Q (finishResample n n s)) : LoopRule n base P P Q where
  request := request
  wait := wait
  short k s a rest hk hP hh hp he _ :=
    short k _ hk (answered k s a rest hk hP hh hp he) (by rw [afterAnswer_keeps]; exact hh) (by rw [afterAnswer_keeps])
  bad k s a rest d hk hP hh hp he _ _ hr :=
    bad k _ d hk (answered k s a rest hk hP hh hp he) (by rw [afterAnswer_keeps]; exact hh) (by rw [afterAnswer_keeps])
      (by rw [descriptorOutOfRange_afterAnswer]; exact hr)
  hold k s a rest d hk hP hh hp he _ h0 hr :=
    hold k _ d hk (answered k s a rest hk hP hh hp he) (by rw [afterAnswer_keeps]; exact hh) h0
      (by rw [descriptorOutOfRange_afterAnswer]; exact hr)
  consume := consume
  produce := produce
  done := done

/-- The provider's answer keeps the rule: the command goes on holding a block, or ends or waits. -/
theorem LoopRule.receive (H : LoopRule n base P A Q) {k : Nat} {s : State} (hk : k < n) (hA : A k s)
    (hh : s.regs.held = false) (hp : 0 < s.regs.pending.toNat) :
    match receiveAnswer n base k s with
    | .stop t => Q t
    | .go t => P k t ∧ t.regs.held = true ∧ t.regs.pending = s.regs.pending := by
  rcases receiveAnswer_cases n base k s with ⟨he, hr⟩ | ⟨a, rest, t, he, ht, hc⟩
  · rw [hr]
    exact H.wait k s hk hA hh hp he
  · subst ht
    rcases hc with ⟨hx, hr⟩ | ⟨d, hd, h0, ho, hr⟩ | ⟨d, hd, h0, ho, hr⟩ <;> rw [hr]
    · exact H.short k s a rest hk hA hh hp he hx
    · exact H.bad k s a rest d hk hA hh hp he hd h0 (by rw [← ho, descriptorOutOfRange_afterAnswer])
    · refine ⟨H.hold k s a rest d hk hA hh hp he hd h0 (by rw [← ho, descriptorOutOfRange_afterAnswer]), rfl, ?_⟩
      rw [holdBlock_pending, afterAnswer_keeps]

/-- `while PENDING > 0` keeps the rule, and ends with nothing owed. -/
theorem LoopRule.consumeOwed (H : LoopRule n base P A Q) {k : Nat} (hk : k < n) (owed : Nat) :
    ∀ s : State, P k s → s.regs.pending.toNat = owed →
      match consumeOwed n base k owed s with
      | .stop t => Q t
      | .go t => P k t ∧ t.regs.pending = 0 := by
  induction owed with
  | zero =>
    intro s hP h0
    exact ⟨hP, BitVec.eq_of_toNat_eq (by simpa using h0)⟩
  | succ m ih =>
    intro s hP hm
    have hpos : 0 < s.regs.pending.toNat := by omega
    unfold Machine.consumeOwed
    by_cases hh : s.regs.held = true
    · rw [if_pos hh]
      exact ih _ (H.consume k s hk hP hh hpos) (by simpa using pred_toNat hm)
    · have hh' : s.regs.held = false := by simpa using hh
      rw [if_neg hh]
      have hreq := H.request k s hk hP hh' hpos
      have hrec := H.receive hk hreq (by simpa using hh') (by simpa using hpos)
      unfold pullBlock
      generalize receiveAnswer n base k (agentsMove (portEvent (.getNextBuffer (hint n k s.regs)) s)) = f at hrec ⊢
      cases f with
      | stop t => exact hrec
      | go t =>
        obtain ⟨h1, h2, h3⟩ := hrec
        have hpt : t.regs.pending.toNat = m + 1 := by simpa [h3] using hm
        exact ih _ (H.consume k t hk h1 h2 (by omega)) (by simpa using pred_toNat hpt)

/-- The loop keeps the rule from any round on. -/
theorem LoopRule.loop (H : LoopRule n base P A Q) (left : Nat) :
    ∀ s : State, left ≤ n → P (n - left) s → Q (resampleLoop n base left s) := by
  induction left with
  | zero => intro s _ hP; exact H.done s (by simpa using hP)
  | succ m ih =>
    intro s hm hP
    have hk : n - (m + 1) < n := by omega
    have hc := H.consumeOwed hk s.regs.pending.toNat s hP rfl
    unfold resampleLoop
    rw [resampleFrame_eq]
    generalize Machine.consumeOwed n base (n - (m + 1)) s.regs.pending.toNat s = f at hc ⊢
    cases f with
    | stop t => exact hc
    | go t =>
      refine ih _ (by omega) ?_
      have := H.produce _ t hk hc.1 hc.2
      rwa [show n - (m + 1) + 1 = n - m by omega] at this

/-- The whole body of an accepted RESAMPLE. -/
theorem LoopRule.body (H : LoopRule n base P A Q) {s : State} (hP : P 0 s) : Q (resampleLoop n base n s) :=
  H.loop n s (le_refl n) (by simpa using hP)

/-- The body of a RESAMPLE that goes on after a wait: `owed` input frames are left to consume in round k. -/
theorem resume_loop {n base : Nat} {w : Waiting} {s : State} (hn : w.count = n) (hb : w.base = base)
    (hp : s.provider ≠ []) :
    resumeResample w s =
      match receiveAnswer n base w.k s with
      | .stop t => t
      | .go t => resampleLoop n base (n - w.k) t := by
  subst hn hb
  unfold resumeResample
  cases h : s.provider with
  | nil => exact absurd h hp
  | cons a rest => rfl

/-- A resumed RESAMPLE keeps the rule. -/
theorem LoopRule.resume (H : LoopRule n base P A Q) {w : Waiting} {s : State} (hn : w.count = n) (hb : w.base = base)
    (hk : w.k < n) (hA : A w.k s) (hh : s.regs.held = false) (hp : 0 < s.regs.pending.toNat) (hpr : s.provider ≠ []) :
    Q (resumeResample w s) := by
  rw [resume_loop hn hb hpr]
  have hr := H.receive hk hA hh hp
  generalize receiveAnswer n base w.k s = f at hr ⊢
  cases f with
  | stop t => exact hr
  | go t => exact H.loop _ t (by omega) (by rw [show n - (n - w.k) = w.k by omega]; exact hr.1)

end Sys2Proof.Machine
end

