-- ==== Sys2Proof/Laws/Exec.lean ====
section
/-! SUPPORT. Every command as one function of the state behind the acceptance check, and what that check does. -/

namespace Sys2Proof.Machine

/-- The pseudocode of each command after the common checks of rule R283. -/
def bodyOf : Instr → State → State
  | .nop => answer .ok 0
  | .create tier chan bits outRate => createBody tier chan bits outRate
  | .setRate inRate => setRateBody inRate
  | .setVolume gainL gainR => setVolumeBody gainL gainR
  | .resample count base => resampleBody count base
  | .coefWrite start value => coefWriteBody start value
  | .coefCommit => coefCommitBody
  | .reset => resetBody
  | .readReg regnum => readRegBody regnum

/-- Every command answers a next state: its body's, or an answer of the acceptance table. -/
theorem exec_eq_next (i : Instr) (s : State) : exec i s = .next (whenAccepted i.opcode s (bodyOf i)) := by
  cases i <;> rfl

theorem exec_eq_next_iff {i : Instr} {s t : State} :
    exec i s = .next t ↔ whenAccepted i.opcode s (bodyOf i) = t := by
  rw [exec_eq_next]
  exact ⟨fun h => by injection h, fun h => by rw [h]⟩

/-- The acceptance check runs the body or answers an error and changes nothing else (R281). -/
theorem whenAccepted_cases (op : Opcode) (s : State) (body : State → State) :
    (acceptance op s.regs.state = .ok ∧ whenAccepted op s body = body s) ∨
    (acceptance op s.regs.state = .errState ∧ whenAccepted op s body = answer .errState 0 s) ∨
    (acceptance op s.regs.state = .errFault ∧ whenAccepted op s body = answer .errFault 0 s) := by
  unfold whenAccepted
  cases h : acceptance op s.regs.state <;> simp

/-- A property of the body's result and of a refusal holds of the command. -/
theorem exec_induct {i : Instr} {s t : State} {Q : State → Prop} (h : exec i s = .next t)
    (hbody : acceptance i.opcode s.regs.state = .ok → Q (bodyOf i s)) (hst : Q (answer .errState 0 s))
    (hf : Q (answer .errFault 0 s)) : Q t := by
  rw [exec_eq_next_iff] at h
  rcases whenAccepted_cases i.opcode s (bodyOf i) with ⟨ha, hw⟩ | ⟨ha, hw⟩ | ⟨ha, hw⟩ <;> rw [hw] at h <;> subst h
  · exact hbody ha
  · exact hst
  · exact hf

/-- RESAMPLE is accepted in Ready only (R281). -/
theorem acceptance_resample {st : Facade} (h : acceptance .resample st = .ok) : st = .ready := by
  cases st <;> first | rfl | cases h

theorem whenAccepted_ok {op : Opcode} {s : State} {body : State → State} (h : acceptance op s.regs.state = .ok) :
    whenAccepted op s body = body s := by
  unfold whenAccepted; rw [h]

/-- An accepted command runs its body. -/
theorem exec_accepted {i : Instr} {s : State} (h : acceptance i.opcode s.regs.state = .ok) :
    exec i s = .next (bodyOf i s) := by
  rw [exec_eq_next, whenAccepted_ok h]

/-! ### SET_RATE -/

/-- The ways an accepted SET_RATE ends (R290 to R293). -/
theorem setRateBody_cases (rate : Int) (s : State) :
    (setRateBody rate s = answer .errConfig 0 s) ∨
    (0 < rate ∧ rate.toNat = s.regs.inRate.toNat ∧ setRateBody rate s = answer .ok s.regs.rateData s) ∨
    (0 < rate ∧ redesign s rate.toNat = true ∧ ∃ k,
      deriveConstants s.regs.tier s.regs.outRate.toNat rate.toNat = some k ∧
        setRateBody rate s = finishRate rate.toNat (redesigned k rate.toNat s)) ∨
    (0 < rate ∧ redesign s rate.toNat = false ∧ setRateBody rate s = finishRate rate.toNat s) := by
  unfold setRateBody
  by_cases h0 : rate ≤ 0
  · left; simp [h0]
  · have hpos : 0 < rate := by omega
    rw [if_neg h0]
    dsimp only
    split
    · rename_i h; exact .inr (.inl ⟨hpos, h.2, rfl⟩)
    · split
      · rename_i h
        cases hd : deriveConstants s.regs.tier s.regs.outRate.toNat rate.toNat with
        | none => exact .inl rfl
        | some k => exact .inr (.inr (.inl ⟨hpos, h, k, rfl, rfl⟩))
      · rename_i h
        exact .inr (.inr (.inr ⟨hpos, by simpa using h, rfl⟩))

@[simp] theorem finishRate_keeps (rate : Nat) (s : State) :
    (finishRate rate s).params = s.params ∧ (finishRate rate s).inp = s.inp ∧ (finishRate rate s).out = s.out ∧
      (finishRate rate s).hist = s.hist ∧ (finishRate rate s).acoef = s.acoef ∧ (finishRate rate s).scoef = s.scoef ∧
      (finishRate rate s).waiting = s.waiting ∧ (finishRate rate s).host = s.host ∧
      (finishRate rate s).provider = s.provider ∧ (finishRate rate s).races = s.races ∧
      (finishRate rate s).events = s.events ∧ (finishRate rate s).observed = s.observed ∧
        (finishRate rate s).histEpoch = s.histEpoch := by
  simp [finishRate]

@[simp] theorem finishRate_regs (rate : Nat) (s : State) :
    (finishRate rate s).regs = (s.regs.storeRate rate).selectLocked := by
  simp [finishRate]

@[simp] theorem finishRate_responses (rate : Nat) (s : State) :
    (finishRate rate s).responses = s.responses ++ [⟨.ok, (s.regs.storeRate rate).selectLocked.rateData⟩] := by
  simp [finishRate]

@[simp] theorem redesigned_keeps (k : Constants) (rate : Nat) (s : State) :
    (redesigned k rate s).params = s.params ∧ (redesigned k rate s).inp = s.inp ∧
      (redesigned k rate s).out = s.out ∧ (redesigned k rate s).acoef = s.acoef ∧
      (redesigned k rate s).scoef = s.scoef ∧ (redesigned k rate s).waiting = s.waiting ∧
      (redesigned k rate s).host = s.host ∧ (redesigned k rate s).provider = s.provider ∧
      (redesigned k rate s).races = s.races ∧ (redesigned k rate s).responses = s.responses ∧
      (redesigned k rate s).events = s.events ∧ (redesigned k rate s).observed = s.observed ∧
        (redesigned k rate s).histEpoch = s.histEpoch := by
  simp [redesigned]

/-- RB_RESIZE writes the four registers of rule R202, or none. -/
theorem rbResize_regs (hn : Nat) (s : State) :
    (rbResize hn s).regs =
      if s.regs.histValid = true ∧ s.regs.histFrames.toNat = ringFrames s.params hn then s.regs
      else { s.regs with
        histFrames := BitVec.ofNat 16 (ringFrames s.params hn), impulse := BitVec.ofNat 16 hn
        ringFull := BitVec.ofNat 16 (ringFrames s.params hn - hn), histValid := true } := by
  unfold rbResize
  dsimp only
  split <;> rfl

/-- RB_RESIZE fills HIST with the resized buffer, or leaves it (R202, R203). -/
theorem rbResize_hist (hn : Nat) (s : State) :
    (rbResize hn s).hist =
      if s.regs.histValid = true ∧ s.regs.histFrames.toNat = ringFrames s.params hn then s.hist
      else s.hist.fill 0 ((List.range (ringFrames s.params hn * s.channels)).map (resizedElem s hn)) := by
  unfold rbResize
  dsimp only
  split <;> rfl

/-- The constants stored fit their registers (R37). -/
structure Constants.Fits (k : Constants) : Prop where
  l : k.l < 256
  shift : k.shift < 32
  h : k.h < 64
  atten : k.atten < 256

/-- All registers after the re-design part of SET_RATE (R290): the constants, the rescaled phase, the ring, STATE. -/
theorem redesigned_regs {k : Constants} (hk : k.Fits) (rate : Nat) (s : State) :
    (redesigned k rate s).regs =
      let wrap := k.l * 2 ^ k.shift
      let kept := s.regs.histValid = true ∧ s.regs.histFrames.toNat = ringFrames s.params k.h
      { s.regs with
        l := BitVec.ofNat 8 k.l, shift := BitVec.ofNat 5 k.shift, h := BitVec.ofNat 6 k.h, constValid := true
        designAtten := BitVec.ofNat 8 k.atten, filterRate := BitVec.ofNat 32 rate, coefCount := 0
        phase := if s.regs.constValid = false ∨ s.regs.wrap = 0 then 0
          else BitVec.ofNat 32 (s.regs.phase.toNat * wrap / s.regs.wrap)
        state := s.regs.state.afterRedesign, histValid := true
        histFrames := if kept then s.regs.histFrames else BitVec.ofNat 16 (ringFrames s.params k.h)
        impulse := if kept then s.regs.impulse else BitVec.ofNat 16 k.h
        ringFull := if kept then s.regs.ringFull else BitVec.ofNat 16 (ringFrames s.params k.h - k.h) } := by
  have h1 : k.l % 256 = k.l := Nat.mod_eq_of_lt hk.l
  have h2 : k.shift % 32 = k.shift := Nat.mod_eq_of_lt hk.shift
  have h3 : k.h % 64 = k.h := Nat.mod_eq_of_lt hk.h
  have hphase : ((s.regs.constSet k rate).phaseRescale (if s.regs.constValid then s.regs.wrap else 0)) =
      { s.regs.constSet k rate with
        phase := if s.regs.constValid = false ∨ s.regs.wrap = 0 then 0
          else BitVec.ofNat 32 (s.regs.phase.toNat * (k.l * 2 ^ k.shift) / s.regs.wrap) } := by
    have hw : (s.regs.constSet k rate).wrap = k.l * 2 ^ k.shift := by
      simp [Regs.wrap, Regs.constSet, h1, h2, Nat.shiftLeft_eq]
    unfold Regs.phaseRescale
    rw [hw]
    cases s.regs.constValid <;> simp [Regs.constSet]
  unfold redesigned
  simp only [hphase, rbResize_regs]
  simp only [Regs.constSet, BitVec.toNat_ofNat, Nat.reducePow, h3]
  by_cases hs : s.regs.histValid = true ∧ s.regs.histFrames.toNat = ringFrames s.params k.h
  · simp [hs]
  · simp [hs]

/-- The HIST that the re-design part of SET_RATE leaves is the one RB_RESIZE makes from the state before it (R290, R202). -/
theorem redesigned_hist {k : Constants} (hk : k.Fits) (rate : Nat) (s : State) :
    (redesigned k rate s).hist = (rbResize k.h s).hist := by
  unfold redesigned
  have hh : ∀ w, ((s.regs.constSet k rate).phaseRescale w).h.toNat = k.h := by
    intro w
    simp only [Regs.phaseRescale, Regs.constSet, BitVec.toNat_ofNat]
    exact Nat.mod_eq_of_lt hk.h
  simp only [hh]
  generalize (if s.regs.constValid then s.regs.wrap else 0) = w
  simp only [rbResize_hist]
  rfl

/-! ### The other commands -/

/-- CREATE rejects its operands or configures (R285). -/
theorem createBody_cases (tier chan bits : Nat) (rate : Int) (s : State) :
    createBody tier chan bits rate s = answer .errConfig 0 s ∨
    ∃ t, Tier.ofCode tier = some t ∧ (chan = 1 ∨ chan = 2) ∧ bits = 16 ∧ 0 < rate ∧
      createBody tier chan bits rate s =
        answer .ok 0 { resetActions s with regs := s.regs.resetActions.create t chan rate } := by
  unfold createBody
  cases Tier.ofCode tier with
  | none => exact .inl rfl
  | some t =>
    dsimp only
    split
    · exact .inl rfl
    · exact .inr ⟨t, rfl, by omega, by omega, by omega, by simp⟩

/-- COEF_WRITE refuses or stages one element (R315). -/
theorem coefWriteBody_cases (start : Bool) (value : Word) (s : State) :
    coefWriteBody start value s = answer .errRange s.regs.coefCountWord s ∨
    ∃ idx, idx = (if start then 0 else s.regs.coefCount.toNat) ∧ idx < s.regs.bankSize ∧
      (s.regs.coef32 = true ∨ isSext16 value = true) ∧
      coefWriteBody start value s = answer .ok (BitVec.ofNat 32 (idx + 1))
        { s with scoef := s.scoef.write idx value, regs := { s.regs with coefCount := BitVec.ofNat 13 (idx + 1) } } := by
  unfold coefWriteBody
  generalize (if start = true then 0 else s.regs.coefCount.toNat) = idx
  dsimp only
  split
  · exact .inl rfl
  · split
    · exact .inl rfl
    · rename_i h1 h2
      refine .inr ⟨idx, rfl, by omega, ?_, rfl⟩
      cases hc : s.regs.coef32
      · right; cases hv : isSext16 value
        · exact absurd ⟨hc, hv⟩ h2
        · rfl
      · left; rfl

/-- COEF_COMMIT refuses an incomplete load or installs the bank (R318). -/
theorem coefCommitBody_cases (s : State) :
    (s.regs.coefCount.toNat ≠ s.regs.bankSize ∧ coefCommitBody s = answer .errState s.regs.coefCountWord s) ∨
    (s.regs.coefCount.toNat = s.regs.bankSize ∧
      coefCommitBody s = answer .ok (BitVec.ofNat 32 s.regs.bankSize)
        { s with
          acoef := Mem.copyLow s.regs.bankSize s.scoef s.acoef
          regs := { s.regs with coefCount := 0, state := .ready } }) := by
  unfold coefCommitBody
  by_cases h : s.regs.coefCount.toNat = s.regs.bankSize
  · exact .inr ⟨h, by simp [h]⟩
  · exact .inl ⟨h, by simp [h]⟩

/-- READ_REG only answers (R330). -/
theorem readRegBody_cases (n : Nat) (s : State) :
    (∃ v, regValue s n = some v ∧ readRegBody n s = answer .ok v s) ∨ readRegBody n s = answer .errRange 0 s := by
  unfold readRegBody
  cases regValue s n with
  | none => exact .inr rfl
  | some v => exact .inl ⟨v, rfl, rfl⟩

/-- RESAMPLE refuses its range or runs the loop (R300, R301). -/
theorem resampleBody_cases (n base : Nat) (s : State) :
    (s.params.outFrames < base + n ∧ resampleBody n base s = answer .errRange 0 s) ∨
    (base + n ≤ s.params.outFrames ∧ resampleBody n base s = resampleLoop n base n s) := by
  unfold resampleBody
  by_cases h : s.params.outFrames < base + n
  · exact .inl ⟨h, by simp [h]⟩
  · exact .inr ⟨by omega, by rw [if_neg (by omega)]⟩

@[simp] theorem resetBody_eq (s : State) :
    resetBody s = answer .ok 0
      { resetActions s with regs := { s.regs.resetActions with state := s.regs.state.afterReset } } := by
  simp [resetBody]

end Sys2Proof.Machine
end

