-- ==== Sys2Proof/Laws/Constants.lean ====
section
/-! SUPPORT. Small facts about the derived constants: bitlen, the range of the phase count, the widths of what CONST_SET
stores. -/

namespace Sys2Proof.Machine

/-- bitlen as the spec defines it: the least n with v < 2^n (R10). -/
theorem bitlen_le_iff (v n : Nat) : bitlen v ≤ n ↔ v < 2 ^ n := by
  unfold bitlen
  split
  · subst v; simp
  · rename_i h
    rw [← Nat.log2_lt h]; omega

theorem clampPhases_le (l0 : Nat) : clampPhases l0 ≤ 127 := by
  unfold clampPhases; exact Nat.min_le_left _ _

/-- The doubling reaches 63 from any positive start (R158). -/
theorem clampPhases_ge {l0 : Nat} (h : 1 ≤ l0) : 63 ≤ clampPhases l0 := by
  by_cases hs : l0 < 63
  · interval_cases l0 <;> decide
  · have : doublePhases 6 l0 = l0 := by
      unfold doublePhases; rw [if_neg]; simpa [Config.minPhases] using hs
    unfold clampPhases; rw [this]; unfold Config.maxPhases; omega

theorem basePhases_pos {o : Nat} (ho : 0 < o) (i : Nat) : 1 ≤ basePhases o i :=
  Nat.div_pos (Nat.le_of_dvd ho (Nat.gcd_dvd_left o i)) (Nat.gcd_pos_of_pos_left _ ho)

/-- What a successful derivation gives (R160). -/
theorem deriveConstants_some {t : Tier} {o i : Nat} {k : Constants} (h : deriveConstants t o i = some k) :
    k.l = clampPhases (basePhases o i) ∧ bitlen (lscale k.l o i) ≤ 30 ∧ k.shift = 30 - bitlen (lscale k.l o i) ∧
      k.h = tierH t (decide (2 * o ≤ i)) ∧ k.atten = tierAtten t := by
  unfold deriveConstants at h
  dsimp only at h
  split at h
  · cases h
  · rename_i hb
    injection h with h
    subst h
    exact ⟨rfl, by simpa [Config.phaseBits] using hb, rfl, rfl, rfl⟩

theorem tierH_le (t : Tier) (b : Bool) : tierH t b ≤ 32 := by cases t <;> cases b <;> decide

theorem tierH_pos (t : Tier) (b : Bool) : 8 ≤ tierH t b := by cases t <;> cases b <;> decide

/-- Derived constants fit the registers that CONST_SET writes. -/
theorem deriveConstants_fits {t : Tier} {o i : Nat} {k : Constants} (h : deriveConstants t o i = some k) : k.Fits := by
  obtain ⟨h1, _, h3, h4, h5⟩ := deriveConstants_some h
  have := clampPhases_le (basePhases o i)
  have := tierH_le t (decide (2 * o ≤ i))
  have : tierAtten t ≤ 98 := by cases t <;> decide
  constructor <;> omega

/-! ### The locked selector (R297, R264) -/

@[simp] theorem selectLocked_locked (r : Regs) :
    r.selectLocked.locked = lockedTest r.inc.toNat r.shift.toNat := rfl

/-- PHASE after the selector: the fraction is gone exactly when LOCKED is set. -/
theorem selectLocked_phase (r : Regs) :
    r.selectLocked.phase.toNat =
      if r.selectLocked.locked then r.phase.toNat - r.phase.toNat % 2 ^ r.shift.toNat else r.phase.toNat := by
  rw [selectLocked_locked]
  unfold Regs.selectLocked
  cases lockedTest r.inc.toNat r.shift.toNat
  · simp
  · simp only [if_true]
    rw [BitVec.toNat_ofNat]
    exact Nat.mod_eq_of_lt (lt_of_le_of_lt (Nat.sub_le _ _) r.phase.isLt)

/-- LOCKED and PHASE are the registers that the selector writes. -/
theorem selectLocked_eq (r : Regs) :
    r.selectLocked = { r with locked := r.selectLocked.locked, phase := r.selectLocked.phase } := rfl

end Sys2Proof.Machine
end

