-- ==== Sys2Proof/Laws/Decode.lean ====
section
/-! SUPPORT. Placing and extracting fields, the decoding procedure as the rows of the opcode map, the range of decoded
fields. -/

namespace Sys2Proof

/-! ### Fields -/

theorem place_getLsbD {n : Nat} (v : BitVec n) (lo i : Nat) (h : i < 64) :
    (place 64 v lo).getLsbD i = (decide (lo ≤ i) && v.getLsbD (i - lo)) := by
  unfold place
  rw [BitVec.getLsbD_shiftLeft, BitVec.getLsbD_setWidth]
  by_cases hl : lo ≤ i
  · simp [h, hl, show ¬ i < lo by omega, show i - lo < 64 by omega]
  · simp [hl, show i < lo by omega]

/-- A placed field is read back whole. -/
theorem extract_place_same {n : Nat} (v : BitVec n) (lo : Nat) (h : lo + n ≤ 64) :
    (place 64 v lo).extractLsb' lo n = v := by
  apply BitVec.eq_of_getLsbD_eq
  intro i hi
  rw [BitVec.getLsbD_extractLsb', place_getLsbD _ _ _ (by omega)]
  simp [hi]

/-- A field placed elsewhere leaves zeros. -/
theorem extract_place_apart {n m : Nat} (v : BitVec n) (lo lo' : Nat) (hm : lo' + m ≤ 64)
    (h : lo + n ≤ lo' ∨ lo' + m ≤ lo) : (place 64 v lo).extractLsb' lo' m = 0#m := by
  apply BitVec.eq_of_getLsbD_eq
  intro i hi
  rw [BitVec.getLsbD_extractLsb', place_getLsbD _ _ _ (by omega)]
  rcases h with h | h
  · rw [BitVec.getLsbD_of_ge v _ (by omega)]; simp
  · simp [show ¬ lo ≤ lo' + i by omega]

/-- Masking a field that is placed whole under zero mask bits clears it. -/
theorem place_and_zero {n : Nat} (v : BitVec n) (lo : Nat) (mask : Packet)
    (h : ∀ i, i < n → lo + i < 64 → mask.getLsbD (lo + i) = false) : place 64 v lo &&& mask = 0#64 := by
  apply BitVec.eq_of_getLsbD_eq
  intro i hi
  rw [BitVec.getLsbD_and, place_getLsbD _ _ _ hi]
  by_cases hl : lo ≤ i
  · by_cases hn : i - lo < n
    · have := h (i - lo) hn (by omega)
      rw [show lo + (i - lo) = i by omega] at this
      simp [this]
    · rw [BitVec.getLsbD_of_ge v _ (by omega)]; simp
  · simp [hl]

/-- A packet's field, put back in its place, is the packet under that field's mask. -/
theorem place_extract (p : Packet) (lo n : Nat) :
    place 64 (p.extractLsb' lo n) lo = p &&& place 64 (BitVec.allOnes n) lo := by
  apply BitVec.eq_of_getLsbD_eq
  intro i hi
  rw [BitVec.getLsbD_and, place_getLsbD _ _ _ hi, place_getLsbD _ _ _ hi, BitVec.getLsbD_extractLsb']
  by_cases hl : lo ≤ i
  · simp [hl, show lo + (i - lo) = i by omega, Bool.and_comm]
  · simp [hl]

theorem or_and_packet (a b m : Packet) : (a ||| b) &&& m = a &&& m ||| b &&& m := by
  apply BitVec.eq_of_getLsbD_eq
  intro i hi
  simp [Bool.and_or_distrib_right]

theorem and_or_packet (a b m : Packet) : m &&& (a ||| b) = m &&& a ||| m &&& b := by
  apply BitVec.eq_of_getLsbD_eq
  intro i hi
  simp [Bool.and_or_distrib_left]

/-- A packet is its masked part and the rest. -/
theorem masked_or_rest (p m : Packet) : p &&& m ||| p &&& ~~~m = p := by
  apply BitVec.eq_of_getLsbD_eq
  intro i hi
  rw [BitVec.getLsbD_or, BitVec.getLsbD_and, BitVec.getLsbD_and, BitVec.getLsbD_not]
  cases p.getLsbD i <;> cases m.getLsbD i <;> simp [hi]

/-- An s32 value survives its 32 bits (R114). -/
theorem toInt_ofInt_s32 {v : Int} (h : isS32 v = true) : (BitVec.ofInt 32 v).toInt = v := by
  simp only [isS32, decide_eq_true_eq] at h
  rw [BitVec.toInt_ofInt, Int.bmod_eq_of_le] <;> norm_num at h ⊢ <;> omega

/-! ### The decoding procedure -/

theorem opcodeByte_and (p q : Packet) : Packet.opcodeByte (p &&& q) = Packet.opcodeByte p &&& Packet.opcodeByte q := by
  unfold Packet.opcodeByte
  apply BitVec.eq_of_getLsbD_eq
  intro i hi
  simp [hi]

/-- A packet that matches a row carries the row's opcode, which every mask covers (R123). -/
theorem opcodeByte_of_row {p : Packet} {row : OpcodeRow} (hr : row ∈ opcodeRows) (h : p &&& row.mask = row.pattern) :
    Packet.opcodeByte p = row.opcode.byte := by
  have hrow : ∀ row ∈ opcodeRows, Packet.opcodeByte row.mask = BitVec.allOnes 8 ∧
      Packet.opcodeByte row.pattern = row.opcode.byte := by decide
  have := congrArg Packet.opcodeByte h
  rw [opcodeByte_and, (hrow row hr).1, (hrow row hr).2, BitVec.and_allOnes] at this
  exact this

/-- No two rows share an opcode byte (R123). -/
theorem opcodeRows_unique : ∀ a ∈ opcodeRows, ∀ b ∈ opcodeRows, a.opcode.byte = b.opcode.byte → a = b := by decide

/-- The row of an opcode byte is the one found. -/
theorem find_row {p : Packet} {row : OpcodeRow} (hr : row ∈ opcodeRows) (hb : Packet.opcodeByte p = row.opcode.byte) :
    opcodeRows.find? (fun row => row.opcode.byte == Packet.opcodeByte p) = some row := by
  cases h : opcodeRows.find? (fun row => row.opcode.byte == Packet.opcodeByte p) with
  | none => exact absurd (by simp [hb]) (List.find?_eq_none.1 h row hr)
  | some r =>
    have h2 := List.find?_some h
    rw [opcodeRows_unique r (List.mem_of_find?_eq_some h) row hr (by simpa [hb] using h2)]

/-- A packet decodes to a command exactly when it matches that command's row (R123, R124). -/
theorem decode_ok_iff (p : Packet) (i : Instr) :
    decode p = .ok i ↔ ∃ row ∈ opcodeRows, p &&& row.mask = row.pattern ∧ i = fieldsOf row.opcode p := by
  constructor
  · intro h
    unfold decode at h
    split at h
    · cases h
    · rename_i row hf
      split at h
      · rename_i hm
        injection h with h
        exact ⟨row, List.mem_of_find?_eq_some hf, hm, h.symm⟩
      · cases h
  · rintro ⟨row, hr, hm, rfl⟩
    unfold decode
    rw [find_row hr (opcodeByte_of_row hr hm)]
    simp [hm]

/-- The fields read from any packet are well formed: each fits its field (R113, R114). -/
theorem fieldsOf_wellFormed (op : Opcode) (p : Packet) : (fieldsOf op p).wellFormed = true := by
  have s32 : isS32 (p.extractLsb' 0 32).toInt = true := by
    have h1 := BitVec.toInt_lt (x := p.extractLsb' 0 32)
    have h2 := BitVec.le_toInt (x := p.extractLsb' 0 32)
    norm_num at h1 h2
    simp only [isS32, decide_eq_true_eq]
    norm_num
    exact ⟨h2, h1⟩
  have lt : ∀ lo n, (p.extractLsb' lo n).toNat < 2 ^ n := fun lo n => BitVec.isLt _
  cases op <;> simp only [fieldsOf, Instr.wellFormed, s32, Bool.and_true, Bool.and_eq_true, decide_eq_true_eq]
  · exact ⟨⟨lt 32 2, lt 36 2⟩, lt 40 6⟩
  · exact ⟨lt 32 24, lt 0 32⟩
  · exact lt 32 8

@[simp] theorem fieldsOf_opcode (op : Opcode) (p : Packet) : (fieldsOf op p).opcode = op := by cases op <;> rfl

end Sys2Proof
end

