-- ==== Sys2Proof/Laws/Mem.lean ====
section
/-! SUPPORT. The laws of one memory: read after write, the canonical form every operation keeps, and that two canonical
memories with equal elements are the same list. -/

namespace Sys2Proof.Machine

variable {w : Nat}

/-! ### Canonical form -/

@[simp] theorem Mem.wfAbove_nil (i : Nat) : Mem.wfAbove i ([] : Mem w) = true := rfl

theorem Mem.wfAbove_cons {i j : Nat} {v : BitVec w} {rest : Mem w} :
    Mem.wfAbove i ((j, v) :: rest) = true ↔ i ≤ j ∧ v ≠ Mem.unwritten w ∧ Mem.wfAbove (j + 1) rest = true := by
  simp [Mem.wfAbove, and_assoc]

theorem Mem.wfAbove_mono {i k : Nat} {m : Mem w} (h : Mem.wfAbove k m = true) (hik : i ≤ k) :
    Mem.wfAbove i m = true := by
  cases m with
  | nil => rfl
  | cons e rest =>
    obtain ⟨j, v⟩ := e
    rw [Mem.wfAbove_cons] at h ⊢
    exact ⟨hik.trans h.1, h.2⟩

theorem Mem.wfAbove_consElem {i k : Nat} {v : BitVec w} {rest : Mem w} (hki : k ≤ i)
    (h : Mem.wfAbove (i + 1) rest = true) : Mem.wfAbove k (Mem.consElem i v rest) = true := by
  unfold Mem.consElem
  split
  · exact Mem.wfAbove_mono h (by omega)
  · rw [Mem.wfAbove_cons]; exact ⟨hki, ‹_›, h⟩

theorem Mem.wfAbove_write {k i : Nat} {v : BitVec w} {m : Mem w} (hki : k ≤ i) (h : Mem.wfAbove k m = true) :
    Mem.wfAbove k (m.write i v) = true := by
  induction m generalizing k with
  | nil => exact Mem.wfAbove_consElem hki rfl
  | cons e rest ih =>
    obtain ⟨j, u⟩ := e
    have hc := Mem.wfAbove_cons.mp h
    unfold Mem.write
    split
    · exact Mem.wfAbove_consElem hki (Mem.wfAbove_cons.mpr ⟨by omega, hc.2⟩)
    · split
      · subst_vars; exact Mem.wfAbove_consElem hki hc.2.2
      · exact Mem.wfAbove_cons.mpr ⟨hc.1, hc.2.1, ih (by omega) hc.2.2⟩

/-- A write keeps the canonical form. -/
theorem Mem.wf_write {m : Mem w} (h : m.wf = true) (i : Nat) (v : BitVec w) : (m.write i v).wf = true :=
  Mem.wfAbove_write (Nat.zero_le i) h

/-- Writing consecutive elements keeps the canonical form. -/
theorem Mem.wf_fill {m : Mem w} (h : m.wf = true) (i : Nat) (vs : List (BitVec w)) : (m.fill i vs).wf = true := by
  induction vs generalizing m i with
  | nil => exact h
  | cons v vs ih => exact ih (Mem.wf_write h i v) (i + 1)

/-! ### Reads -/

theorem Mem.read_below {k i : Nat} {m : Mem w} (h : Mem.wfAbove k m = true) (hik : i < k) :
    m.read i = Mem.unwritten w := by
  cases m with
  | nil => rfl
  | cons e rest =>
    obtain ⟨j, v⟩ := e
    have hj := (Mem.wfAbove_cons.mp h).1
    rw [Mem.read, if_neg (by omega), if_pos (by omega)]

theorem Mem.read_consElem {i a : Nat} {v : BitVec w} {rest : Mem w} (h : Mem.wfAbove (i + 1) rest = true) :
    (Mem.consElem i v rest).read a = if a = i then v else if a < i then Mem.unwritten w else rest.read a := by
  unfold Mem.consElem
  split
  · rename_i hv
    by_cases ha : a = i
    · rw [if_pos ha, hv]; exact Mem.read_below h (by omega)
    · rw [if_neg ha]
      split
      · exact Mem.read_below h (by omega)
      · rfl
  · rfl

theorem Mem.read_write_above {k : Nat} {m : Mem w} (h : Mem.wfAbove k m = true) (i a : Nat) (v : BitVec w) :
    (m.write i v).read a = if a = i then v else m.read a := by
  induction m generalizing k with
  | nil =>
    rw [Mem.write, Mem.read_consElem rfl]
    simp [Mem.read]
  | cons e rest ih =>
    obtain ⟨j, u⟩ := e
    have hc := Mem.wfAbove_cons.mp h
    unfold Mem.write
    split
    · rename_i hij
      rw [Mem.read_consElem (Mem.wfAbove_cons.mpr ⟨hij, hc.2⟩)]
      by_cases ha : a = i
      · rw [if_pos ha, if_pos ha]
      · rw [if_neg ha, if_neg ha]
        split
        · rw [Mem.read, if_neg (by omega), if_pos (by omega)]
        · rfl
    · split
      · subst_vars
        rw [Mem.read_consElem hc.2.2, Mem.read]
        by_cases ha : a = j <;> simp [ha]
      · rename_i h1 h2
        rw [Mem.read, Mem.read, ih hc.2.2]
        by_cases ha : a = i
        · subst ha; rw [if_neg (by omega), if_neg (by omega), if_pos rfl, if_pos rfl]
        · rw [if_neg ha, if_neg ha]

/-- A read after a write: the written element has the value, every other is as it was. -/
theorem Mem.read_write {m : Mem w} (h : m.wf = true) (i a : Nat) (v : BitVec w) :
    (m.write i v).read a = if a = i then v else m.read a := Mem.read_write_above h i a v

/-- Reading after consecutive elements were written. -/
theorem Mem.read_fill {m : Mem w} (h : m.wf = true) (i a : Nat) (vs : List (BitVec w)) :
    (m.fill i vs).read a = if i ≤ a ∧ a < i + vs.length then vs.getD (a - i) (Mem.unwritten w) else m.read a := by
  induction vs generalizing m i with
  | nil => simp [Mem.fill, show ¬(i ≤ a ∧ a < i) by omega]
  | cons v vs ih =>
    rw [Mem.fill, ih (Mem.wf_write h i v), Mem.read_write h]
    by_cases h1 : i + 1 ≤ a ∧ a < i + 1 + vs.length
    · obtain ⟨d, rfl⟩ : ∃ d, a = i + 1 + d := ⟨a - (i + 1), by omega⟩
      rw [if_pos h1, if_pos (by simp; omega)]
      simp [show i + 1 + d - (i + 1) = d by omega, show i + 1 + d - i = d + 1 by omega]
    · rw [if_neg h1]
      by_cases h2 : a = i
      · subst h2; simp
      · rw [if_neg h2, if_neg (by simp; omega)]

/-! ### A bank copied whole -/

theorem Mem.wfAbove_filter {k : Nat} {m : Mem w} (h : Mem.wfAbove k m = true) (p : Nat × BitVec w → Bool) :
    Mem.wfAbove k (m.filter p) = true := by
  induction m generalizing k with
  | nil => rfl
  | cons e rest ih =>
    obtain ⟨j, v⟩ := e
    have hc := Mem.wfAbove_cons.mp h
    rw [List.filter_cons]
    split
    · exact Mem.wfAbove_cons.mpr ⟨hc.1, hc.2.1, ih hc.2.2⟩
    · exact Mem.wfAbove_mono (ih hc.2.2) (by omega)

theorem Mem.wfAbove_append {k n : Nat} {a b : Mem w} (ha : Mem.wfAbove k a = true) (hlt : ∀ e ∈ a, e.1 < n)
    (hb : Mem.wfAbove n b = true) (hkn : k ≤ n) : Mem.wfAbove k (a ++ b) = true := by
  induction a generalizing k with
  | nil => exact Mem.wfAbove_mono hb hkn
  | cons e rest ih =>
    obtain ⟨j, v⟩ := e
    have hc := Mem.wfAbove_cons.mp ha
    have hj : j < n := hlt (j, v) (by simp)
    exact Mem.wfAbove_cons.mpr ⟨hc.1, hc.2.1, ih hc.2.2 (fun e he => hlt e (by simp [he])) hj⟩

theorem Mem.wfAbove_filter_ge {k n : Nat} {m : Mem w} (h : Mem.wfAbove k m = true) :
    Mem.wfAbove n (m.filter fun e => decide (n ≤ e.1)) = true := by
  induction m generalizing k with
  | nil => rfl
  | cons e rest ih =>
    obtain ⟨j, v⟩ := e
    have hc := Mem.wfAbove_cons.mp h
    rw [List.filter_cons]
    split
    · rename_i hn
      exact Mem.wfAbove_cons.mpr ⟨by simpa using hn, hc.2.1, Mem.wfAbove_filter hc.2.2 _⟩
    · exact ih hc.2.2

/-- A whole-bank copy keeps the canonical form. -/
theorem Mem.wf_copyLow {src dst : Mem w} (hs : src.wf = true) (hd : dst.wf = true) (n : Nat) :
    (Mem.copyLow n src dst).wf = true :=
  Mem.wfAbove_append (Mem.wfAbove_filter hs _) (by simp) (Mem.wfAbove_filter_ge hd) (Nat.zero_le n)

theorem Mem.read_filter_lt {k n i : Nat} {m : Mem w} (h : Mem.wfAbove k m = true) (hi : i < n) (b : Mem w)
    (hb : Mem.wfAbove n b = true) : Mem.read ((m.filter fun e => decide (e.1 < n)) ++ b) i = m.read i := by
  induction m generalizing k with
  | nil => exact Mem.read_below hb hi
  | cons e rest ih =>
    obtain ⟨j, v⟩ := e
    have hc := Mem.wfAbove_cons.mp h
    rw [List.filter_cons]
    split
    · rw [List.cons_append, Mem.read, Mem.read, ih hc.2.2]
    · rename_i hn
      have hjn : n ≤ j := by simpa using hn
      rw [ih hc.2.2, Mem.read, if_neg (by omega), if_pos (by omega), Mem.read_below hc.2.2 (by omega)]

theorem Mem.read_append_right {k n i : Nat} {a b : Mem w} (ha : ∀ e ∈ a, e.1 < n) (hi : n ≤ i)
    (hk : Mem.wfAbove k a = true) : Mem.read (a ++ b) i = b.read i := by
  induction a generalizing k with
  | nil => rfl
  | cons e rest ih =>
    obtain ⟨j, v⟩ := e
    have hj : j < n := ha (j, v) (by simp)
    rw [List.cons_append, Mem.read, if_neg (by omega), if_neg (by omega)]
    exact ih (fun e he => ha e (by simp [he])) (Mem.wfAbove_cons.mp hk).2.2

theorem Mem.read_filter_ge {k n i : Nat} {m : Mem w} (h : Mem.wfAbove k m = true) (hi : n ≤ i) :
    Mem.read (m.filter fun e => decide (n ≤ e.1)) i = m.read i := by
  induction m generalizing k with
  | nil => rfl
  | cons e rest ih =>
    obtain ⟨j, v⟩ := e
    have hc := Mem.wfAbove_cons.mp h
    rw [List.filter_cons]
    split
    · rw [Mem.read, Mem.read, ih hc.2.2]
    · rename_i hn
      have hjn : j < n := by simpa using hn
      rw [ih hc.2.2, Mem.read, if_neg (by omega), if_neg (by omega)]

/-- Reading a bank copied whole: the low elements are the source's, the others are kept. -/
theorem Mem.read_copyLow {src dst : Mem w} (hs : src.wf = true) (hd : dst.wf = true) (n i : Nat) :
    (Mem.copyLow n src dst).read i = if i < n then src.read i else dst.read i := by
  unfold Mem.copyLow
  split
  · exact Mem.read_filter_lt hs ‹_› _ (Mem.wfAbove_filter_ge hd)
  · rw [Mem.read_append_right (n := n) (by simp) (by omega) (Mem.wfAbove_filter hs _)]
    exact Mem.read_filter_ge hd (by omega)

/-! ### Sizes -/

theorem Mem.within_iff {m : Mem w} {size : Nat} : m.within size = true ↔ ∀ e ∈ m, e.1 < size := by
  simp [Mem.within]

theorem Mem.mem_write {m : Mem w} {i : Nat} {v : BitVec w} {e : Nat × BitVec w} (h : e ∈ m.write i v) :
    e ∈ m ∨ e = (i, v) := by
  induction m with
  | nil =>
    unfold Mem.write Mem.consElem at h
    split at h <;> simp_all
  | cons d rest ih =>
    obtain ⟨j, u⟩ := d
    unfold Mem.write Mem.consElem at h
    split at h
    · split at h
      · exact .inl h
      · rw [List.mem_cons] at h; exact h.symm.imp id id
    · split at h
      · split at h
        · exact .inl (List.mem_cons_of_mem _ h)
        · rw [List.mem_cons] at h
          exact h.elim .inr fun h => .inl (List.mem_cons_of_mem _ h)
      · rw [List.mem_cons] at h
        rcases h with h | h
        · exact .inl (h ▸ List.mem_cons_self)
        · exact (ih h).imp (List.mem_cons_of_mem _) id

/-- A write of an element the memory has keeps it inside its size. -/
theorem Mem.within_write {m : Mem w} {size i : Nat} (h : m.within size = true) (hi : i < size) (v : BitVec w) :
    (m.write i v).within size = true := by
  rw [Mem.within_iff] at h ⊢
  intro e he
  rcases Mem.mem_write he with h1 | rfl
  · exact h e h1
  · exact hi

theorem Mem.within_fill {m : Mem w} {size i : Nat} (h : m.within size = true) (vs : List (BitVec w))
    (hi : i + vs.length ≤ size) : (m.fill i vs).within size = true := by
  induction vs generalizing m i with
  | nil => exact h
  | cons v vs ih =>
    have hl : i + (vs.length + 1) ≤ size := by simpa using hi
    exact ih (Mem.within_write h (by omega) v) (by omega)

theorem Mem.within_copyLow {src dst : Mem w} {size : Nat} (hs : src.within size = true) (hd : dst.within size = true)
    (n : Nat) : (Mem.copyLow n src dst).within size = true := by
  rw [Mem.within_iff] at hs hd ⊢
  intro e he
  rcases List.mem_append.mp he with h | h
  · exact hs e (List.mem_filter.mp h).1
  · exact hd e (List.mem_filter.mp h).1

/-! ### Equal elements, equal lists -/

theorem Mem.eq_of_read_above {k : Nat} {a b : Mem w} (ha : Mem.wfAbove k a = true) (hb : Mem.wfAbove k b = true)
    (h : ∀ i, a.read i = b.read i) : a = b := by
  induction a generalizing b k with
  | nil =>
    cases b with
    | nil => rfl
    | cons e rest =>
      obtain ⟨j, v⟩ := e
      have := h j
      simp only [Mem.read, if_pos] at this
      exact absurd this.symm (Mem.wfAbove_cons.mp hb).2.1
  | cons e rest ih =>
    obtain ⟨j, v⟩ := e
    have ca := Mem.wfAbove_cons.mp ha
    cases b with
    | nil =>
      have := h j
      simp only [Mem.read, if_pos] at this
      exact absurd this ca.2.1
    | cons d rest' =>
      obtain ⟨j', v'⟩ := d
      have cb := Mem.wfAbove_cons.mp hb
      have hj : j = j' := by
        by_contra hne
        rcases Nat.lt_or_gt_of_ne hne with hlt | hlt
        · have := h j
          simp only [Mem.read, if_pos, if_neg hne, if_pos hlt] at this
          exact ca.2.1 this
        · have := h j'
          simp only [Mem.read, if_pos, if_neg (Ne.symm hne), if_pos hlt] at this
          exact cb.2.1 this.symm
      subst hj
      have hv : v = v' := by simpa [Mem.read] using h j
      subst hv
      congr 1
      refine ih ca.2.2 cb.2.2 fun i => ?_
      by_cases hi : i < j + 1
      · rw [Mem.read_below ca.2.2 hi, Mem.read_below cb.2.2 hi]
      · have := h i
        simpa [Mem.read, show i ≠ j by omega, show ¬ i < j by omega] using this

/-- Equal memories are equal data: two canonical lists that read alike are the same list. -/
theorem Mem.eq_of_read {a b : Mem w} (ha : a.wf = true) (hb : b.wf = true) (h : ∀ i, a.read i = b.read i) : a = b :=
  Mem.eq_of_read_above ha hb h

/-- Writes of two different elements commute. -/
theorem Mem.write_comm {m : Mem w} (h : m.wf = true) {i j : Nat} (hij : i ≠ j) (u v : BitVec w) :
    (m.write i u).write j v = (m.write j v).write i u := by
  refine Mem.eq_of_read (Mem.wf_write (Mem.wf_write h _ _) _ _) (Mem.wf_write (Mem.wf_write h _ _) _ _) fun a => ?_
  rw [Mem.read_write (Mem.wf_write h _ _), Mem.read_write h, Mem.read_write (Mem.wf_write h _ _), Mem.read_write h]
  by_cases h1 : a = j
  · subst h1; rw [if_pos rfl, if_neg (Ne.symm hij), if_pos rfl]
  · rw [if_neg h1, if_neg h1]

/-- Of two writes of one element the second stays. -/
theorem Mem.write_write {m : Mem w} (h : m.wf = true) (i : Nat) (u v : BitVec w) :
    (m.write i u).write i v = m.write i v := by
  refine Mem.eq_of_read (Mem.wf_write (Mem.wf_write h _ _) _ _) (Mem.wf_write h _ _) fun a => ?_
  rw [Mem.read_write (Mem.wf_write h _ _), Mem.read_write h, Mem.read_write h]
  split <;> rfl

end Sys2Proof.Machine
end

