-- ==== Sys2Proof/Laws/Writes.lean ====
section
/-! SUPPORT. Which writes reach each memory: a property of a memory that single writes keep (the canonical form, the range
of its indices, one element's value) is kept by every operation of the block. -/

namespace Sys2Proof.Machine

theorem Mem.fill_induct {w : Nat} (P : Mem w → Prop) (vs : List (BitVec w)) :
    ∀ (m : Mem w) (i : Nat), (∀ m j v, i ≤ j → j < i + vs.length → P m → P (m.write j v)) → P m → P (m.fill i vs) := by
  induction vs with
  | nil => intro m i _ h; exact h
  | cons v vs ih =>
    intro m i hw h
    refine ih _ _ ?_ (hw m i v (le_refl i) (by simp) h)
    intro m j u h1 h2
    exact hw m j u (by omega) (by simp only [List.length_cons]; omega)

/-! ### HIST -/

/-- RB_READ_AGAIN writes frame IMPULSE + H only (R207). -/
theorem readAgain_hist_induct (P : Mem 16 → Prop) (s : State)
    (hw : ∀ m c v, c < s.channels →
      P m → P (m.write ((s.regs.impulse.toNat + s.regs.h.toNat) * s.channels + c) v))
    (h : P s.hist) : P (readAgain s).hist := by
  unfold readAgain
  have key : ∀ n, n ≤ s.channels → P (forUp n stageChannel s).hist := by
    intro n
    induction n with
    | zero => intro _; exact h
    | succ m ih =>
      intro hm
      have hr : (agentsMove (forUp m stageChannel s)).regs = s.regs := by simp
      simp only [forUp, stageChannel, writeHist_hist, State.histIndex, State.channels, hr]
      exact hw _ m _ (by omega) (by simpa using ih (by omega))
  exact key _ (le_refl _)

/-- IMPULSE + 1, or after a compaction the frame of the old window's middle (R208). -/
theorem advanceImpulse_hist_induct (P : Mem 16 → Prop) (s : State)
    (hw : ∀ m i v, i < 2 * s.regs.h.toNat * s.channels → P m → P (m.write i v)) (h : P s.hist) :
    P (advanceImpulse s).hist := by
  unfold advanceImpulse
  dsimp only
  split
  · refine Mem.fill_induct P _ _ _ ?_ h
    intro m j v _ hj
    exact hw m j v (by simpa [State.channels] using hj)
  · exact h

theorem rbResize_hist_induct (P : Mem 16 → Prop) (hn : Nat) (s : State)
    (hw : ∀ m i v, i < ringFrames s.params hn * s.channels → P m → P (m.write i v)) (h : P s.hist) :
    P (rbResize hn s).hist := by
  unfold rbResize
  dsimp only
  split
  · exact h
  · refine Mem.fill_induct P _ _ _ ?_ h
    intro m j v _ hj
    exact hw m j v (by simpa using hj)

@[simp] theorem consumeFrame_hist (s : State) : (consumeFrame s).hist = (readAdvance s).hist := by
  unfold consumeFrame; dsimp only; split <;> simp

/-- What every write keeps true of HIST, consuming a frame keeps. -/
theorem consumeFrame_hist_induct (P : Mem 16 → Prop) (hw : ∀ m i v, P m → P (m.write i v)) (s : State) (h : P s.hist) :
    P (consumeFrame s).hist := by
  rw [consumeFrame_hist]
  unfold readAdvance
  exact readAgain_hist_induct P _ (fun m _ v _ => hw m _ v) (advanceImpulse_hist_induct P s (fun m i v _ => hw m i v) h)

/-! ### INP: other agents and the provider only -/

theorem readAgain_inp_induct (P : Mem 16 → Prop) (s : State)
    (hw : ∀ m i v, i < s.params.inpWords → P m → P (m.write i v)) (h : P s.inp) : P (readAgain s).inp := by
  unfold readAgain
  generalize s.channels = n
  induction n with
  | zero => exact h
  | succ m ih =>
    simp only [forUp, stageChannel, writeHist_inp]
    exact agentsMove_inp_induct P _ (by simpa using hw) ih

theorem consumeFrame_inp_induct (P : Mem 16 → Prop) (s : State)
    (hw : ∀ m i v, i < s.params.inpWords → P m → P (m.write i v)) (h : P s.inp) : P (consumeFrame s).inp := by
  have : P (readAdvance s).inp := readAgain_inp_induct P _ (by simpa using hw) (by simpa using h)
  unfold consumeFrame; dsimp only; split <;> simpa using this

theorem accumulate_inp_induct (P : Mem 16 → Prop) (f c : Nat) (term : Int) (s : State)
    (hw : ∀ m i v, i < s.params.inpWords → P m → P (m.write i v)) (h : P s.inp) : P (accumulate f c term s).inp := by
  simp only [accumulate, writeOut_inp]
  exact agentsMove_inp_induct P _ (by simpa using hw) (agentsMove_inp_induct P _ hw h)

theorem produced_inp_induct (P : Mem 16 → Prop) (f : Nat) (s : State)
    (hw : ∀ m i v, i < s.params.inpWords → P m → P (m.write i v)) (h : P s.inp) : P (produced f s).inp := by
  simp only [produced, produceOneFrame, volAccumulate]
  exact agentsMove_inp_induct P _ (by simpa using hw)
    (accumulate_inp_induct P _ _ _ _ (by simpa using hw) (accumulate_inp_induct P _ _ _ _ hw h))

/-! ### OUT: other agents, and the frame produced -/

theorem readAgain_out_induct (P : Mem 32 → Prop) (s : State)
    (hw : ∀ m i v, i < 2 * s.params.outFrames → P m → P (m.write i v)) (h : P s.out) : P (readAgain s).out := by
  unfold readAgain
  generalize s.channels = n
  induction n with
  | zero => exact h
  | succ m ih =>
    simp only [forUp, stageChannel, writeHist_out]
    exact agentsMove_out_induct P _ (by simpa using hw) ih

theorem consumeFrame_out_induct (P : Mem 32 → Prop) (s : State)
    (hw : ∀ m i v, i < 2 * s.params.outFrames → P m → P (m.write i v)) (h : P s.out) : P (consumeFrame s).out := by
  have : P (readAdvance s).out := readAgain_out_induct P _ (by simpa using hw) (by simpa using h)
  unfold consumeFrame; dsimp only; split <;> simpa using this

/-- An accumulation writes its own element, and other agents write any (R247, R84). -/
theorem accumulate_out_induct (P : Mem 32 → Prop) (f c : Nat) (term : Int) (s : State)
    (hw : ∀ m i v, i < 2 * s.params.outFrames → P m → P (m.write i v))
    (hf : ∀ m v, P m → P (m.write (outIndex f c) v)) (h : P s.out) : P (accumulate f c term s).out := by
  simp only [accumulate, writeOut_out]
  exact hf _ _ (agentsMove_out_induct P _ (by simpa using hw) (agentsMove_out_induct P _ hw h))

theorem produced_out_induct (P : Mem 32 → Prop) (f : Nat) (s : State)
    (hw : ∀ m i v, i < 2 * s.params.outFrames → P m → P (m.write i v))
    (hf : ∀ m c v, c < 2 → P m → P (m.write (outIndex f c) v)) (h : P s.out) : P (produced f s).out := by
  simp only [produced, produceOneFrame, volAccumulate]
  exact agentsMove_out_induct P _ (by simpa using hw)
    (accumulate_out_induct P _ _ _ _ (by simpa using hw) (fun m v => hf m 1 v (by decide))
      (accumulate_out_induct P _ _ _ _ hw (fun m v => hf m 0 v (by decide)) h))

/-! ### With no moves of other agents -/

@[simp] theorem stageChannel_raceFree {s : State} (h : s.races = []) (c : Nat) :
    stageChannel c s =
      s.writeHist (s.histIndex (s.regs.impulse.toNat + s.regs.h.toNat) c) (s.inp.read (s.inpIndex c)) := by
  simp [stageChannel, agentsMove_raceFree h]

theorem readAgain_raceFree {s : State} (h : s.races = []) :
    (readAgain s).races = [] ∧ (readAgain s).inp = s.inp ∧ (readAgain s).out = s.out ∧
      (readAgain s).observed = s.observed := by
  unfold readAgain
  generalize s.channels = n
  induction n with
  | zero => exact ⟨h, rfl, rfl, rfl⟩
  | succ m ih =>
    simp only [forUp]
    rw [stageChannel_raceFree ih.1]
    exact ih

theorem readAdvance_raceFree {s : State} (h : s.races = []) :
    (readAdvance s).races = [] ∧ (readAdvance s).inp = s.inp ∧ (readAdvance s).out = s.out ∧
      (readAdvance s).observed = s.observed := by
  simpa [readAdvance] using readAgain_raceFree (s := advanceImpulse s) (by simpa using h)

/-- A consumed frame leaves INP and OUT alone, and nothing is observed. -/
theorem consumeFrame_raceFree {s : State} (h : s.races = []) :
    (consumeFrame s).races = [] ∧ (consumeFrame s).inp = s.inp ∧ (consumeFrame s).out = s.out ∧
      (consumeFrame s).observed = s.observed := by
  have := readAdvance_raceFree h
  unfold consumeFrame
  dsimp only
  split <;> simpa using this

/-- An accumulation is one write of OUT (R247). -/
theorem accumulate_raceFree {s : State} (h : s.races = []) (f c : Nat) (term : Int) :
    accumulate f c term s = s.writeOut f c (BitVec.ofInt 32 (sat32 ((s.outAt f c).toInt + term))) := by
  unfold accumulate
  simp [agentsMove_raceFree h]

/-- A produced frame is two writes of OUT, channel 0 first, and the phase step (R247, R260). -/
theorem produced_raceFree {s : State} (h : s.races = []) (f : Nat) :
    produced f s =
      let aR := if s.regs.c = 2 then accOf s 1 else accOf s 0
      let t := s.writeOut f 0 (BitVec.ofInt 32
        (sat32 ((s.outAt f 0).toInt + scale (acc30 s.regs (accOf s 0)) s.regs.volL)))
      { t.writeOut f 1 (BitVec.ofInt 32 (sat32 ((t.outAt f 1).toInt + scale (acc30 s.regs aR) s.regs.volR))) with
        regs := s.regs.phaseStep } := by
  simp only [produced, produceOneFrame, volAccumulate]
  rw [accumulate_raceFree h, accumulate_raceFree (by simpa using h), agentsMove_raceFree (by simpa using h)]
  rw [apply_ite (acc30 s.regs)]

theorem produced_eq_raceFree {s : State} (h : s.races = []) (f : Nat) :
    produced f s = { s with out := (produced f s).out, regs := s.regs.phaseStep } := by
  rw [produced_raceFree h]
  rfl

/-- The frame produced is the only one written. -/
theorem produced_outAt_other {s : State} (h : s.races = []) (hw : s.out.wf = true) {f g c : Nat} (hc : c < 2)
    (hg : g ≠ f) : (produced f s).outAt g c = s.outAt g c := by
  rw [produced_raceFree h]
  simp only [State.outAt, writeOut_out]
  rw [Mem.read_write (Mem.wf_write hw _ _), if_neg (by unfold outIndex; omega), Mem.read_write hw,
    if_neg (by unfold outIndex; omega)]

theorem produced_out_wf {s : State} (h : s.races = []) (hw : s.out.wf = true) (f : Nat) :
    (produced f s).out.wf = true := by
  rw [produced_raceFree h]
  exact Mem.wf_write (Mem.wf_write hw _ _) _ _

/-- A consumed frame as a record: HIST, registers and events. -/
theorem consumeFrame_eq_raceFree {s : State} (h : s.races = []) :
    consumeFrame s =
      { s with hist := (readAdvance s).hist, regs := (consumeFrame s).regs, events := (consumeFrame s).events } := by
  have h1 := consumeFrame_raceFree h
  have h2 := consumeFrame_keeps s
  have h3 := consumeFrame_hist s
  cases hx : consumeFrame s
  rw [hx] at h1 h2 h3
  simp at h1 h2 h3
  simp_all

end Sys2Proof.Machine
end

