-- ==== Sys2Proof/Laws/Invariant.lean ====
section
/-! SUPPORT. What the register invariant gives, and which register updates keep it. -/

namespace Sys2Proof.Machine

/-- WRAP as a product (R37). -/
theorem Regs.wrap_eq (r : Regs) : r.wrap = r.l.toNat * 2 ^ r.shift.toNat := by
  simp [Regs.wrap, Nat.shiftLeft_eq]

namespace Regs.Inv

variable {p : Params} {r : Regs}

/-- In Ready constants and a history buffer exist. -/
theorem ready_valid (h : r.Inv p) (hr : r.state = .ready) : r.constValid = true ∧ r.histValid = true := by
  have := h.constStates.2 (.inr (.inl hr))
  exact ⟨this, by rw [h.histStates, this]⟩

/-- WRAP is at least 63 while constants exist. -/
theorem wrap_ge (h : r.Inv p) (hv : r.constValid = true) : 63 ≤ r.wrap := by
  have := (h.phases hv).1
  rw [Regs.wrap_eq]
  exact le_trans this (Nat.le_mul_of_pos_right _ (by positivity))

/-- H is one of the half-lengths of rule R156. -/
theorem h_range (h : r.Inv p) (hv : r.constValid = true) : 8 ≤ r.h.toNat ∧ r.h.toNat ≤ 32 := by
  have hd := (deriveConstants_some (h.designed hv)).2.2.2.1
  dsimp only at hd
  rw [hd]
  exact ⟨tierH_pos _ _, tierH_le _ _⟩

theorem channels_le (h : r.Inv p) : r.c.toNat ≤ 2 := by
  by_cases hs : r.state = .unconfigured
  · rw [(h.unconfigured hs).2.1]; decide
  · rcases (h.configured hs).1 with hc | hc <;> rw [hc] <;> decide

/-- LAST_ERR, RESULT and SHORT take no part in the invariant. -/
theorem answered (h : r.Inv p) (e : Status) (res : Word) (sh : Bool) :
    { r with lastErr := e, result := res, short := sh }.Inv p := { h with }

theorem lastErr (h : r.Inv p) (e : Status) : { r with lastErr := e }.Inv p := { h with }

theorem gains (h : r.Inv p) (l rr : BitVec 16) : { r with volL := l, volR := rr }.Inv p := { h with }

/-- Entering Fault in a RESAMPLE keeps the invariant (R366). -/
theorem raise (h : r.Inv p) (hr : r.state = .ready) (e : Status) (res : Word) (sh : Bool) :
    { r with state := .fault, faultCause := .providerRange, lastErr := e, result := res, short := sh }.Inv p :=
  { h with
    faultCause := by simp
    unconfigured := by simp
    configured := fun _ => h.configured (by rw [hr]; decide)
    constStates := by simpa using (h.ready_valid hr).1 }

/-- An accepted descriptor is inside INP and not empty (R41). -/
theorem hold (h : r.Inv p) (d : Descriptor) (h0 : d.frames ≠ 0)
    (hv : r.constValid = true) (hin : d.base.toNat + d.frames.toNat * r.c.toNat ≤ p.inpWords) :
    { r with held := true, heldBase := d.base, heldFrames := d.frames, inputIndex := 0 }.Inv p :=
  { h with
    constZero := by simp [hv]
    heldBlock := by
      intro _
      refine ⟨?_, hin⟩
      have : d.frames.toNat ≠ 0 := fun hz => h0 (BitVec.eq_of_toNat_eq (by simpa using hz))
      simpa using Nat.pos_of_ne_zero this
    heldZero := by simp }

/-- Any IMPULSE inside the ring may stand (R210). -/
theorem moveImpulse (h : r.Inv p) (hv : r.histValid = true) (i : BitVec 16) (h1 : r.h.toNat ≤ i.toNat)
    (h2 : i.toNat < r.ringFull.toNat) : { r with impulse := i }.Inv p :=
  { h with
    constZero := by intro hc; rw [h.histStates] at hv; simp [hv] at hc
    ring := fun hr => ⟨(h.ring hr).1, (h.ring hr).2.1, h1, h2⟩ }

/-- One consumed frame: INPUT_INDEX and PENDING move by one, and a used-up block is dropped (R302, R303). -/
theorem countInput (h : r.Inv p) (hv : r.constValid = true) (hh : r.held = true) (hp : 0 < r.pending.toNat) :
    (if r.inputIndex + 1 = r.heldFrames then
        { r with inputIndex := r.inputIndex + 1, pending := r.pending - 1 }.dropHeld
      else { r with inputIndex := r.inputIndex + 1, pending := r.pending - 1 }).Inv p := by
  have hb := h.heldBlock hh
  have hpend : (r.pending - 1).toNat < 2 ^ 27 := by
    have := h.pendingBound
    rw [pred_toNat (m := r.pending.toNat - 1) (by omega)]; omega
  split
  · exact { h with
      constZero := by simp [Regs.dropHeld, hv]
      pendingBound := hpend
      heldBlock := by simp [Regs.dropHeld]
      heldZero := by simp [Regs.dropHeld] }
  · rename_i hne
    exact { h with
      constZero := by simp [hv]
      pendingBound := hpend
      heldBlock := by
        intro _
        refine ⟨?_, hb.2⟩
        have hlt := r.heldFrames.isLt
        have e : (r.inputIndex + 1).toNat = r.inputIndex.toNat + 1 := by
          rw [BitVec.toNat_add]; simp; omega
        have : (r.inputIndex + 1).toNat ≠ r.heldFrames.toNat := fun he => hne (BitVec.eq_of_toNat_eq he)
        dsimp only; omega
      heldZero := by simp [hh] }

/-- The numbers PHASE_STEP stores (R260, R261). -/
theorem phaseStep_values (h : r.Inv p) (hv : r.constValid = true) (hp : r.pending = 0) :
    r.phaseStep.phase.toNat = (r.phase.toNat + r.inc.toNat) % r.wrap ∧
      r.phaseStep.pending.toNat = (r.phase.toNat + r.inc.toNat) / r.wrap := by
  have hw := h.wrap_ge hv
  have hph := h.phase hv
  have hm := Nat.mod_lt (r.phase.toNat + r.inc.toNat) (show 0 < r.wrap by omega)
  have hd : (r.phase.toNat + r.inc.toNat) / r.wrap ≤ r.phase.toNat + r.inc.toNat := Nat.div_le_self _ _
  constructor
  · simp only [Regs.phaseStep, BitVec.toNat_ofNat]; apply Nat.mod_eq_of_lt; omega
  · simp only [Regs.phaseStep, BitVec.toNat_ofNat, hp]
    rw [show (0 : Word).toNat = 0 from rfl, Nat.zero_add]
    apply Nat.mod_eq_of_lt; omega

/-- PHASE_STEP keeps the invariant, the locked fraction among it (R260, R264). -/
theorem stepPhase (h : r.Inv p) (hv : r.constValid = true) (hp : r.pending = 0) : r.phaseStep.Inv p := by
  have hw := h.wrap_ge hv
  have hph := h.phase hv
  obtain ⟨e1, e2⟩ := h.phaseStep_values hv hp
  exact { h with
    constZero := by simp [Regs.phaseStep, hv]
    phase := by
      intro _
      refine ⟨?_, hph.2⟩
      rw [e1]
      exact Nat.mod_lt _ (by omega)
    lockedPhase := by
      intro _
      have hl := h.lockedPhase hv
      refine ⟨hl.1, ?_⟩
      intro hlk
      have hlk' : r.locked = true := hlk
      have h1 := hl.2 hlk'
      have h2 : r.inc.toNat % 2 ^ r.shift.toNat = 0 := by
        have := hl.1
        rw [hlk'] at this
        simpa [lockedTest] using this.symm
      rw [e1]
      have hdvd : 2 ^ r.shift.toNat ∣ r.wrap := by rw [Regs.wrap_eq]; exact Dvd.intro_left _ rfl
      have hs : (r.phase.toNat + r.inc.toNat) % 2 ^ r.shift.toNat = 0 := by
        rw [Nat.add_mod, h1, h2]; simp
      show (r.phase.toNat + r.inc.toNat) % r.wrap % 2 ^ r.shift.toNat = 0
      rw [Nat.mod_mod_of_dvd _ hdvd]; exact hs
    pendingBound := by
      rw [e2]
      rw [Nat.div_lt_iff_lt_mul (by omega)]; nlinarith }

end Regs.Inv

/-! ### The ring -/

/-- The window's ends under the invariant's ring part: H ≤ 32, RING_FULL ≥ 3H, all inside 16 bits. -/
theorem advanceImpulse_ring {s : State} (h1 : s.regs.h.toNat ≤ s.regs.impulse.toNat)
    (h2 : s.regs.impulse.toNat < s.regs.ringFull.toNat) (h3 : 2 * s.regs.h.toNat ≤ s.regs.ringFull.toNat)
    (h4 : 0 < s.regs.h.toNat) :
    s.regs.h.toNat ≤ (advanceImpulse s).regs.impulse.toNat ∧
      (advanceImpulse s).regs.impulse.toNat < s.regs.ringFull.toNat := by
  have hlt := s.regs.ringFull.isLt
  have e : (s.regs.impulse + 1).toNat = s.regs.impulse.toNat + 1 := by
    rw [BitVec.toNat_add]; simp; omega
  unfold advanceImpulse
  dsimp only
  split
  · rename_i hc
    simp only [compact, BitVec.toNat_ofNat]
    rw [Nat.mod_eq_of_lt (by omega)]
    omega
  · rename_i hc
    dsimp only
    omega

@[simp] theorem readAdvance_impulse (s : State) : (readAdvance s).regs.impulse = (advanceImpulse s).regs.impulse := by
  simp [readAdvance]

/-- Consuming a frame keeps the register invariant. -/
theorem consumeFrame_inv {p : Params} {s : State} (hl : p.legal = true) (h : s.regs.Inv p)
    (hv : s.regs.constValid = true) (hh : s.regs.held = true) (hpend : 0 < s.regs.pending.toNat) :
    (consumeFrame s).regs.Inv p := by
  have hhv : s.regs.histValid = true := by rw [h.histStates, hv]
  have hr := h.ring hhv
  have hH := h.h_range hv
  have hm : 2 ≤ p.stateMult := by simp [Params.legal] at hl; omega
  have hF : ringFrames p s.regs.h.toNat ≥ 4 * s.regs.h.toNat := by unfold ringFrames; nlinarith
  have ha := advanceImpulse_ring (s := s) hr.2.2.1 hr.2.2.2 (by omega) (by omega)
  have h' := h.moveImpulse hhv (readAdvance s).regs.impulse (by simpa using ha.1) (by simpa using ha.2)
  rw [consumeFrame_regs]
  exact h'.countInput hv hh hpend

/-! ### Memories and banks -/

/-- A state with the same memories has its memories in the same order. -/
theorem State.MemInv.congr {s t : State} (h : s.MemInv) (hp : t.params = s.params) (hi : t.inp = s.inp)
    (ho : t.out = s.out) (hh : t.hist = s.hist) (ha : t.acoef = s.acoef) (hs : t.scoef = s.scoef) : t.MemInv where
  inp := by rw [hi, hp]; exact h.inp
  out := by rw [ho, hp]; exact h.out
  hist := by rw [hh, hp]; exact h.hist
  acoef := by rw [ha]; exact h.acoef
  scoef := by rw [hs]; exact h.scoef

/-- The tap widths stay as they are while the banks, their size and the count do, and Ready is not entered. -/
theorem State.BankInv.congr {s t : State} (h : s.BankInv) (hw : t.regs.coef32 = s.regs.coef32)
    (hc : t.regs.coefCount = s.regs.coefCount) (hz : t.regs.bankSize = s.regs.bankSize)
    (hr : t.regs.state = .ready → s.regs.state = .ready) (ha : t.acoef = s.acoef) (hs : t.scoef = s.scoef) :
    t.BankInv where
  staged := by rw [hw, hs, hc]; exact h.staged
  active := by rw [hw, hz, ha]; exact fun hl ht => h.active hl (hr ht)

end Sys2Proof.Machine
end

