-- ==== Sys2Proof/Laws/PerInstr.lean ====
section
/-! SUPPORT. What is said of every command as syntax, one lemma per constructor. -/

namespace Sys2Proof.Laws.SpellsItsRow

open Sys2Proof

/-- The packet of a command, whatever its operands, lies in the command's row of the opcode map: its opcode byte is the
row's and every reserved bit is 0 (R112, R123). -/
def Statement (i : Instr) : Prop :=
  ∃ row ∈ opcodeRows, row.opcode = i.opcode ∧ encode i &&& row.mask = row.pattern

theorem nop : Statement .nop := ⟨⟨.nop, 0, 0xFFFFFFFFFFFFFFFF⟩, by decide, rfl, by decide⟩

theorem create (tier chan bits : Nat) (outRate : Int) : Statement (.create tier chan bits outRate) := by
  refine ⟨⟨.create, 0x0100000000000000, 0xFFFFC0CC00000000⟩, by decide, rfl, ?_⟩
  simp only [encode, or_and_packet]
  rw [place_and_zero (BitVec.ofNat 6 bits) _ _ (by decide), place_and_zero (BitVec.ofNat 2 chan) _ _ (by decide),
    place_and_zero (BitVec.ofNat 2 tier) _ _ (by decide), place_and_zero (BitVec.ofInt 32 outRate) _ _ (by decide)]
  decide

theorem setRate (inRate : Int) : Statement (.setRate inRate) := by
  refine ⟨⟨.setRate, 0x0200000000000000, 0xFFFFFFFF00000000⟩, by decide, rfl, ?_⟩
  simp only [encode, or_and_packet]
  rw [place_and_zero (BitVec.ofInt 32 inRate) _ _ (by decide)]
  decide

theorem setVolume (gainL gainR : BitVec 16) : Statement (.setVolume gainL gainR) := by
  refine ⟨⟨.setVolume, 0x0300000000000000, 0xFFFFFFFF00000000⟩, by decide, rfl, ?_⟩
  simp only [encode, or_and_packet]
  rw [place_and_zero gainR _ _ (by decide), place_and_zero gainL _ _ (by decide)]
  decide

theorem resample (count base : Nat) : Statement (.resample count base) := by
  refine ⟨⟨.resample, 0x0400000000000000, 0xFF00000000000000⟩, by decide, rfl, ?_⟩
  simp only [encode, or_and_packet]
  rw [place_and_zero (BitVec.ofNat 24 count) _ _ (by decide), place_and_zero (BitVec.ofNat 32 base) _ _ (by decide)]
  decide

theorem coefWrite (start : Bool) (value : Word) : Statement (.coefWrite start value) := by
  refine ⟨⟨.coefWrite, 0x0500000000000000, 0xFFFFFFFE00000000⟩, by decide, rfl, ?_⟩
  simp only [encode, or_and_packet]
  rw [place_and_zero (BitVec.ofBool start) _ _ (by decide), place_and_zero value _ _ (by decide)]
  decide

theorem coefCommit : Statement .coefCommit :=
  ⟨⟨.coefCommit, 0x0600000000000000, 0xFFFFFFFFFFFFFFFF⟩, by decide, rfl, by decide⟩

theorem reset : Statement .reset := ⟨⟨.reset, 0x0700000000000000, 0xFFFFFFFFFFFFFFFF⟩, by decide, rfl, by decide⟩

theorem readReg (regnum : Nat) : Statement (.readReg regnum) := by
  refine ⟨⟨.readReg, 0x0800000000000000, 0xFFFFFF00FFFFFFFF⟩, by decide, rfl, ?_⟩
  simp only [encode, or_and_packet]
  rw [place_and_zero (BitVec.ofNat 8 regnum) _ _ (by decide)]
  decide

end Sys2Proof.Laws.SpellsItsRow
end

