-- ==== Sys2Proof/Laws/Ring.lean ====
section
/-! SUPPORT. What HIST holds after each operation of the ring buffer, element by element (41_ring_buffer.md). -/

namespace Sys2Proof.Machine

/-- Reading after a fill with a function of the index. -/
theorem Mem.read_fill_range {w : Nat} {m : Mem w} (h : m.wf = true) (n i : Nat) (f : Nat → BitVec w) :
    (m.fill 0 ((List.range n).map f)).read i = if i < n then f i else m.read i := by
  rw [Mem.read_fill h]
  by_cases hi : i < n <;> simp [hi]

/-- RB_READ_AGAIN: frame IMPULSE + H is the frame of INP at INPUT_INDEX, every other element stays (R207). -/
theorem readAgain_read {s : State} (hr : s.races = []) (hw : s.hist.wf = true) (i : Nat) :
    (readAgain s).hist.read i =
      let first := (s.regs.impulse.toNat + s.regs.h.toNat) * s.channels
      if first ≤ i ∧ i < first + s.channels then s.inp.read (s.inpIndex (i - first)) else s.hist.read i := by
  unfold readAgain
  dsimp only
  generalize hfirst : (s.regs.impulse.toNat + s.regs.h.toNat) * s.channels = first
  have key : ∀ n, (forUp n stageChannel s).races = [] ∧ (forUp n stageChannel s).inp = s.inp ∧
      (forUp n stageChannel s).hist.wf = true ∧
      ∀ i, (forUp n stageChannel s).hist.read i =
        if first ≤ i ∧ i < first + n then s.inp.read (s.inpIndex (i - first)) else s.hist.read i := by
    intro n
    induction n with
    | zero => exact ⟨hr, rfl, hw, fun i => by rw [if_neg (by omega)]; rfl⟩
    | succ m ih =>
      obtain ⟨h1, h2, h3, h4⟩ := ih
      have hk := forUp_stageChannel_keeps m s
      have hregs : (forUp m stageChannel s).regs = s.regs := hk.2.1
      have hidx : (forUp m stageChannel s).histIndex
          ((forUp m stageChannel s).regs.impulse.toNat + (forUp m stageChannel s).regs.h.toNat) m = first + m := by
        simp only [State.histIndex, State.channels, hregs]
        rw [← hfirst]; rfl
      have hinp : (forUp m stageChannel s).inpIndex m = s.inpIndex m := by
        simp only [State.inpIndex, State.channels, hregs]
      simp only [forUp]
      rw [stageChannel_raceFree h1, hidx, hinp, h2]
      refine ⟨h1, h2, Mem.wf_write h3 _ _, ?_⟩
      intro i
      rw [writeHist_hist, Mem.read_write h3, h4]
      by_cases hi : i = first + m
      · subst hi
        rw [if_pos rfl, if_pos (by omega), show first + m - first = m by omega]
      · rw [if_neg hi]
        by_cases hin : first ≤ i ∧ i < first + m
        · rw [if_pos hin, if_pos (by omega)]
        · rw [if_neg hin, if_neg (by omega)]
  exact (key s.channels).2.2.2 i

/-- The compaction moves the trailing 2H frames to the start (R208, R209). -/
theorem compact_read {s : State} (hw : s.hist.wf = true) (i : Nat) :
    (compact s).hist.read i =
      if i < 2 * s.regs.h.toNat * s.channels then
        s.histAt ((s.regs.ringFull.toNat - s.regs.h.toNat) * s.channels + i)
      else s.hist.read i := by
  unfold compact
  exact Mem.read_fill_range hw _ _ _

/-- RB_RESIZE to a new size: elements below F · C are the resized buffer's, the others stay (R202). -/
theorem rbResize_read {s : State} {hn : Nat} (hw : s.hist.wf = true)
    (hne : ¬(s.regs.histValid = true ∧ s.regs.histFrames.toNat = ringFrames s.params hn)) (i : Nat) :
    (rbResize hn s).hist.read i =
      if i < ringFrames s.params hn * s.channels then resizedElem s hn i else s.hist.read i := by
  unfold rbResize
  dsimp only
  rw [if_neg hne]
  exact Mem.read_fill_range hw _ _ _

end Sys2Proof.Machine
end

