-- ==== Sys2Proof/Tests/Slice0.lean ====
section
/-! SUPPORT. Tests: the checks of WellFormed refuse ill-formed terms, words written out from the encodings decode, one or two
single steps per command with the spec's own numbers (95_test_vectors.md), and for every statement with hypotheses a state
and operands that meet them. -/

open Sys2Proof Sys2Proof.Machine Sys2Proof.Claims

namespace Sys2Proof.Tests

/-! ### WellFormed refuses (R112) -/

theorem test_wf_tier : (Instr.create 4 1 16 48000).wellFormed = false := by decide
theorem test_wf_chan : (Instr.create 0 4 16 48000).wellFormed = false := by decide
theorem test_wf_bits : (Instr.create 0 1 64 48000).wellFormed = false := by decide
theorem test_wf_outRate_high : (Instr.create 0 1 16 (2 ^ 31)).wellFormed = false := by decide
theorem test_wf_outRate_low : (Instr.create 0 1 16 (-2 ^ 31 - 1)).wellFormed = false := by decide
theorem test_wf_inRate : (Instr.setRate (2 ^ 31)).wellFormed = false := by decide
theorem test_wf_count : (Instr.resample (2 ^ 24) 0).wellFormed = false := by decide
theorem test_wf_base : (Instr.resample 0 (2 ^ 32)).wellFormed = false := by decide
theorem test_wf_regnum : (Instr.readReg 256).wellFormed = false := by decide

/-! ### Decoding, the words written out field by field from rule R112 -/

/-- {opcode 0x00, all else 0}. -/
theorem test_decode_nop : decode 0x0000000000000000 = .ok .nop := by decide

/-- {0x01, 0000000000, BITS 010000, 00, CHAN 10, 00, TIER 10, OUTRATE}: 16 << 8 | 2 << 4 | 2. -/
theorem test_decode_create :
    decode 0b0000000100000000000100000010001000000000000000000101011000100010 = .ok (.create 2 2 16 22050) := by decide

/-- Every operand at the top of its field: BITS 63, CHAN 3, TIER 3, OUTRATE −1. -/
theorem test_decode_create_top : decode 0x01003F33FFFFFFFF = .ok (.create 3 3 63 (-1)) := by decide

/-- {0x02, 24 zeros, INRATE}: the most negative rate still decodes (R114, R126). -/
theorem test_decode_setRate : decode 0x0200000080000000 = .ok (.setRate (-2147483648)) := by decide

/-- GAIN_L is OP[15:0], GAIN_R is OP[31:16]. -/
theorem test_decode_setVolume : decode 0x0300000008001000 = .ok (.setVolume 0x1000 0x0800) := by decide

/-- COUNT is CW[23:0], BASE is OP. -/
theorem test_decode_resample : decode 0x04FFFFFF80000001 = .ok (.resample 0xFFFFFF 0x80000001) := by decide

/-- START is CW[0], VALUE is OP. -/
theorem test_decode_coefWrite : decode 0x0500000100007FFF = .ok (.coefWrite true 0x7FFF) := by decide

theorem test_decode_coefCommit : decode 0x0600000000000000 = .ok .coefCommit := by decide

theorem test_decode_reset : decode 0x0700000000000000 = .ok .reset := by decide

/-- REGNUM is CW[7:0]. -/
theorem test_decode_readReg : decode 0x080000FF00000000 = .ok (.readReg 255) := by decide

/-- Reserved bits and reserved opcodes, 95_test_vectors.md 2.1. -/
theorem test_decode_refuses :
    decode 0x0000000000000001 = .error .reservedBit ∧ decode 0x0200000100000000 = .error .reservedBit ∧
    decode 0x0500000200000000 = .error .reservedBit ∧ decode 0x0800010000000000 = .error .reservedBit ∧
    decode 0x010000040000BB80 = .error .reservedBit ∧ decode 0x0900000000000000 = .error .reservedOpcode ∧
    decode 0xFF00000000000000 = .error .reservedOpcode := by decide

/-- The host's numbering of a row's bits is P[63:0]. -/
theorem test_tableWord :
    decodeTableWord 64 0x0400177000000000 = some (.resample 6000 0) ∧ decodeTableWord 64 0x0900000000000000 = none := by
  decide

/-- A packet on a little-endian bus: CW first, least significant byte first (R81). -/
theorem test_packetBytes :
    packetBytes .little 0x010010100000BB80 = [0x10, 0x10, 0x00, 0x01, 0x80, 0xBB, 0x00, 0x00] := by decide

/-- The assembly line of rule R127. -/
theorem test_text : (Instr.create 0 1 16 48000).text = "CREATE LOW, 1, 16, 48000" := by decide

/-! ### States for single steps -/

/-- The state a command leaves. -/
def after (i : Instr) (s : State) : State :=
  match exec i s with
  | .next t => t
  | .fault _ => s
  | .refused _ => s

theorem exec_after (i : Instr) (s : State) : exec i s = .next (after i s) := by cases i <;> rfl

/-- After `CREATE LOW, 1, 16, 48000`. -/
def created : State :=
  { State.reset with regs := { Regs.powerOn with state := .uninitialized, c := 1, bitDepth := 16, outRate := 48000 } }

/-- The 48000 → 48000 constants of 95_test_vectors.md 2.2 (LOW, mono), ready, with a ring at its first frames. -/
def readyRegs : Regs :=
  { created.regs with
    state := .ready, inRate := 48000, filterRate := 48000, l := 64, shift := 24, h := 8, constValid := true
    designAtten := 80, inc := 0x40000000, locked := true, histValid := true, histFrames := 64, impulse := 8
    ringFull := 56, volL := 0x1000, volR := 0x1000 }

/-- Ready, the one tap of the bank 0x4000 in row 0, no input owed. -/
def ready : State := { created with regs := readyRegs, acoef := [(0, 0x4000)] }

/-- Ready with one input frame owed and no block held. -/
def owing : State := { ready with regs := { readyRegs with pending := 1 } }

/-- Ready with one frame owed and a block of `frames` frames held at INP element 0. -/
def holding (frames : Word) : State :=
  { ready with regs := { readyRegs with pending := 1, held := true, heldFrames := frames } }

/-- RateSet with the 8000 → 48000 constants of rule R290's example. -/
def rateSet : State :=
  { created with regs := { created.regs with
      state := .rateSet, inRate := 8000, filterRate := 8000, l := 96, shift := 23, h := 8, constValid := true
      designAtten := 80, inc := 0x08000000, locked := true, histValid := true, histFrames := 64, impulse := 8
      ringFull := 56 } }

/-- In Fault after a provider violation. -/
def faulted : State :=
  { ready with regs := { readyRegs with
      state := .fault, faultCause := .providerRange, lastErr := .errFault, short := true, result := 1, pending := 1 } }

/-- A provider that hands over `frames` frames at `base`. -/
def block (base frames : Word) : ProviderAnswer := ⟨[], some ⟨base, frames⟩⟩

/-! ### One or two steps per command -/

/-- R284. -/
theorem test_nop : (after .nop faulted).responses = [⟨.ok, 0⟩] ∧ (after .nop faulted).regs = faulted.regs := by decide

/-- R285's example: the registers of `created`. -/
theorem test_create : after (.create 0 1 16 48000) State.reset =
    { created with responses := [⟨.ok, 0⟩], histEpoch := 1 } := by decide

/-- 2.1: TIER 3 is answered ERR_CONFIG. -/
theorem test_create_tier3 : (after (.create 3 1 16 48000) ready).responses = [⟨.errConfig, 0⟩] ∧
    (after (.create 3 1 16 48000) ready).regs.state = .ready := by decide

/-- R290's example. -/
theorem test_setRate_8000 : (after (.setRate 8000) created).responses = [⟨.ok, 3⟩] ∧
    (after (.setRate 8000) created).regs = rateSet.regs := by decide

/-- 2.9: SET_RATE 44100 in Ready keeps the constants: INC 0x3ACCCCCD, LOCKED 0, {OK, 0}. -/
theorem test_setRate_44100 : (after (.setRate 44100) ready).responses = [⟨.ok, 0⟩] ∧
    (after (.setRate 44100) ready).regs = { readyRegs with inRate := 44100, inc := 0x3ACCCCCD, locked := false } := by
  decide

/-- R299's example. -/
theorem test_setVolume :
    (after (.readReg 0x09) (after (.setVolume 0x1000 0x0800) created)).responses = [⟨.ok, 0⟩, ⟨.ok, 0x08001000⟩] := by
  decide

/-- R247's example: OUT = {5, −5}, acc30 = 2^15 (tap 0x4000 on a sample of 2), unity: {4101, 4091}. -/
theorem test_resample_accumulates :
    let t := after (.resample 1 0) { ready with hist := [(8, 2)], out := [(0, 5), (1, -5)] }
    t.outAt 0 0 = 4101 ∧ t.outAt 0 1 = 4091 ∧ t.responses = [⟨.ok, 1⟩] ∧ t.regs.pending = 1 := by decide

/-- Program P3, line 5: a descriptor of two frames at 65535 ends the command with {ERR_FAULT, k}. -/
theorem test_resample_fault :
    let t := after (.resample 4 0) { owing with provider := [block 65535 2] }
    t.responses = [⟨.errFault, 0⟩] ∧ t.regs.state = .fault ∧ t.regs.faultCause = .providerRange ∧ t.regs.held = false := by
  decide

/-- Other agents' accesses at one point, in their order: a read after a write sees the new value (R84, R93). -/
theorem test_agentsMove :
    let t := agentsMove { ready with races := [[.write (.out 0 0 7), .read (.out 0 0), .write (.inp 1 3)], [.read (.inp 1)]] }
    t.out = [(0, 7)] ∧ t.inp = [(1, 3)] ∧ t.observed = [.out 0 0 7] ∧ t.races = [[.read (.inp 1)]] := by decide

/-- 2.9: COEF_WRITE 0x8000 in a 16-bit bank answers {ERR_RANGE, COEF_COUNT}. -/
theorem test_coefWrite_range :
    let s := { rateSet with regs := { rateSet.regs with coefCount := 2 } }
    (after (.coefWrite false 0x8000) s).responses = [⟨.errRange, 2⟩] := by decide

/-- R315's example: COEF_WRITE.S 0x7FFF answers {OK, 1} with SCOEF[0] = 32767. -/
theorem test_coefWrite_start : (after (.coefWrite true 0x7FFF) rateSet).responses = [⟨.ok, 1⟩] ∧
    (after (.coefWrite true 0x7FFF) rateSet).scoef = [(0, 32767)] := by decide

/-- 2.9: COEF_COMMIT of 776 elements sets Ready and copies the bank; one element fewer is {ERR_STATE, 775}. -/
theorem test_coefCommit :
    let s := { rateSet with regs := { rateSet.regs with coefCount := 776 }, scoef := [(1, 5), (776, 9)], acoef := [(0, 7)] }
    (after .coefCommit s).responses = [⟨.ok, 776⟩] ∧ (after .coefCommit s).acoef = [(1, 5)] ∧
      (after .coefCommit s).regs.state = .ready := by decide

theorem test_coefCommit_incomplete :
    (after .coefCommit { rateSet with regs := { rateSet.regs with coefCount := 775 } }).responses = [⟨.errState, 775⟩] := by
  decide

/-- R320's example: a held block {100, 50} is released. -/
theorem test_reset :
    let s := { ready with regs := { readyRegs with held := true, heldBase := 100, heldFrames := 50, inputIndex := 7 } }
    (after .reset s).events = [.releaseBuffer ⟨100, 50⟩] ∧ (after .reset s).responses = [⟨.ok, 0⟩] ∧
      (after .reset s).regs = { created.regs with volL := 0x1000, volR := 0x1000 } := by decide

/-- R330's examples: FILTER reads 0x00081760 and STATUS 0x00003602 after SET_RATE 8000. -/
theorem test_readReg : (after (.readReg 0x05) rateSet).responses = [⟨.ok, 0x00081760⟩] ∧
    (after (.readReg 0x00) rateSet).responses = [⟨.ok, 0x00003602⟩] := by decide

/-- A response as 40 bits: ERR_FAULT is 5 (R111, R350). -/
theorem test_response_bits : (Response.mk .errFault 3).bits = 0x0500000003 := by decide

/-- DISPATCH at power-on with STRIDE 4 (R59). -/
theorem test_readReg_dispatch : (after (.readReg 0x13) State.reset).responses = [⟨.ok, 0x400⟩] := by decide

/-- The packet of a table row is what the next step runs. -/
theorem test_withFetchWord :
    (match step (State.reset.withFetchWord 64 0x010010100000BB80) with
      | .next t => decide (t = after (.create 0 1 16 48000) State.reset)
      | .fault _ => false
      | .refused _ => false) = true := by decide

/-! ### The numbers of 95_test_vectors.md parts 2.2 to 2.8 -/

/-- 2.2: HIGH 22050 / 44100, LOW 48000 / 95999, and the two rows about the coefShift limit. -/
theorem test_constants :
    deriveConstants .high 22050 44100 = some ⟨64, 22, 32, 98⟩ ∧ deriveConstants .low 48000 95999 = some ⟨127, 23, 8, 80⟩ ∧
    deriveConstants .low 1 16777215 = some ⟨64, 0, 16, 80⟩ ∧ deriveConstants .low 1 16777216 = none := by decide

/-- 2.4: the increment is rounded half up. -/
theorem test_incCalc : incCalc 0x3F800000 48000 44100 = 0x3A573333 ∧ incCalc 64 128 1 = 1 := by decide

/-- 2.3: the strict thresholds of the closeness test. -/
theorem test_isFar : isFar {} 44100 49613 44100 = true ∧ isFar {} 44100 49612 44100 = false ∧
    isFar {} 48000 45000 48000 = false := by decide

/-- 2.6. -/
theorem test_interp : interp 15 32767 (-32768) 32767 = -32767 ∧ interp 15 0 (-1) 1 = -1 ∧ interp 15 100 200 0x4000 = 150 := by
  decide

/-- 2.6: the last phase of 127 rows. -/
theorem test_rows :
    let r := { readyRegs with l := 127, shift := 23, phase := 0x3F7FFFFF }
    r.indexP = 126 ∧ r.indexNInterp = 0 ∧ lerpOf 15 23 0x3F7FFFFF = 0x7FFF := by decide

/-- 2.7. -/
theorem test_scale : scale (2 ^ 36) 0xFFFF = 2147483647 ∧ scale (-1) 1 = -1 ∧ scale (1000 * 32767) 0x1000 = 4095875 := by
  decide

/-- 2.8: a step that carries two input frames. -/
theorem test_phaseStep :
    let r := { readyRegs with l := 127, shift := 23, phase := 0x3F7FFFFF, inc := 0x7EFFA94D }
    r.phaseStep.phase = 0x3F7FA94C ∧ r.phaseStep.pending = 2 := by decide

/-- 2.5: the advance that reaches RING_FULL moves frames 48 .. 63 to 0 .. 15 and writes frame 16. -/
theorem test_compaction :
    let s := { holding 2 with regs := { (holding 2).regs with impulse := 55 }, hist := [(48, 32), (63, 47)], inp := [(0, 48)] }
    (readAdvance s).hist = [(0, 32), (15, 47), (16, 48), (48, 32), (63, 47)] ∧ (readAdvance s).regs.impulse = 8 := by decide

/-! ### States that meet the invariant -/

theorem oneTap_sext16 (v : Word) (h : isSext16 v = true) (n : Nat) : Mem.sext16Below [(0, v)] n := by
  intro i _
  simp only [Mem.read]
  split
  · exact h
  · split <;> decide

theorem noTap_sext16 (n : Nat) : Mem.sext16Below [] n := fun _ _ => by
  simp only [Mem.read]
  decide

theorem created_inv : created.Inv where
  params := by decide
  regs := by constructor <;> decide
  waits := by intro w h; cases h
  mems := by constructor <;> decide
  banks := ⟨fun _ => noTap_sext16 _, fun _ _ => noTap_sext16 _⟩

theorem ready_inv : ready.Inv where
  params := by decide
  regs := by constructor <;> decide
  waits := by intro w h; cases h
  mems := by constructor <;> decide
  banks := ⟨fun _ => noTap_sext16 _, fun _ _ => oneTap_sext16 _ (by decide) _⟩

theorem owing_inv : owing.Inv where
  params := by decide
  regs := by constructor <;> decide
  waits := by intro w h; cases h
  mems := by constructor <;> decide
  banks := ⟨fun _ => noTap_sext16 _, fun _ _ => oneTap_sext16 _ (by decide) _⟩

theorem holding_inv : (holding 2).Inv where
  params := by decide
  regs := by constructor <;> decide
  waits := by intro w h; cases h
  mems := by constructor <;> decide
  banks := ⟨fun _ => noTap_sext16 _, fun _ _ => oneTap_sext16 _ (by decide) _⟩

theorem lastHeld_inv : (holding 1).Inv where
  params := by decide
  regs := by constructor <;> decide
  waits := by intro w h; cases h
  mems := by constructor <;> decide
  banks := ⟨fun _ => noTap_sext16 _, fun _ _ => oneTap_sext16 _ (by decide) _⟩

/-- A RESAMPLE of the last OUT frame that waits for its first input frame, as reached from `owing`. -/
def stalled : State := { owing with waiting := some ⟨1, 16383, 0⟩ }

theorem stalled_inv : stalled.Inv where
  params := by decide
  regs := by constructor <;> decide
  waits := by intro w h; cases h; refine ⟨rfl, rfl, ?_, ?_, ?_, ?_⟩ <;> decide
  mems := by constructor <;> decide
  banks := ⟨fun _ => noTap_sext16 _, fun _ _ => oneTap_sext16 _ (by decide) _⟩

/-- A block of two frames held and both owed, as at a rate where every output frame takes two. -/
theorem twoOwed_inv : State.Inv { holding 2 with regs := { (holding 2).regs with pending := 2 } } where
  params := by decide
  regs := by constructor <;> decide
  waits := by simp [holding, ready, created, State.reset]
  mems := by constructor <;> decide
  banks := ⟨fun _ => noTap_sext16 _, fun _ _ => oneTap_sext16 _ (by decide) _⟩

/-- The invariant says nothing of what the host and the provider are about to do. -/
theorem inv_channels {s : State} (h : s.Inv) (host : List HostAction) (provider : List ProviderAnswer) :
    State.Inv { s with host := host, provider := provider } where
  params := h.params
  regs := h.regs
  waits := h.waits
  mems := ⟨h.mems.inp, h.mems.out, h.mems.hist, h.mems.acoef, h.mems.scoef⟩
  banks := ⟨h.banks.staged, h.banks.active⟩

/-- The canonical memories of a state that has one element in each. -/
def filled : State := { ready with inp := [(0, 1)], out := [(0, 1)], hist := [(9, 1)], scoef := [(3, 1)] }

/-! ### Witnesses: a state and operands that meet the hypotheses of each statement, clause by clause at its ends -/

/-- Every operand at the ends of its field (R112). -/
theorem witness_DecodeInvertsEncode :
    (Instr.create 3 3 63 (-2 ^ 31)).wellFormed = true ∧ (Instr.create 0 0 0 (2 ^ 31 - 1)).wellFormed = true ∧
    (Instr.setRate (-2 ^ 31)).wellFormed = true ∧ (Instr.setVolume 0xFFFF 0).wellFormed = true ∧
    (Instr.resample (2 ^ 24 - 1) (2 ^ 32 - 1)).wellFormed = true ∧ (Instr.coefWrite true (-1)).wellFormed = true ∧
    (Instr.readReg 255).wellFormed = true ∧ Instr.nop.wellFormed = true ∧ Instr.coefCommit.wellFormed = true ∧
    Instr.reset.wellFormed = true := by decide

theorem witness_DecodedPacketIsItsEncoding : decode 0x0100102200005622 = .ok (.create 2 2 16 22050) := by decide

theorem witness_BusBytesAreLaidOut : State.reset.params.busEndian = .little ∧ 1 < 2 ∧ 3 < 4 := by decide

theorem witness_StepRunsDecodedPacket :
    (pushPacket 0x0700000000000000 ready).waiting = none ∧
    (pushPacket 0x0700000000000000 ready).host = .send 0x0700000000000000 :: [] ∧
    decode 0x0700000000000000 = .ok .reset := by decide

/-- One packet for each of the three checks, and for each the earlier checks pass (95_test_vectors.md 2.1). -/
theorem witness_CommonChecksInOrder :
    ((pushPacket 0x0900000000000000 faulted).regs.state = .fault ∧
      ¬((0x0900000000000000 : Packet).extractLsb' 56 8 = 0x00 ∨ (0x0900000000000000 : Packet).extractLsb' 56 8 = 0x01 ∨
        (0x0900000000000000 : Packet).extractLsb' 56 8 = 0x07 ∨ (0x0900000000000000 : Packet).extractLsb' 56 8 = 0x08)) ∧
    ((0x0800000000000001 : Packet).extractLsb' 56 8 = 0x08 ∧ decode 0x0800000000000001 = .error .reservedBit) ∧
    (ready.regs.state ≠ .fault ∧ decode 0xFF00000000000000 = .error .reservedOpcode) ∧
    (State.reset.regs.state ≠ .fault ∧ decode 0x0200000000001F40 = .ok (.setRate 8000) ∧
      refusedByState (Instr.setRate 8000).opcode State.reset.regs.state) :=
  ⟨by decide, by decide, by decide, by decide, by decide, rfl⟩

/-- The lowest and the highest reserved opcode. -/
theorem witness_ReservedPacketsAreIllegal :
    decode 0x0900000000000000 = .error .reservedOpcode ∧ decode 0xFFFFFFFFFFFFFFFF = .error .reservedOpcode ∧
    decode 0x0000000000000001 = .error .reservedBit ∧ ready.waiting = none ∧ ready.regs.state ≠ .fault := by decide

theorem witness_AcceptanceTable :
    refusedByState (Instr.setRate 1).opcode State.reset.regs.state ∧
    refusedByState (Instr.setVolume 0 0).opcode State.reset.regs.state ∧
    refusedByState (Instr.resample 1 0).opcode rateSet.regs.state ∧
    refusedByState (Instr.coefWrite true 0).opcode created.regs.state ∧
    refusedByState Instr.coefCommit.opcode created.regs.state ∧
    (faulted.regs.state = .fault ∧ refusedInFault (Instr.coefWrite true 0).opcode) :=
  ⟨rfl, rfl, .inr (.inr (.inl rfl)), .inr rfl, .inr rfl, rfl, by simp [refusedInFault, Instr.opcode]⟩

/-- A refused command, a RESAMPLE that raises Fault at once and one that does after a wait, an illegal packet, and the RESET
that clears LAST_ERR. -/
theorem witness_RefusedCommandChangesOnlyLastErr :
    (∃ t, exec (.setRate 0) ready = .next t ∧ t.responses = ready.responses ++ [⟨.errConfig, 0⟩]) ∧
    (∃ t, exec (.resample 1 0) { owing with provider := [block 65535 2] } = .next t ∧
      t.responses = [] ++ [⟨.errFault, 0⟩]) ∧
    (∃ t, step (pushPacket 0x0900000000000000 ready) = .next t ∧ t.responses = [] ++ [⟨.errIllegal, 0⟩]) ∧
    (∃ t, step { stalled with provider := [block 65535 2] } = .next t ∧ t.responses = [] ++ [⟨.errFault, 0⟩]) ∧
    (∃ t, exec .reset faulted = .next t ∧ faulted.regs.lastErr ≠ .ok ∧ t.regs.lastErr = .ok) :=
  ⟨⟨_, exec_after _ _, by decide⟩, ⟨_, exec_after _ _, by decide⟩, ⟨_, rfl, by decide⟩, ⟨_, rfl, by decide⟩,
    ⟨_, exec_after _ _, by decide, by decide⟩⟩

theorem witness_OneResponsePerPacket :
    (∃ t, step (pushPacket 0 ready) = .next t) ∧ (∃ t, step { stalled with provider := [block 0 1] } = .next t) :=
  ⟨⟨_, rfl⟩, ⟨_, rfl⟩⟩

/-- Idle; a wait in which nothing, nothing but time, one access of each kind or several land; the last element of each
memory, and the first that does not exist. -/
theorem witness_StepsThatRunNoCommand :
    let s (a : HostAction) : State := { State.reset with host := [a] }
    let w (batch : List AgentAccess) : State := { stalled with races := [batch] }
    (ready.waiting = none ∧ ready.host = []) ∧
    (stalled.waiting = some ⟨1, 16383, 0⟩ ∧ stalled.provider = [] ∧ stalled.races = []) ∧
    ((w []).waiting = some ⟨1, 16383, 0⟩ ∧ (w []).provider = [] ∧ (w []).races = [] :: []) ∧
    (w [.write (.inp 65535 1)]).races = [.write (.inp 65535 1)] :: [] ∧
    (w [.read (.out 16383 1), .write (.out 0 0 1)]).races = (.read (.out 16383 1) :: [.write (.out 0 0 1)]) :: [] ∧
    65535 < stalled.params.inpWords ∧ 16383 < stalled.params.outFrames ∧ 1 < 2 ∧
    (s (.write (.inp 65535 1))).waiting = none ∧ (s (.write (.inp 65535 1))).inp.wf = true ∧
    (s (.write (.out 16383 1 1))).out.wf = true ∧ (s (.read (.inp 65535))).host = .read (.inp 65535) :: [] ∧
    State.reset.params.inpWords ≤ 65536 ∧ State.reset.params.outFrames ≤ 16384 := by decide

theorem witness_NopAnswersAndChangesNothing :
    (0x0000000100000000 : Packet).extractLsb' 56 8 = 0x00 ∧ (0x0000000100000000 : Packet) ≠ 0 ∧
    (pushPacket 0x0000000100000000 faulted).waiting = none ∧
    (pushPacket 0x0000000100000000 faulted).host = .send 0x0000000100000000 :: [] := by decide

/-- The smallest and the largest rate, both channel counts, the first and the last tier; then one bad operand at a time, at
the ends of what is bad, and a packet with the reserved bit CW[2] set. -/
theorem witness_CreateConfiguresOrRejects :
    ((0, Tier.low) ∈ [(0, Tier.low), (1, Tier.medium), (2, Tier.high)] ∧ (1 = 1 ∨ 1 = 2) ∧ (0 : Int) < 1 ∧
      (1 : Int) < 2 ^ 31) ∧
    ((2, Tier.high) ∈ [(0, Tier.low), (1, Tier.medium), (2, Tier.high)] ∧ (2 = 1 ∨ 2 = 2) ∧ (0 : Int) < 2 ^ 31 - 1 ∧
      (2 ^ 31 - 1 : Int) < 2 ^ 31) ∧
    ((Instr.create 3 1 16 1).wellFormed = true ∧ (Instr.create 0 0 16 1).wellFormed = true ∧
      (Instr.create 0 3 16 1).wellFormed = true ∧ (Instr.create 0 1 15 1).wellFormed = true ∧
      (Instr.create 0 1 17 1).wellFormed = true ∧ (Instr.create 0 1 16 0).wellFormed = true) ∧
    ((0x010000040000BB80 : Packet).extractLsb' 56 8 = 0x01 ∧
      (0x010000040000BB80 : Packet) &&& 0xFFFFC0CC00000000 ≠ 0x0100000000000000) := by decide

theorem witness_ResetClearsStreamKeepsConfiguration :
    (0x0700000000000001 : Packet).extractLsb' 56 8 = 0x07 ∧ (0x0700000000000001 : Packet) ≠ 0x0700000000000000 := by decide

theorem witness_SetVolumeStoresBothGains :
    acceptsRate created.regs.state ∧ acceptsRate rateSet.regs.state ∧ acceptsRate ready.regs.state ∧
    State.reset.regs.state = .unconfigured ∧ faulted.regs.state = .fault :=
  ⟨.inl rfl, .inr (.inl rfl), .inr (.inr (.inl rfl)), rfl, rfl⟩

theorem witness_ReadRegReturnsTheMap :
    (0x14 : Nat) ≤ 0x14 ∧ (0x14 : Nat) ≤ 0xFF ∧ (0x0800010000000000 : Packet).extractLsb' 56 8 = 0x08 ∧
    (0x0800010000000000 : Packet) &&& 0xFFFFFF00FFFFFFFF ≠ 0x0800000000000000 := by decide

/-- A rate of 0, and the least rate whose coefShift is negative at OUT_RATE 1 (95_test_vectors.md 2.2). -/
theorem witness_SetRateRejectsBadRates :
    let s := { created with regs := { created.regs with outRate := 1 } }
    acceptsRate s.regs.state ∧ (0 : Int) ≤ 0 ∧ (s.regs.inRate.toNat : Int) ≠ 16777216 ∧ mustRedesign s 16777216 ∧
    deriveConstants s.regs.tier s.regs.outRate.toNat (16777216 : Int).toNat = none :=
  ⟨.inl rfl, by decide, by decide, .inl rfl, by decide⟩

theorem witness_SetRateUnchangedIsNoOp :
    acceptsRate ready.regs.state ∧ (0 : Int) < 48000 ∧ (48000 : Int) = ready.regs.inRate.toNat :=
  ⟨.inr (.inr (.inl rfl)), by decide, by decide⟩

/-- A first design, a re-design that keeps the ring (60000, 95_test_vectors.md 1.4) and one that resizes it (96000). -/
theorem witness_SetRateRedesignEffect :
    (created.Inv ∧ acceptsRate created.regs.state ∧ (created.regs.inRate.toNat : Int) ≠ 8000 ∧ mustRedesign created 8000 ∧
      deriveConstants created.regs.tier created.regs.outRate.toNat (8000 : Int).toNat = some ⟨96, 23, 8, 80⟩) ∧
    (ready.Inv ∧ acceptsRate ready.regs.state ∧ (ready.regs.inRate.toNat : Int) ≠ 60000 ∧ mustRedesign ready 60000 ∧
      deriveConstants ready.regs.tier ready.regs.outRate.toNat (60000 : Int).toNat = some ⟨64, 24, 8, 80⟩ ∧
      ready.regs.h.toNat = 8) ∧
    (mustRedesign ready 96000 ∧
      deriveConstants ready.regs.tier ready.regs.outRate.toNat (96000 : Int).toNat = some ⟨64, 22, 16, 80⟩) :=
  ⟨⟨created_inv, .inl rfl, by decide, .inl rfl, by decide⟩,
    ⟨ready_inv, .inr (.inr (.inl rfl)), by decide, .inr (.inl (by unfold farFrom; decide)), by decide, by decide⟩,
    .inr (.inl (by unfold farFrom; decide)), by decide⟩

theorem witness_SetRateKeepingConstants :
    ready.Inv ∧ acceptsRate ready.regs.state ∧ (0 : Int) < 44100 ∧ (44100 : Int) < 2 ^ 31 ∧
    (ready.regs.inRate.toNat : Int) ≠ 44100 ∧ ¬ mustRedesign ready 44100 :=
  ⟨ready_inv, .inr (.inr (.inl rfl)), by decide, by decide, by decide, by unfold mustRedesign farFrom; decide⟩

/-- The ends of the clamp: 1, 63, 127, 128 (R158). -/
theorem witness_PhaseCountIsClamped : (1 : Nat) ≤ 1 ∧ (63 : Nat) ≤ 63 ∧ (127 : Nat) ≤ 127 ∧ (128 : Nat) ≤ 128 := by decide

theorem witness_ConstantsFollowTheTierTable :
    deriveConstants .low 1 16777216 = none ∧ deriveConstants .low 1 16777215 = some ⟨64, 0, 16, 80⟩ ∧
    deriveConstants .high 48000 44100 = some ⟨127, 23, 32, 98⟩ := by decide

theorem witness_FreshConstantsBoundTheIncrement :
    (0 : Nat) < 48000 ∧ (0 : Nat) < 95999 ∧ deriveConstants .low 48000 95999 = some ⟨127, 23, 8, 80⟩ := by decide

/-- A full bank, a value that is not a sign extension, and the last element of a bank of 776. -/
theorem witness_CoefWriteStagesOneElement :
    acceptsBank rateSet.regs.state ∧ (rateSet.regs.l.toNat + 1) * rateSet.regs.h.toNat = 776 ∧
    ¬(rateSet.regs.tier = .high ∨ (0x8000 : Word) = ((0x8000 : Word).setWidth 16).signExtend 32) ∧
    (rateSet.regs.tier = .high ∨ (0xFFFF8000 : Word) = ((0xFFFF8000 : Word).setWidth 16).signExtend 32) ∧
    775 < 776 ∧ rateSet.scoef.wf = true :=
  ⟨.inl rfl, by decide, by decide, by decide, by decide, by decide⟩

theorem witness_CoefCommitInstallsTheBank :
    let s := { rateSet with regs := { rateSet.regs with coefCount := 776 }, scoef := [(775, 1)] }
    acceptsBank s.regs.state ∧ s.regs.coefCount.toNat = (s.regs.l.toNat + 1) * s.regs.h.toNat ∧ s.scoef.wf = true ∧
    s.acoef.wf = true ∧ rateSet.regs.coefCount.toNat ≠ (rateSet.regs.l.toNat + 1) * rateSet.regs.h.toNat :=
  ⟨.inl rfl, by decide, by decide, by decide, by decide⟩

theorem witness_ResizeToSameSizeChangesNothing :
    ready.regs.histValid = true ∧ ready.regs.histFrames.toNat = ready.params.stateMult * 2 * 8 := by decide

/-- The first resize, and the resizes to the largest and to the smallest half-length from another size. -/
theorem witness_ResizeKeepsTheWindow :
    (created.hist.wf = true ∧ created.regs.c = 1 ∧
      ¬(created.regs.histValid = true ∧ created.regs.histFrames.toNat = created.params.stateMult * 2 * 8)) ∧
    (ready.hist.wf = true ∧ ready.regs.c = 1 ∧ 32 ≤ 32 ∧
      ¬(ready.regs.histValid = true ∧ ready.regs.histFrames.toNat = ready.params.stateMult * 2 * 32)) ∧
    (0 < 1 ∧ ¬(ready.regs.histValid = true ∧ ready.regs.histFrames.toNat = ready.params.stateMult * 2 * 1)) := by decide

/-- The advance that compacts (IMPULSE 55) and one that does not (IMPULSE 8). -/
theorem witness_ReadAdvanceShiftsTheWindow :
    let s := { holding 2 with regs := { (holding 2).regs with impulse := 55 } }
    s.params.legal = true ∧ s.hist.wf = true ∧ s.races = [] ∧ s.regs.histValid = true ∧ s.regs.c = 1 ∧
    0 < s.regs.h.toNat ∧ s.regs.h.toNat ≤ 32 ∧ s.regs.histFrames.toNat = s.params.stateMult * 2 * s.regs.h.toNat ∧
    s.regs.ringFull.toNat + s.regs.h.toNat = s.regs.histFrames.toNat ∧ s.regs.h.toNat ≤ s.regs.impulse.toNat ∧
    s.regs.impulse.toNat < s.regs.ringFull.toNat ∧ (holding 2).regs.h.toNat ≤ (holding 2).regs.impulse.toNat := by decide

theorem witness_LockedAndInterpolatedPathsAgree :
    let s := { ready with regs := { readyRegs with phase := 0x3F000000 } }
    s.regs.phase.toNat < s.regs.wrap ∧ s.regs.phase.toNat % 2 ^ s.regs.shift.toNat = 0 := by decide

theorem witness_InterpolatedTapLiesBetween : (0 : Nat) < 2 ^ 15 ∧ 2 ^ 15 - 1 < 2 ^ 15 ∧ 2 ^ 31 - 1 < 2 ^ 31 := by decide

/-- The last phase, and the last one with no fraction. -/
theorem witness_RowsReadLieInTheBank :
    let r (p : Word) : Regs := { readyRegs with phase := p }
    (r 0x3FFFFFFF).phase.toNat < (r 0x3FFFFFFF).wrap ∧ (r 0x3F000000).phase.toNat < (r 0x3F000000).wrap ∧
    (r 0x3F000000).phase.toNat % 2 ^ (r 0x3F000000).shift.toNat = 0 := by decide

theorem witness_AccumulatorNeverOverflows : ready.Inv ∧ ready.regs.state = .ready := ⟨ready_inv, rfl⟩

/-- The largest sum: WRAP + INC = 2^32 (95_test_vectors.md 2.3). -/
theorem witness_PhaseStepConservesPosition :
    let r := { readyRegs with phase := 0x3FFFFFFF, inc := 0xC0000000, pending := 0x7FFFFFFF }
    63 ≤ r.wrap ∧ r.phase.toNat < r.wrap ∧ r.wrap + r.inc.toNat ≤ 2 ^ 32 ∧ r.pending.toNat < 2 ^ 31 := by decide

theorem witness_RescaledPhaseStaysInRange :
    let r := { readyRegs with phase := 0x3FFFFFFF }
    r.wrap ≤ 2 ^ 32 ∧ 0 < r.wrap ∧ (0 < 0x40000000 → r.phase.toNat < 0x40000000) ∧ (0 < 0 → r.phase.toNat < 0) := by decide

/-- base + n one past OUT_FRAMES, and n = 0 at base = OUT_FRAMES. -/
theorem witness_ResampleChecksItsRange :
    ready.regs.state = .ready ∧ ready.params.outFrames < 16384 + 1 ∧ 16383 + 1 ≤ ready.params.outFrames ∧
    16384 ≤ ready.params.outFrames := by decide

/-- The last OUT frame. -/
theorem witness_ProducedFrameIsTheDotProduct :
    ready.Inv ∧ ready.raceFree ∧ canResample ready 1 16383 ∧ ready.regs.pending = 0 :=
  ⟨ready_inv, rfl, ⟨rfl, rfl, by decide, by decide⟩, rfl⟩

/-- One frame owed of a block of two; two owed of a block of two, so that its last frame is consumed; a RESAMPLE of all of OUT
that owes two of a block of one. -/
theorem witness_OwedFrameEntersTheOutput :
    let two (s : State) : State := { s with regs := { s.regs with pending := 2 } }
    ((holding 2).Inv ∧ (holding 2).raceFree ∧ canResample (holding 2) 1 16383 ∧ 0 < (holding 2).regs.pending.toNat ∧
      (holding 2).regs.pending.toNat < heldInput (holding 2).regs) ∧
    ((two (holding 2)).Inv ∧ (two (holding 2)).raceFree ∧ canResample (two (holding 2)) 1 0 ∧
      0 < (two (holding 2)).regs.pending.toNat ∧
      (two (holding 2)).regs.pending.toNat = heldInput (two (holding 2)).regs) ∧
    ((two (holding 1)).raceFree ∧ canResample (two (holding 1)) 16384 0 ∧ 0 < (two (holding 1)).regs.pending.toNat ∧
      (two (holding 1)).regs.held = true) :=
  ⟨⟨holding_inv, rfl, ⟨rfl, rfl, by decide, by decide⟩, by decide, by decide⟩,
    ⟨twoOwed_inv, rfl, ⟨rfl, rfl, by decide, by decide⟩, by decide, by decide⟩,
    rfl, ⟨rfl, rfl, by decide, by decide⟩, by decide, rfl⟩

/-- Input left over, input used to its last frame, and no input needed. -/
theorem witness_ResampleConsumesByTheFormula :
    ((holding 2).Inv ∧ (holding 2).raceFree ∧ canResample (holding 2) 1 0 ∧ 1 + (0 + 0 * 0x40000000) / 0x40000000 < 2 - 0) ∧
    ((holding 2).Inv ∧ (holding 2).raceFree ∧ canResample (holding 2) 2 0 ∧
      (holding 2).regs.pending.toNat + (0 + 1 * (holding 2).regs.inc.toNat) / (holding 2).regs.wrap = 2 - 0) ∧
    (ready.Inv ∧ ready.raceFree ∧ canResample ready 1 0 ∧ ready.regs.pending.toNat + (0 + 0) / ready.regs.wrap = 0) :=
  ⟨⟨holding_inv, rfl, ⟨rfl, rfl, by decide, by decide⟩, by decide⟩,
    ⟨holding_inv, rfl, ⟨rfl, rfl, by decide, by decide⟩, by decide⟩,
    ⟨ready_inv, rfl, ⟨rfl, rfl, by decide, by decide⟩, by decide⟩⟩

/-- Input left over, input used to its last frame, and no input needed. -/
theorem witness_HeldInputEntersTheWindowInOrder :
    ((holding 2).Inv ∧ (holding 2).raceFree ∧ canResample (holding 2) 1 0 ∧
      owedBefore (holding 2).regs 0 < heldInput (holding 2).regs) ∧
    (canResample (holding 2) 2 0 ∧ owedBefore (holding 2).regs 1 = heldInput (holding 2).regs) ∧
    (ready.Inv ∧ ready.raceFree ∧ canResample ready 1 0 ∧ owedBefore ready.regs 0 ≤ heldInput ready.regs) :=
  ⟨⟨holding_inv, rfl, ⟨rfl, rfl, by decide, by decide⟩, by decide⟩, ⟨⟨rfl, rfl, by decide, by decide⟩, by decide⟩,
    ⟨ready_inv, rfl, ⟨rfl, rfl, by decide, by decide⟩, by decide⟩⟩

/-- Two frames from a held block of one frame and one that the provider hands over. -/
theorem witness_InputConsumptionFollowsTheFormula :
    State.Inv { holding 1 with host := [], provider := [block 4 3] } ∧
    canResample { holding 1 with host := [], provider := [block 4 3] } 2 0 ∧
    ∃ t, exec (.resample 2 0) { holding 1 with host := [], provider := [block 4 3] } = .next t ∧
      t.responses = [] ++ [⟨.ok, BitVec.ofNat 32 2⟩] :=
  ⟨inv_channels lastHeld_inv _ _, ⟨rfl, rfl, by decide, by decide⟩, _, exec_after _ _, by decide⟩

/-- The largest range, which ends at OUT_FRAMES; and, from states that meet the invariant, a full result, a result cut short
after one frame, a fault and a wait. -/
theorem witness_ResampleEndsInOneOfFourWays :
    canResample owing 16384 0 ∧
    (canResample (holding 1) 1 0 ∧ (holding 1).Inv ∧ (after (.resample 1 0) (holding 1)).responses = [⟨.ok, 1⟩]) ∧
    (canResample { holding 1 with host := [], provider := [⟨[], none⟩] } 2 0 ∧
      State.Inv { holding 1 with host := [], provider := [⟨[], none⟩] } ∧
      (after (.resample 2 0) { holding 1 with host := [], provider := [⟨[], none⟩] }).responses = [⟨.ok, 1⟩]) ∧
    (isBlockPastInp owing (block 65535 2) ∧ isBlockInInp owing (block 65534 2) ∧
      (after (.resample 1 0) { owing with provider := [block 65535 2] }).responses = [⟨.errFault, 0⟩]) ∧
    (owing.Inv ∧ (after (.resample 1 0) owing).waiting = some ⟨1, 0, 0⟩) :=
  ⟨⟨rfl, rfl, by decide, by decide⟩, ⟨⟨rfl, rfl, by decide, by decide⟩, lastHeld_inv, by decide⟩,
    ⟨⟨rfl, rfl, by decide, by decide⟩, inv_channels lastHeld_inv _ _, by decide⟩,
    ⟨⟨_, rfl, by decide, by decide⟩, ⟨_, rfl, by decide, by decide⟩, by decide⟩, owing_inv, by decide⟩

/-- No answer, Null, an empty block, a descriptor that ends at INP_WORDS and one a sample past it, and an answer that writes
the last element of INP. -/
theorem witness_ResampleAtItsFirstRequest :
    canResample owing 1 0 ∧ 0 < owing.regs.pending.toNat ∧ owing.regs.pending = 1 ∧ owing.regs.held = false ∧
    owing.provider = [] ∧ owing.inp.wf = true ∧
    isExhaustion ⟨[], none⟩ ∧ isExhaustion (block 65535 0) ∧ (block 65535 2).block = some ⟨65535, 2⟩ ∧ (2 : Word) ≠ 0 ∧
    owing.params.inpWords < (65535 : Word).toNat + (2 : Word).toNat * owing.regs.c.toNat ∧
    (65534 : Word).toNat + (2 : Word).toNat * owing.regs.c.toNat ≤ owing.params.inpWords ∧
    lastWrite [(65535, 1), (65535, 2), (65536, 3)] 65535 = some (2 : Sample) ∧
    (after (.resample 1 0) { owing with provider := [⟨[(65535, 1), (65535, 2)], some ⟨65535, 1⟩⟩] }).inp =
      [(65535, 2)] :=
  ⟨⟨rfl, rfl, by decide, by decide⟩, by decide, rfl, rfl, rfl, by decide, .inl rfl, .inr ⟨_, rfl, rfl⟩, rfl, by decide,
    by decide, by decide, by decide, by decide⟩

/-- A full result and a result cut short after one frame of two; an answer that writes INP; one frame consumed before a
compaction (IMPULSE 8), one that compacts (IMPULSE 55), and none. -/
theorem witness_ResampleFrame :
    let s := { holding 1 with provider := [⟨[], none⟩] }
    let w := { owing with provider := [⟨[(65535, 1)], some ⟨65535, 1⟩⟩] }
    (s.out.wf = true ∧ s.inp.wf = true ∧ s.raceFree ∧
      (∃ t, exec (.resample 1 0) s = .next t ∧ t.responses = s.responses ++ [⟨.ok, BitVec.ofNat 32 1⟩]) ∧
      ∃ t, exec (.resample 2 0) s = .next t ∧ t.responses = s.responses ++ [⟨.ok, BitVec.ofNat 32 1⟩]) ∧
    (∃ t, exec (.resample 1 0) w = .next t ∧ w.provider = w.provider ++ t.provider ∧ t.inp ≠ w.inp ∧
      ∀ a ∈ w.provider, ∀ v, (0, v) ∉ a.writes) ∧
    ((holding 2).Inv ∧ (holding 2).regs.impulse.toNat + 1 < (holding 2).regs.ringFull.toNat ∧
      ∃ t, exec (.resample 1 0) (holding 2) = .next t ∧ t.regs.inputIndex.toNat = 0 + 1) ∧
    (∃ t, exec (.resample 1 0) { holding 2 with regs := { (holding 2).regs with impulse := 55 } } = .next t ∧
      t.regs.impulse = 8) ∧
    (ready.Inv ∧ ∃ t, exec (.resample 1 0) ready = .next t ∧ t.regs.inputIndex = ready.regs.inputIndex ∧
      t.events = ready.events) :=
  ⟨⟨by decide, by decide, rfl, ⟨_, exec_after _ _, by decide⟩, ⟨_, exec_after _ _, by decide⟩⟩,
    ⟨_, exec_after _ _, by decide, by decide, by simp⟩,
    ⟨holding_inv, by decide, _, exec_after _ _, by decide⟩, ⟨_, exec_after _ _, by decide⟩,
    ⟨ready_inv, _, exec_after _ _, by decide, by decide⟩⟩

theorem witness_ResampleSplitsAnywhere :
    canResample (holding 2) (1 + 1) 0 ∧
    ∃ t1 t2, exec (.resample 1 0) (holding 2) = .next t1 ∧ t1.responses = (holding 2).responses ++ [⟨.ok, BitVec.ofNat 32 1⟩] ∧
      exec (.resample 1 (0 + 1)) t1 = .next t2 ∧ t2.responses = t1.responses ++ [⟨.ok, BitVec.ofNat 32 1⟩] :=
  ⟨⟨rfl, rfl, by decide, by decide⟩, _, _, exec_after _ _, by decide, exec_after _ _, by decide⟩

/-- One frame of two before a Null answer. -/
theorem witness_ShortResultIsAPrefix :
    let s := { holding 1 with provider := [] ++ ⟨[], none⟩ :: [block 0 1] }
    s.out.wf = true ∧ s.raceFree ∧ canResample s 2 0 ∧ isExhaustion ⟨[], none⟩ ∧
    (∃ t, exec (.resample 2 0) s = .next t ∧ t.provider = [block 0 1] ∧
      t.responses = s.responses ++ [⟨.ok, BitVec.ofNat 32 1⟩]) ∧
    (∃ t', exec (.resample 2 0) { s with provider := [] ++ [block 0 3] } = .next t') :=
  ⟨by decide, rfl, ⟨rfl, rfl, by decide, by decide⟩, .inl rfl, ⟨_, exec_after _ _, by decide, by decide⟩, ⟨_, exec_after _ _⟩⟩

theorem witness_WaitingChangesNothing :
    canResample owing 1 0 ∧ [block 0 1] ≠ [] ∧ ∃ t, exec (.resample 1 0) owing = .next t ∧ t.waiting ≠ none :=
  ⟨⟨rfl, rfl, by decide, by decide⟩, by decide, _, exec_after _ _, by decide⟩

/-- An access of each kind to the first and the last OUT frame, at the first and the last point; a write of the INP element
that is about to be consumed, just before and just after the block reads it. -/
theorem witness_RacingAccessesInterleave :
    let s (races : List (List AgentAccess)) : State := { ready with races := races }
    let h (races : List (List AgentAccess)) : State := { holding 2 with races := races }
    ((s []).out.wf = true ∧ canResample (s []) 1 0 ∧ canResample (s []) 1 16383 ∧ (s []).regs.pending = 0) ∧
    (s ([] :: [[.read (.out 0 0)]])).races = List.replicate 1 [] ++ [[.read (.out 0 0)]] ∧
    (s [[.write (.out 16383 1 7)]]).races = List.replicate 0 [] ++ [[.write (.out 16383 1 7)]] ∧
    (∃ u, exec (.resample 1 16383) { s [[.write (.out 16383 1 7)]] with races := [] } = .next u) ∧
    ((holding 2).Inv ∧ canResample (h []) 1 0 ∧ (h []).regs.pending = 1 ∧ (h []).regs.held = true ∧
      (h []).regs.c.toNat = 1 ∧ (h []).regs.heldBase.toNat + (h []).regs.inputIndex.toNat * (h []).regs.c.toNat + 0 = 0) ∧
    (h [[.write (.inp 0 7)]]).races = List.replicate 0 [] ++ [[.write (.inp 0 7)]] ∧
    (h ([] :: [[.write (.inp 0 7)]])).races = List.replicate 1 [] ++ [[.write (.inp 0 7)]] :=
  ⟨⟨by decide, ⟨rfl, rfl, by decide, by decide⟩, ⟨rfl, rfl, by decide, by decide⟩, rfl⟩, rfl, rfl, ⟨_, exec_after _ _⟩,
    ⟨holding_inv, ⟨rfl, rfl, by decide, by decide⟩, rfl, rfl, rfl, rfl⟩, rfl, rfl⟩

/-- A move of each kind that rule R282 lists. -/
theorem witness_StateTransitionsAreThoseListed :
    (after (.create 0 1 16 1) faulted).regs.state ≠ faulted.regs.state ∧
    (after .reset ready).regs.state ≠ ready.regs.state ∧
    (after (.setRate 8000) created).regs.state ≠ created.regs.state ∧
    (after (.setRate 96000) ready).regs.state ≠ ready.regs.state ∧
    (after .coefCommit { rateSet with regs := { rateSet.regs with coefCount := 776 } }).regs.state ≠ rateSet.regs.state ∧
    (after (.resample 1 0) { owing with provider := [block 65535 2] }).regs.state ≠ owing.regs.state := by decide

/-- A command that writes none of the registers it must leave, and one that answers an error. -/
theorem witness_RegistersHaveTheirWriters :
    (∃ t, exec (.coefWrite true 1) rateSet = .next t ∧ t.regs.phase = rateSet.regs.phase) ∧
    (∃ t, exec (.setRate 0) ready = .next t ∧ t.regs.lastErr = .errConfig) :=
  ⟨⟨_, exec_after _ _, rfl⟩, ⟨_, exec_after _ _, by decide⟩⟩

theorem witness_MemoriesHaveTheirWriters : ∃ t, exec (.resample 1 0) (holding 2) = .next t := ⟨_, exec_after _ _⟩

theorem witness_OnlyResetAndCreateLeaveFault :
    faulted.regs.state = .fault ∧ (∃ t, exec .reset faulted = .next t ∧ t.regs.state ≠ .fault) ∧
    refusedInFault (Instr.setVolume 1 1).opcode ∧ 0x13 < 0x14 :=
  ⟨rfl, ⟨_, exec_after _ _, by decide⟩, .inr (.inl rfl), by decide⟩

theorem witness_StrideNeverChangesAnything :
    Instr.resample 1 0 ≠ .readReg 0x13 ∧ ∃ t, exec (.resample 1 0) (holding 2) = .next t :=
  ⟨by decide, _, exec_after _ _⟩

theorem witness_UnspecifiedHistoryIsNeverRead :
    created.Inv ∧ created.regs.histValid = false ∧ Mem.wf [(3, (7 : Sample))] = true ∧
    ∃ t, exec (.setRate 8000) created = .next t ∧ t.regs.histValid = true :=
  ⟨created_inv, rfl, by decide, _, exec_after _ _, by decide⟩

theorem witness_PowerOnRegistersReadZero : (0 : Nat) < 0x14 ∧ (0x13 : Nat) < 0x14 := by decide

/-- The default parameters, and the ends of STATE_MULT. -/
theorem witness_PowerOnMeetsTheInvariant :
    Params.legal {} = true ∧ Params.legal { stateMult := 2, outFrames := 1, inpWords := 1, stride := 1 } = true ∧
    Params.legal { stateMult := 1023 } = true := by decide

/-- A packet that runs, a waiting RESAMPLE whose answer comes, and an idle step. -/
theorem witness_EveryStepKeepsTheInvariant :
    (State.Inv { ready with host := [.send 0x0400000100000000], provider := [] } ∧
      ∃ t, step { ready with host := [.send 0x0400000100000000], provider := [] } = .next t) ∧
    (State.Inv { stalled with host := [], provider := [block 0 1] } ∧
      ∃ t, step { stalled with host := [], provider := [block 0 1] } = .next t) ∧
    (created.Inv ∧ ∃ t, step created = .next t) :=
  ⟨⟨inv_channels ready_inv _ _, _, rfl⟩, ⟨inv_channels stalled_inv _ _, _, rfl⟩, ⟨created_inv, _, rfl⟩⟩

theorem witness_EveryStepKeepsMemoriesCanonical :
    filled.inp.wf = true ∧ filled.out.wf = true ∧ filled.hist.wf = true ∧ filled.acoef.wf = true ∧ filled.scoef.wf = true ∧
    ∃ t, step (pushPacket 0x0400000100000000 filled) = .next t :=
  ⟨by decide, by decide, by decide, by decide, by decide, _, rfl⟩

end Sys2Proof.Tests
end

section
/-! PROOFS. The scope statements (00_scope.md): a step runs the decoded packet, and a wait in GetNextBuffer is not visible. The
wait is settled by comparing a RESAMPLE with the same RESAMPLE given more answers: every piece of the loop commutes with
answers that lie further down the provider's list, so up to the first wait the two runs differ in that list only. -/

namespace Sys2Proof.Machine

/-! ### The rounds of the loop, from any point of round k -/

/-- A block accepted at the end of a request is held, and what is owed stays owed (R300). -/
theorem receiveAnswer_go {n base k : Nat} {s t : State} (h : receiveAnswer n base k s = .go t) :
    t.regs.held = true ∧ t.regs.pending = s.regs.pending := by
  rcases receiveAnswer_cases n base k s with ⟨_, hr⟩ | ⟨a, rest, u, _, hu, ⟨_, hr⟩ | ⟨d, _, _, _, hr⟩ | ⟨d, _, _, _, hr⟩⟩
  · simp [hr] at h
  · simp [hr] at h
  · simp [hr] at h
  · obtain rfl : holdBlock d u = t := by simpa [hr] using h
    exact ⟨rfl, by rw [holdBlock_pending, hu, afterAnswer_keeps]⟩

/-- With nothing owed, round k produces its frame (R300). -/
theorem resampleLoop_produce {n base k : Nat} {s : State} (hk : k < n) (hp : s.regs.pending = 0) :
    resampleLoop n base (n - k) s = resampleLoop n base (n - (k + 1)) (produced (base + k) s) := by
  obtain ⟨m, rfl⟩ : ∃ m, n = k + (m + 1) := ⟨n - k - 1, by omega⟩
  rw [show k + (m + 1) - k = m + 1 by omega, show k + (m + 1) - (k + 1) = m by omega, resampleLoop_succ, hp,
    show k + (m + 1) - (m + 1) = k by omega]
  rfl

/-- With a frame owed and a block held, round k goes on at the state with that frame consumed (R302). -/
theorem resampleLoop_consume {n base k : Nat} {s : State} (hk : k < n) (hh : s.regs.held = true)
    (hp : 0 < s.regs.pending.toNat) :
    resampleLoop n base (n - k) s = resampleLoop n base (n - k) (consumeFrame s) := by
  obtain ⟨p, hp⟩ : ∃ p, s.regs.pending.toNat = p + 1 := ⟨s.regs.pending.toNat - 1, by omega⟩
  obtain ⟨m, hm⟩ : ∃ m, n - k = m + 1 := ⟨n - k - 1, by omega⟩
  rw [hm, resampleLoop_succ, resampleLoop_succ, hp, consumeOwed_held hh, consumeFrame_pending, pred_toNat hp]

/-- With a frame owed and no block held, round k asks the provider; where the answer is there, what follows is what a
RESAMPLE resumed at that request does (R302, R312). -/
theorem resampleLoop_request {n base k : Nat} {s : State} (hk : k < n) (hh : s.regs.held = false)
    (hp : 0 < s.regs.pending.toNat) (hpr : s.provider ≠ []) :
    resampleLoop n base (n - k) s =
      resumeResample ⟨n, base, k⟩ (agentsMove (portEvent (.getNextBuffer (hint n k s.regs)) s)) := by
  obtain ⟨p, hp⟩ : ∃ p, s.regs.pending.toNat = p + 1 := ⟨s.regs.pending.toNat - 1, by omega⟩
  obtain ⟨m, hm⟩ : ∃ m, n - k = m + 1 := ⟨n - k - 1, by omega⟩
  rw [resume_loop (n := n) (base := base) rfl rfl (by simpa using hpr), hm, resampleLoop_succ, hp,
    show n - (m + 1) = k by omega, consumeOwed_pull hh, pullBlock]
  cases hr : receiveAnswer n base k (agentsMove (portEvent (.getNextBuffer (hint n k s.regs)) s)) with
  | stop t => rfl
  | go t =>
    obtain ⟨hheld, hpend⟩ := receiveAnswer_go hr
    have hpt : t.regs.pending.toNat = p + 1 := by simpa [hpend] using hp
    dsimp only
    rw [resampleLoop_succ, hpt, show n - (m + 1) = k by omega, consumeOwed_held hheld]

/-- A descriptor with frames that lies inside INP is held (R300, R305). -/
theorem takeBlock_hold {n k : Nat} {s : State} {d : Descriptor} (h0 : d.frames ≠ 0)
    (hr : descriptorOutOfRange s d = false) : takeBlock n k (some d) s = .go (holdBlock d s) := by
  rw [takeBlock, if_neg h0, hr]
  rfl

/-- Where the provider's answer holds an acceptable block, a resumed RESAMPLE goes on with round k (R312, R300). -/
theorem resumeResample_hold {n base k : Nat} {s : State} {a : ProviderAnswer} {rest : List ProviderAnswer}
    {d : Descriptor} (hp : s.provider = a :: rest) (hd : a.block = some d) (h0 : d.frames ≠ 0)
    (hr : descriptorOutOfRange s d = false) :
    resumeResample ⟨n, base, k⟩ s = resampleLoop n base (n - k) (holdBlock d (afterAnswer a rest s)) := by
  have hgo : receiveAnswer n base k s = .go (holdBlock d (afterAnswer a rest s)) := by
    rw [receiveAnswer, hp]
    dsimp only
    rw [hd]
    exact takeBlock_hold h0 (by rw [← hr]; exact descriptorOutOfRange_afterAnswer a rest s d)
  rw [resume_loop (n := n) (base := base) rfl rfl (by simp [hp])]
  dsimp only
  rw [hgo]

/-- An accepted RESAMPLE whose frames lie inside OUT runs its loop (R281, R301). -/
theorem exec_resample_eq_loop {s : State} {n base : Nat} (h : Claims.canResample s n base) :
    exec (.resample n base) s = .next (resampleLoop n base n s) := by
  obtain ⟨_, hready, _, hrange⟩ := h
  rw [exec_accepted (by rw [hready]; rfl)]
  rcases resampleBody_cases n base s with ⟨hout, _⟩ | ⟨_, hbody⟩
  · omega
  · rw [← hbody]; rfl

/-! ### More answers further down the provider's list -/

/-- The state in which the provider has the answers `later` to give after those it already has. -/
def State.withLater (later : List ProviderAnswer) (s : State) : State := { s with provider := s.provider ++ later }

@[simp] theorem withLater_regs (later : List ProviderAnswer) (s : State) : (s.withLater later).regs = s.regs := rfl
@[simp] theorem withLater_provider (later : List ProviderAnswer) (s : State) :
    (s.withLater later).provider = s.provider ++ later := rfl

theorem withLater_channels (later : List ProviderAnswer) (s : State) : (s.withLater later).channels = s.channels := rfl

section Commutes

variable (later : List ProviderAnswer)

theorem agentsMove_withLater (s : State) : agentsMove (s.withLater later) = (agentsMove s).withLater later := by
  have h := agentsMove_port s (s.provider ++ later) s.waiting s.events
  unfold State.withLater
  rw [h]
  simp

theorem stageChannel_withLater (c : Nat) (s : State) :
    stageChannel c (s.withLater later) = (stageChannel c s).withLater later := by
  unfold stageChannel
  rw [agentsMove_withLater]
  rfl

theorem readAgain_withLater (s : State) : readAgain (s.withLater later) = (readAgain s).withLater later := by
  unfold readAgain
  rw [withLater_channels]
  induction s.channels with
  | zero => rfl
  | succ m ih => rw [forUp, ih, stageChannel_withLater, forUp]

theorem advanceImpulse_withLater (s : State) :
    advanceImpulse (s.withLater later) = (advanceImpulse s).withLater later := by
  unfold advanceImpulse
  rw [apply_ite (State.withLater later)]
  rfl

theorem readAdvance_withLater (s : State) : readAdvance (s.withLater later) = (readAdvance s).withLater later := by
  rw [readAdvance, advanceImpulse_withLater, readAgain_withLater, readAdvance]

/-- Consuming a frame does not look at the answers to come (R302). -/
theorem consumeFrame_withLater (s : State) : consumeFrame (s.withLater later) = (consumeFrame s).withLater later := by
  unfold consumeFrame
  rw [readAdvance_withLater]
  rw [apply_ite (State.withLater later)]
  rfl

theorem accumulate_withLater (f c : Nat) (term : Int) (s : State) :
    accumulate f c term (s.withLater later) = (accumulate f c term s).withLater later := by
  unfold accumulate
  dsimp only
  rw [agentsMove_withLater, agentsMove_withLater]
  rfl

theorem produceOneFrame_withLater (f : Nat) (s : State) :
    produceOneFrame f (s.withLater later) = (produceOneFrame f s).withLater later := by
  unfold produceOneFrame volAccumulate
  dsimp only
  rw [accumulate_withLater, accumulate_withLater]
  rfl

/-- Producing a frame does not look at the answers to come (R230). -/
theorem produced_withLater (f : Nat) (s : State) : produced f (s.withLater later) = (produced f s).withLater later := by
  unfold produced
  rw [produceOneFrame_withLater, agentsMove_withLater]
  rfl

/-- The provider's writes before an answer are accesses of another agent to INP (R92). -/
theorem providerWrites_eq_agentAccesses (ws : List (Nat × Sample)) (s : State) :
    providerWrites ws s = agentAccesses (ws.map fun w => .write (.inp w.1 w.2)) s := by
  induction ws generalizing s with
  | nil => rfl
  | cons w rest ih => exact ih (agentWrite (.inp w.1 w.2) s)

theorem providerWrites_withLater (ws : List (Nat × Sample)) (s : State) :
    providerWrites ws (s.withLater later) = (providerWrites ws s).withLater later := by
  have h := agentAccesses_port (ws.map fun w => .write (.inp w.1 w.2)) s (s.provider ++ later) s.waiting s.events
  rw [providerWrites_eq_agentAccesses, providerWrites_eq_agentAccesses]
  unfold State.withLater
  rw [h]
  simp

/-- The arrival of one answer does not look at those after it (R92). -/
theorem afterAnswer_withLater (a : ProviderAnswer) (rest : List ProviderAnswer) (s : State) :
    afterAnswer a (rest ++ later) (s.withLater later) = (afterAnswer a rest s).withLater later := by
  unfold afterAnswer
  rw [← agentsMove_withLater, ← providerWrites_withLater]
  rfl

end Commutes

/-- A resumed RESAMPLE whose first answer arrives only now does what one does that had it in its list: that it was marked as
waiting shows nowhere (R92). -/
theorem resumeResample_arrived {later : List ProviderAnswer} (hl : later ≠ []) {s : State} (hp : s.provider = [])
    (w : Waiting) (mark : Option Waiting) :
    resumeResample w { s with provider := later, waiting := mark } = resumeResample w (s.withLater later) := by
  obtain ⟨a, rest, rfl⟩ := List.exists_cons_of_ne_nil hl
  simp [resumeResample, receiveAnswer, State.withLater, hp]

/-! ### The run with more answers, followed beside the run that may wait -/

/-- The loop rule of the comparison. `goal` is where the run with all answers ends. In round k, the rest of that run starts
at the shorter run's state with `later` added; while a request has no answer yet, it is a RESAMPLE resumed there. -/
theorem resampleRule_withLater {later : List ProviderAnswer} (hl : later ≠ []) (n base : Nat) (goal : State) :
    LoopRule n base
      (fun k s => s.waiting = none ∧ resampleLoop n base (n - k) (s.withLater later) = goal)
      (fun k s => s.waiting = none ∧ resumeResample ⟨n, base, k⟩ (s.withLater later) = goal)
      (fun t => t.waiting ≠ none → step { t with provider := later } = .next goal) where
  request k s hk hP hh hp := by
    obtain ⟨hw, hrun⟩ := hP
    rw [resampleLoop_request (s := s.withLater later) hk hh hp (by simp [hl])] at hrun
    refine ⟨by simpa using hw, ?_⟩
    rw [← hrun, ← agentsMove_withLater]
    rfl
  wait k s _ hA _ _ hp _ := by
    obtain ⟨_, hrun⟩ := hA
    rw [← hrun, ← resumeResample_arrived hl hp _ (some ⟨n, base, k⟩)]
    rfl
  short k s a rest _ _ _ _ _ _ hw := by
    rw [finishResample_waiting, afterAnswer_keeps] at hw
    exact absurd rfl hw
  bad k s a rest d _ _ _ _ _ _ _ _ hw := by
    rw [raiseFault, answer_waiting, afterAnswer_keeps] at hw
    exact absurd rfl hw
  hold k s a rest d _ hA _ _ hp hd h0 hr := by
    obtain ⟨_, hrun⟩ := hA
    refine ⟨by rw [holdBlock_waiting, afterAnswer_keeps], ?_⟩
    have hpl : (s.withLater later).provider = a :: (rest ++ later) := by rw [withLater_provider, hp]; rfl
    rw [← hrun, resumeResample_hold hpl hd h0 hr, afterAnswer_withLater]
    rfl
  consume k s hk hP hh hp := by
    obtain ⟨hw, hrun⟩ := hP
    refine ⟨by simpa using hw, ?_⟩
    rw [← hrun, ← consumeFrame_withLater, ← resampleLoop_consume (s := s.withLater later) hk hh hp]
  produce k s hk hP hp := by
    obtain ⟨hw, hrun⟩ := hP
    refine ⟨by simpa [produced] using hw, ?_⟩
    rw [← hrun, ← produced_withLater, ← resampleLoop_produce (s := s.withLater later) hk hp]
  done s hP hw := by
    obtain ⟨hnone, _⟩ := hP
    exact absurd hnone hw

/-- Settles O48: the run with all answers is followed round by round beside the run that waits, until the wait. -/
theorem waitingChangesNothing : Obligations.WaitingChangesNothing := by
  intro s t n base later hcan hl hexec hwait
  have hcan' : Claims.canResample (s.withLater later) n base := hcan
  rw [exec_resample_eq_loop hcan] at hexec
  obtain rfl : resampleLoop n base n s = t := by injection hexec
  have hrun := (resampleRule_withLater hl n base _).body (s := s) ⟨hcan.1, rfl⟩ hwait
  exact hrun.trans (exec_resample_eq_loop hcan').symm

/-! ### The next packet -/

/-- With nothing waiting, a step takes the host's next packet (R13, R91). -/
theorem step_send {s : State} {p : Packet} {rest : List HostAction} (hw : s.waiting = none)
    (hh : s.host = .send p :: rest) : step s = runPacket p { s with host := rest } := by
  unfold step nextAction hostStep
  rw [hw, hh]

/-- A packet that decodes runs its command (R124). -/
theorem runPacket_decoded {p : Packet} {i : Instr} (h : decode p = .ok i) (s : State) : runPacket p s = exec i s := by
  unfold runPacket
  rw [h]

/-- Settles O6: the packet is taken from the host's list, decoded and run. -/
theorem stepRunsDecodedPacket : Obligations.StepRunsDecodedPacket := by
  intro s p rest i hw hh hd
  rw [step_send hw hh, runPacket_decoded hd]

end Sys2Proof.Machine
end

section
/-! PROOFS. The state (10_state.md): its invariant holds at power-on and every step keeps it. The register updates come first,
each with the part of the invariant it touches; then one lemma per command body, and RESAMPLE through the rule of its loop. -/

namespace Sys2Proof.Machine

/-! ### The increment of fresh constants (R163) -/

/-- A rounded division is at most a bound on the exact quotient. -/
theorem incCalc_le {wrap o i b : Nat} (ho : 0 < o) (h : wrap * i ≤ b * o) : incCalc wrap o i ≤ b := by
  unfold incCalc
  have : (2 * wrap * i + o) / (2 * o) < b + 1 := by
    rw [Nat.div_lt_iff_lt_mul (by omega)]
    nlinarith
  omega

/-- Fresh constants leave room for the increment: WRAP + INC ≤ 2^32 (R159, R163). -/
theorem deriveConstants_wrap_add_inc {t : Tier} {o i : Nat} {k : Constants} (h : deriveConstants t o i = some k)
    (ho : 0 < o) : k.l * 2 ^ k.shift + incCalc (k.l * 2 ^ k.shift) o i ≤ 2 ^ 32 := by
  obtain ⟨-, hb, hs, -, -⟩ := deriveConstants_some h
  generalize hbl : bitlen (lscale k.l o i) = b at hb hs
  have hlt : lscale k.l o i < 2 ^ b := (bitlen_le_iff _ _).1 hbl.le
  have hpow : 2 ^ b * 2 ^ k.shift = 2 ^ 30 := by rw [← pow_add, hs]; congr 1; omega
  unfold lscale at hlt
  split at hlt
  · rename_i hr
    have hi : i < 2 * o := by rwa [Nat.div_lt_iff_lt_mul ho] at hr
    have hw : k.l * 2 ^ k.shift ≤ 2 ^ 30 := hpow ▸ Nat.mul_le_mul_right _ (by omega)
    have hinc : incCalc (k.l * 2 ^ k.shift) o i ≤ 2 * (k.l * 2 ^ k.shift) := by
      refine incCalc_le ho ?_
      calc k.l * 2 ^ k.shift * i ≤ k.l * 2 ^ k.shift * (2 * o) := Nat.mul_le_mul_left _ hi.le
        _ = 2 * (k.l * 2 ^ k.shift) * o := by ring
    omega
  · rename_i hr
    have hi : 2 * o ≤ i := by rw [not_lt, Nat.le_div_iff_mul_le ho] at hr; exact hr
    have hli : k.l * i < 2 ^ b * o := by rwa [Nat.div_lt_iff_lt_mul ho] at hlt
    have hinc : incCalc (k.l * 2 ^ k.shift) o i ≤ 2 ^ 30 := by
      refine incCalc_le ho ?_
      calc k.l * 2 ^ k.shift * i = k.l * i * 2 ^ k.shift := by ring
        _ ≤ 2 ^ b * o * 2 ^ k.shift := Nat.mul_le_mul_right _ hli.le
        _ = 2 ^ 30 * o := by rw [← hpow]; ring
    have hl : k.l ≤ 2 ^ b := by
      by_contra hc
      nlinarith
    have hw : k.l * 2 ^ k.shift ≤ 2 ^ 30 := hpow ▸ Nat.mul_le_mul_right _ hl
    omega

/-! ### Register updates that keep the invariant -/

/-- A positive signed word is the same number read unsigned (R9). -/
theorem toNat_pos_of_toInt_pos {v : Word} (h : 0 < v.toInt) : 0 < v.toNat := by
  rw [BitVec.toInt_eq_toNat_cond] at h
  split at h <;> omega

/-- A rate of s32(OP) above 0 is stored whole (R36, R291). -/
theorem toInt_ofNat_of_lt {n : Nat} (h : n < 2 ^ 31) : (BitVec.ofNat 32 n).toInt = n := by
  rw [BitVec.toInt_eq_toNat_cond, BitVec.toNat_ofNat, Nat.mod_eq_of_lt (by omega)]
  rw [if_pos (by omega)]

/-- Cleared registers meet the invariant in Unconfigured and Uninitialized, where the configuration is that state's
(R321). -/
theorem resetActions_inv {p : Params} {r : Regs} {st : Facade} (hst : st = .unconfigured ∨ st = .uninitialized)
    (hun : st = .unconfigured → r.tier = .low ∧ r.c = 0 ∧ r.bitDepth = 0 ∧ r.outRate = 0)
    (hcf : st ≠ .unconfigured → (r.c = 1 ∨ r.c = 2) ∧ r.bitDepth = 16 ∧ 0 < r.outRate.toInt) :
    { r.resetActions with state := st }.Inv p := by
  have hnf : st ≠ .fault := by rcases hst with rfl | rfl <;> simp
  have hnc : ¬(st = .rateSet ∨ st = .ready ∨ st = .rateChanging ∨ st = .fault) := by
    rcases hst with rfl | rfl <;> simp
  exact {
    faultCause := by simpa [Regs.resetActions] using hnf
    unconfigured := hun
    configured := hcf
    constStates := by simpa [Regs.resetActions] using hnc
    histStates := rfl
    constZero := fun _ => ⟨rfl, rfl, rfl, rfl, rfl, rfl, rfl, rfl, rfl, rfl, rfl, rfl, rfl, rfl, rfl⟩
    phases := by simp [Regs.resetActions]
    shiftRange := by simp [Regs.resetActions]
    designed := by simp [Regs.resetActions]
    rates := by simp [Regs.resetActions]
    phase := by simp [Regs.resetActions]
    increment := by simp [Regs.resetActions]
    lockedPhase := by simp [Regs.resetActions]
    pendingBound := by simp [Regs.resetActions]
    ring := by simp [Regs.resetActions]
    heldBlock := by simp [Regs.resetActions]
    heldZero := fun _ => ⟨rfl, rfl, rfl⟩
    coefCount := by simp [Regs.resetActions] }

/-- An accepted CREATE's configuration is legal (R285, R35). -/
theorem create_inv {p : Params} {r : Regs} {t : Tier} {chan : Nat} {rate : Int} (hc : chan = 1 ∨ chan = 2)
    (h0 : 0 < rate) (hs : isS32 rate = true) : (r.resetActions.create t chan rate).Inv p := by
  have hcfg : ((BitVec.ofNat 2 chan = 1#2 ∨ BitVec.ofNat 2 chan = 2#2) ∧ (16 : BitVec 6) = 16 ∧
      0 < (BitVec.ofInt 32 rate).toInt) := by
    refine ⟨?_, rfl, by rwa [toInt_ofInt_s32 hs]⟩
    rcases hc with rfl | rfl <;> decide
  exact resetActions_inv
    (r := { r with tier := t, c := BitVec.ofNat 2 chan, bitDepth := 16, outRate := BitVec.ofInt 32 rate
                   volL := 0, volR := 0 })
    (.inr rfl) (fun h => by cases h) (fun _ => hcfg)

namespace Regs.Inv

variable {p : Params} {r : Regs}

/-- RESET keeps the configuration, and with it the invariant (R320). -/
theorem reset (h : r.Inv p) : { r.resetActions with state := r.state.afterReset }.Inv p := by
  refine resetActions_inv ?_ ?_ ?_
  · cases r.state <;> simp [Facade.afterReset]
  · intro hu
    exact h.unconfigured (by cases hs : r.state <;> simp_all [Facade.afterReset])
  · intro hu
    exact h.configured (by rintro hs; simp [hs, Facade.afterReset] at hu)

/-- COEF_COUNT may stand anywhere up to the bank's size (R42, R316). -/
theorem stage (h : r.Inv p) (hv : r.constValid = true) {n : BitVec 13} (hn : n.toNat ≤ r.bankSize) :
    { r with coefCount := n }.Inv p :=
  { h with
    constZero := by simp [hv]
    coefCount := hn }

/-- COEF_COMMIT enters Ready from a state that has constants, Fault excepted (R318, R282). -/
theorem commit (h : r.Inv p) (hv : r.constValid = true) (hf : r.state ≠ .fault) :
    { r with coefCount := 0, state := .ready }.Inv p :=
  { h with
    faultCause := by simpa using mt h.faultCause.1 hf
    unconfigured := by simp
    configured := fun _ => h.configured fun hu => by simpa [hu, hv] using h.constStates
    constStates := by simpa using hv
    constZero := by simp [hv]
    coefCount := by simp }

/-- The bank of constants in force fits the bank memories: (L + 1) · H ≤ 4096 (R45). -/
theorem bankSize_le (h : r.Inv p) : r.bankSize ≤ Config.bankElems := by
  unfold Regs.bankSize Config.bankElems
  cases hv : r.constValid
  · obtain ⟨-, -, hh, -⟩ := h.constZero hv
    simp [hh]
  · have := h.phases hv
    have := h.h_range hv
    nlinarith

/-- OUT_RATE is positive once the block is created (R35). -/
theorem outRate_pos (h : r.Inv p) (hs : r.state ≠ .unconfigured) : 0 < r.outRate.toNat :=
  toNat_pos_of_toInt_pos (h.configured hs).2.2

end Regs.Inv

/-! ### SET_RATE -/

/-- INC is stored whole where it fits beside WRAP (R296, R38). -/
theorem storeRate_inc {r : Regs} {rate : Nat} (hw : 0 < r.wrap)
    (hb : r.wrap + incCalc r.wrap r.outRate.toNat rate ≤ 2 ^ 32) :
    (r.storeRate rate).inc.toNat = incCalc r.wrap r.outRate.toNat rate := by
  simp only [Regs.storeRate, BitVec.toNat_ofNat]
  exact Nat.mod_eq_of_lt (by omega)

/-- The locked selector leaves PHASE below any bound it was below. -/
theorem selectLocked_phase_le (r : Regs) : r.selectLocked.phase.toNat ≤ r.phase.toNat := by
  rw [selectLocked_phase]
  split
  · exact Nat.sub_le _ _
  · exact le_refl _

/-- A phase that the selector locks has no fraction (R264). -/
theorem selectLocked_fraction {r : Regs} (h : r.selectLocked.locked = true) :
    r.selectLocked.phase.toNat % 2 ^ r.shift.toNat = 0 := by
  rw [selectLocked_phase, if_pos h]
  exact Nat.mod_eq_zero_of_dvd (Nat.dvd_sub_mod _)

/-- What storing a rate and selecting LOCKED leaves in PHASE, INC and LOCKED, whatever constants are in force (R296,
R297). -/
theorem storedRate_values {r : Regs} {rate : Nat} (hph : r.phase.toNat < r.wrap)
    (hb : r.wrap + incCalc r.wrap r.outRate.toNat rate ≤ 2 ^ 32) :
    let q := (r.storeRate rate).selectLocked
    q.phase.toNat < r.wrap ∧ q.inc.toNat = incCalc r.wrap r.outRate.toNat rate ∧
      q.locked = lockedTest q.inc.toNat r.shift.toNat ∧ (q.locked = true → q.phase.toNat % 2 ^ r.shift.toNat = 0) :=
  ⟨lt_of_le_of_lt (selectLocked_phase_le _) hph, storeRate_inc (by omega) hb, rfl, selectLocked_fraction⟩

/-- A SET_RATE that keeps the constants keeps the invariant (R295, R296, R166). -/
theorem Regs.Inv.storeRate {p : Params} {r : Regs} (h : r.Inv p) (hv : r.constValid = true) {rate : Nat} (h0 : 0 < rate)
    (h31 : rate < 2 ^ 31) (hb : r.wrap + incCalc r.wrap r.outRate.toNat rate ≤ 2 ^ 32) :
    (r.storeRate rate).selectLocked.Inv p := by
  obtain ⟨hph, hinc, hlk⟩ := storedRate_values (h.phase hv).1 hb
  have hrate : (BitVec.ofNat 32 rate).toInt = rate := toInt_ofNat_of_lt h31
  have hnat : (BitVec.ofNat 32 rate).toNat = rate := Nat.mod_eq_of_lt (by omega)
  exact { h with
    constZero := fun hc => absurd (hv.symm.trans hc) (by simp)
    rates := fun _ => ⟨by show 0 < (BitVec.ofNat 32 rate).toInt; omega, (h.rates hv).2⟩
    phase := fun _ => ⟨hph, by rw [hinc]; exact hb⟩
    increment := fun _ => by show _ = incCalc r.wrap r.outRate.toNat (BitVec.ofNat 32 rate).toNat; rw [hinc, hnat]
    lockedPhase := fun _ => hlk }

/-- Legal parameters give a ring of at least four half-lengths that fits 16 bits (R200, R40). -/
theorem ringFrames_range {p : Params} (hl : p.legal = true) {h : Nat} (h32 : h ≤ 32) :
    4 * h ≤ ringFrames p h ∧ ringFrames p h < 2 ^ 16 := by
  have hm : 2 ≤ p.stateMult ∧ p.stateMult ≤ 1023 := by simp [Params.legal] at hl; omega
  unfold ringFrames
  constructor <;> nlinarith

/-- The ranges of fresh constants for a positive OUT_RATE (R156, R158, R159). -/
theorem deriveConstants_ranges {t : Tier} {o i : Nat} {k : Constants} (hd : deriveConstants t o i = some k)
    (ho : 0 < o) : (63 ≤ k.l ∧ k.l ≤ 127) ∧ k.shift ≤ 30 ∧ 8 ≤ k.h ∧ k.h ≤ 32 := by
  obtain ⟨hl, -, hs, hh, -⟩ := deriveConstants_some hd
  rw [hl, hs, hh]
  exact ⟨⟨clampPhases_ge (basePhases_pos ho i), clampPhases_le _⟩, Nat.sub_le _ _, tierH_pos _ _, tierH_le _ _⟩

section Redesign

variable {s : State} {k : Constants} {rate : Nat}

/-- The constants a re-design stores are the derived ones (R160). -/
theorem redesigned_constants (hk : k.Fits) :
    let q := (redesigned k rate s).regs
    q.l.toNat = k.l ∧ q.shift.toNat = k.shift ∧ q.h.toNat = k.h ∧ q.designAtten.toNat = k.atten := by
  rw [redesigned_regs hk]
  exact ⟨Nat.mod_eq_of_lt hk.l, Nat.mod_eq_of_lt hk.shift, Nat.mod_eq_of_lt hk.h, Nat.mod_eq_of_lt hk.atten⟩

/-- WRAP after a re-design (R161). -/
theorem redesigned_wrap (hk : k.Fits) : (redesigned k rate s).regs.wrap = k.l * 2 ^ k.shift := by
  obtain ⟨hl, hs, -⟩ := redesigned_constants (s := s) (rate := rate) hk
  rw [Regs.wrap_eq, hl, hs]

/-- The ring a re-design leaves is the one its H asks for, kept or made (R202, R203, R210). -/
theorem redesigned_ring (hl : s.params.legal = true) (h : s.regs.Inv s.params) (hk : k.Fits) (h0 : 0 < k.h)
    (h32 : k.h ≤ 32) :
    let q := (redesigned k rate s).regs
    q.histFrames.toNat = ringFrames s.params q.h.toNat ∧ q.ringFull.toNat + q.h.toNat = q.histFrames.toNat ∧
      q.h.toNat ≤ q.impulse.toNat ∧ q.impulse.toNat < q.ringFull.toNat := by
  obtain ⟨-, -, hqh, -⟩ := redesigned_constants (s := s) (rate := rate) hk
  have hF := ringFrames_range hl h32
  dsimp only
  rw [hqh, redesigned_regs hk]
  by_cases hkeep : s.regs.histValid = true ∧ s.regs.histFrames.toNat = ringFrames s.params k.h
  · obtain ⟨hfr, hfull, himp⟩ := h.ring hkeep.1
    have hm : 0 < s.params.stateMult * 2 := by simp [Params.legal] at hl; omega
    have hh : s.regs.h.toNat = k.h := Nat.eq_of_mul_eq_mul_left hm (hfr.symm.trans hkeep.2)
    rw [hh] at hfull himp
    simp only [if_pos hkeep]
    exact ⟨hkeep.2, hfull, himp⟩
  · simp only [if_neg hkeep, BitVec.toNat_ofNat]
    rw [Nat.mod_eq_of_lt hF.2, Nat.mod_eq_of_lt (show ringFrames s.params k.h - k.h < 2 ^ 16 by omega),
      Nat.mod_eq_of_lt (show k.h < 2 ^ 16 by omega)]
    omega

/-- The rescaled phase lies below the new WRAP (R263). -/
theorem redesigned_phase_lt (h : s.regs.Inv s.params) (hk : k.Fits) (hpos : 0 < k.l) :
    (redesigned k rate s).regs.phase.toNat < (redesigned k rate s).regs.wrap := by
  have hw : 0 < k.l * 2 ^ k.shift := Nat.mul_pos hpos (by positivity)
  rw [redesigned_wrap hk, redesigned_regs hk]
  dsimp only
  split
  · exact hw
  · rename_i hc
    obtain ⟨hv, h0⟩ := not_or.1 hc
    refine lt_of_le_of_lt (Nat.mod_le _ _) ?_
    rw [Nat.div_lt_iff_lt_mul (Nat.pos_of_ne_zero h0), Nat.mul_comm]
    exact Nat.mul_lt_mul_of_pos_left (h.phase (by simpa using hv)).1 hw

/-- A re-design leaves RateSet or RateChanging (R294). -/
theorem afterRedesign_cases (st : Facade) : st.afterRedesign = .rateSet ∨ st.afterRedesign = .rateChanging := by
  cases st <;> simp [Facade.afterRedesign]

/-- A SET_RATE that re-designs makes the invariant of its new constants (R290, R294). -/
theorem Regs.Inv.redesign (hl : s.params.legal = true) (h : s.regs.Inv s.params) (hu : s.regs.state ≠ .unconfigured)
    (hf : s.regs.state ≠ .fault) (hd : deriveConstants s.regs.tier s.regs.outRate.toNat rate = some k)
    (h0 : 0 < rate) (h31 : rate < 2 ^ 31) :
    ((redesigned k rate s).regs.storeRate rate).selectLocked.Inv s.params := by
  have hk := deriveConstants_fits hd
  obtain ⟨hL, hS, hH⟩ := deriveConstants_ranges hd (h.outRate_pos hu)
  have hb : (redesigned k rate s).regs.wrap +
      incCalc (redesigned k rate s).regs.wrap s.regs.outRate.toNat rate ≤ 2 ^ 32 := by
    rw [redesigned_wrap hk]
    exact deriveConstants_wrap_add_inc hd (h.outRate_pos hu)
  have hout : (redesigned k rate s).regs.outRate = s.regs.outRate := by rw [redesigned_regs hk]
  obtain ⟨hph, hinc, hlk⟩ :=
    storedRate_values (redesigned_phase_lt (rate := rate) h hk (by omega)) (by rw [hout]; exact hb)
  have hring := redesigned_ring (rate := rate) hl h hk (by omega) hH.2
  obtain ⟨hql, hqs, hqh, hqa⟩ := redesigned_constants (s := s) (rate := rate) hk
  have hkq : deriveConstants s.regs.tier s.regs.outRate.toNat rate =
      let q := (redesigned k rate s).regs
      some ⟨q.l.toNat, q.shift.toNat, q.h.toNat, q.designAtten.toNat⟩ := by
    dsimp only
    rw [hd, hql, hqs, hqh, hqa]
  have hrate : (BitVec.ofNat 32 rate).toInt = rate := toInt_ofNat_of_lt h31
  have hnat : (BitVec.ofNat 32 rate).toNat = rate := Nat.mod_eq_of_lt (by omega)
  have hnone : s.regs.faultCause = .none := by simpa [hf] using h.faultCause
  have hst := afterRedesign_cases s.regs.state
  rw [redesigned_regs hk] at hb hout hph hinc hlk hring hql hqs hkq ⊢
  exact {
    faultCause := by rcases hst with e | e <;> simp [Regs.storeRate, Regs.selectLocked, e, hnone]
    unconfigured := by rcases hst with e | e <;> simp [Regs.storeRate, Regs.selectLocked, e]
    configured := fun _ => h.configured hu
    constStates := by rcases hst with e | e <;> simp [Regs.storeRate, Regs.selectLocked, e]
    histStates := rfl
    constZero := by simp [Regs.storeRate, Regs.selectLocked]
    phases := fun _ => hql.symm ▸ hL
    shiftRange := fun _ => hqs.symm ▸ hS
    designed := fun _ => (congrArg (deriveConstants _ _) hnat).trans hkq
    rates := fun _ => by
      show 0 < (BitVec.ofNat 32 rate).toInt ∧ 0 < (BitVec.ofNat 32 rate).toInt
      omega
    phase := fun _ => ⟨hph, hinc ▸ hb⟩
    increment := fun _ => hinc.trans (congrArg _ hnat.symm)
    lockedPhase := fun _ => hlk
    pendingBound := h.pendingBound
    ring := fun _ => hring
    heldBlock := h.heldBlock
    heldZero := h.heldZero
    coefCount := Nat.zero_le _ }

end Redesign

/-! ### Memories -/

/-- A memory in canonical form that lists only elements it has (R80, R87). -/
def Mem.Sized {w : Nat} (size : Nat) (m : Mem w) : Prop := m.wf = true ∧ m.within size = true

theorem Mem.Sized.write {w size : Nat} (m : Mem w) (i : Nat) (v : BitVec w) (hi : i < size) (h : m.Sized size) :
    (m.write i v).Sized size := ⟨Mem.wf_write h.1 i v, Mem.within_write h.2 hi v⟩

/-- With nothing staged and Ready not entered the tap widths say nothing. -/
theorem State.BankInv.unloaded {t : State} (hc : t.regs.coefCount = 0) (hr : t.regs.state ≠ .ready) : t.BankInv where
  staged _ i hi := by rw [hc] at hi; exact absurd hi (Nat.not_lt_zero i)
  active _ ht := absurd ht hr

/-- SET_RATE is not accepted in Unconfigured and in Fault (R281). -/
theorem acceptance_setRate {st : Facade} (ha : acceptance .setRate st = .ok) : st ≠ .unconfigured ∧ st ≠ .fault := by
  constructor <;> rintro rfl <;> cases ha

/-- The bank commands are accepted in RateSet, Ready and RateChanging (R281). -/
theorem acceptance_bank {op : Opcode} {st : Facade} (hop : op = .coefWrite ∨ op = .coefCommit)
    (ha : acceptance op st = .ok) : st = .rateSet ∨ st = .ready ∨ st = .rateChanging := by
  rcases hop with rfl | rfl <;> cases st <;> simp [acceptance] at ha ⊢

namespace State.Inv

variable {s t : State}

/-! ### Answers and other agents -/

/-- An answer keeps the invariant. -/
theorem answer (h : s.Inv) (st : Status) (d : Word) : (answer st d s).Inv where
  params := h.params
  regs := h.regs.lastErr _
  waits := h.waits
  mems := h.mems.congr rfl rfl rfl rfl rfl rfl
  banks := h.banks.congr rfl rfl rfl id rfl rfl

/-- INP, OUT and the channels may change, and a wait may end. -/
theorem moved (h : s.Inv) (hp : t.params = s.params) (hr : t.regs = s.regs)
    (hw : t.waiting = s.waiting ∨ t.waiting = none) (hi : t.inp.Sized s.params.inpWords)
    (ho : t.out.Sized (2 * s.params.outFrames)) (hh : t.hist = s.hist) (ha : t.acoef = s.acoef)
    (hs : t.scoef = s.scoef) : t.Inv where
  params := hp ▸ h.params
  regs := by rw [hp, hr]; exact h.regs
  waits w hwt := by
    rcases hw with hw | hw
    · rw [hp, hr]; exact h.waits w (hw ▸ hwt)
    · rw [hw] at hwt; cases hwt
  mems := {
    inp := by rw [hp]; exact hi
    out := by rw [hp]; exact ho
    hist := by rw [hp, hh]; exact h.mems.hist
    acoef := by rw [ha]; exact h.mems.acoef
    scoef := by rw [hs]; exact h.mems.scoef }
  banks := h.banks.congr (by rw [hr]) (by rw [hr]) (by rw [hr]) (by rw [hr]; exact id) ha hs

theorem portEvent (h : s.Inv) (e : PortEvent) : (portEvent e s).Inv :=
  h.moved rfl rfl (.inl rfl) h.mems.inp h.mems.out rfl rfl rfl

theorem agentAccess (h : s.Inv) (a : AgentAccess) : (agentAccess a s).Inv :=
  h.moved (by simp) (by simp) (.inl (by simp))
    (agentAccesses_inp_induct (Mem.Sized _) Mem.Sized.write [a] s rfl h.mems.inp)
    (agentAccesses_out_induct (Mem.Sized _) Mem.Sized.write [a] s rfl h.mems.out)
    (by simp) (by simp) (by simp)

theorem agentsMove (h : s.Inv) : (agentsMove s).Inv :=
  h.moved (by simp) (by simp) (.inl (by simp))
    (agentsMove_inp_induct (Mem.Sized _) s Mem.Sized.write h.mems.inp)
    (agentsMove_out_induct (Mem.Sized _) s Mem.Sized.write h.mems.out)
    (by simp) (by simp) (by simp)

/-- The provider's answer has arrived: its writes of INP are in range or take no effect (R92, R87). -/
theorem afterAnswer (h : s.Inv) (a : ProviderAnswer) (rest : List ProviderAnswer) : (afterAnswer a rest s).Inv := by
  have hw : State.Inv { s with provider := rest, waiting := none } :=
    h.moved rfl rfl (.inr rfl) h.mems.inp h.mems.out rfl rfl rfl
  refine agentsMove (hw.moved (by simp) (by simp) (.inl (by simp)) ?_ (by simpa [Mem.Sized] using h.mems.out) (by simp)
    (by simp) (by simp))
  exact providerWrites_inp_induct (Mem.Sized _) Mem.Sized.write _ _ rfl h.mems.inp

/-! ### The commands but RESAMPLE -/

/-- Registers whose banks, bank size and Ready stand as they did may be replaced by any that meet the invariant. -/
theorem setRegs (h : s.Inv) (hw : s.waiting = none) {r : Regs} (hr : r.Inv s.params) (ht : r.coef32 = s.regs.coef32)
    (hc : r.coefCount = s.regs.coefCount) (hz : r.bankSize = s.regs.bankSize) (hst : r.state = s.regs.state) :
    State.Inv { s with regs := r } where
  params := h.params
  regs := hr
  waits := by simp [hw]
  mems := h.mems.congr rfl rfl rfl rfl rfl rfl
  banks := h.banks.congr ht hc hz (by rw [← hst]; exact id) rfl rfl

/-- After RESET_ACTIONS any registers that meet the invariant may stand, if no element is staged and the block is not
Ready (R321). -/
theorem resetActions (h : s.Inv) (hw : s.waiting = none) {r : Regs} (hr : r.Inv s.params) (hc : r.coefCount = 0)
    (hst : r.state ≠ .ready) : State.Inv { resetActions s with regs := r } where
  params := by simpa using h.params
  regs := by simpa using hr
  waits := by simp [hw]
  mems := h.mems.congr (by simp) (by simp) (by simp) (by simp) (by simp) (by simp)
  banks := .unloaded hc hst

theorem createBody (h : s.Inv) (hw : s.waiting = none) {tier chan bits : Nat} {rate : Int} (hs : isS32 rate = true) :
    (createBody tier chan bits rate s).Inv := by
  rcases createBody_cases tier chan bits rate s with he | ⟨t, -, hc, -, h0, he⟩ <;> rw [he]
  · exact h.answer _ _
  · exact (h.resetActions hw (create_inv hc h0 hs) rfl (by simp [Regs.create])).answer _ _

theorem resetBody (h : s.Inv) (hw : s.waiting = none) : (resetBody s).Inv := by
  rw [resetBody_eq]
  refine (h.resetActions hw h.regs.reset rfl ?_).answer _ _
  cases s.regs.state <;> simp [Facade.afterReset]

/-- The ring that a re-design makes lies inside HIST (R47, R200). -/
theorem rbResize_hist (h : s.Inv) {hn : Nat} (h32 : hn ≤ 32) :
    (rbResize hn s).hist.Sized (Config.histCap s.params) := by
  refine rbResize_hist_induct _ hn s (fun m i v hi => Mem.Sized.write m i v (lt_of_lt_of_le hi ?_)) h.mems.hist
  exact Nat.mul_le_mul (Nat.mul_le_mul_left _ h32) h.regs.channels_le

theorem setRateBody (h : s.Inv) (hw : s.waiting = none) (ha : acceptance .setRate s.regs.state = .ok) {rate : Int}
    (hs : isS32 rate = true) : (setRateBody rate s).Inv := by
  obtain ⟨hu, hf⟩ := acceptance_setRate ha
  have h31 : rate < 2 ^ 31 := by simp [isS32] at hs; omega
  rcases setRateBody_cases rate s with he | ⟨-, -, he⟩ | ⟨h0, -, k, hd, he⟩ | ⟨h0, hr, he⟩ <;> rw [he]
  · exact h.answer _ _
  · exact h.answer _ _
  · have hk := deriveConstants_fits hd
    have hregs := Regs.Inv.redesign h.params h.regs hu hf hd (by omega) (by omega)
    refine answer ?_ _ _
    refine ⟨by simpa using h.params, by simpa using hregs, by simp [hw], ?_, .unloaded ?_ ?_⟩
    · obtain ⟨-, -, -, hh32⟩ := deriveConstants_ranges hd (h.regs.outRate_pos hu)
      exact ⟨by simpa using h.mems.inp, by simpa using h.mems.out,
        by simpa [redesigned_hist hk, Mem.Sized] using h.rbResize_hist hh32, by simpa using h.mems.acoef,
        by simpa using h.mems.scoef⟩
    · show (redesigned k rate.toNat s).regs.coefCount = 0
      rw [redesigned_regs hk]
    · show (redesigned k rate.toNat s).regs.state ≠ .ready
      rw [redesigned_regs hk]
      rcases afterRedesign_cases s.regs.state with e | e <;> simp [e]
  · simp only [redesign, Bool.or_eq_false_iff, Bool.not_eq_false', decide_eq_false_iff_not, not_lt] at hr
    obtain ⟨⟨hv, -⟩, hb⟩ := hr
    exact (h.setRegs hw (h.regs.storeRate hv (by omega) (by omega) hb) rfl rfl rfl rfl).answer _ _

theorem setVolumeBody (h : s.Inv) (hw : s.waiting = none) (l r : BitVec 16) : (setVolumeBody l r s).Inv :=
  (h.setRegs hw (h.regs.gains l r) rfl rfl rfl rfl).answer _ _

/-- The bank commands run where constants exist, Fault excepted (R281, R282). -/
theorem bank_states (h : s.Inv) {op : Opcode} (hop : op = .coefWrite ∨ op = .coefCommit)
    (ha : acceptance op s.regs.state = .ok) : s.regs.constValid = true ∧ s.regs.state ≠ .fault := by
  rcases acceptance_bank hop ha with hs | hs | hs <;> exact ⟨h.regs.constStates.2 (by simp [hs]), by simp [hs]⟩

theorem coefWriteBody (h : s.Inv) (hw : s.waiting = none) (hv : s.regs.constValid = true) (start : Bool)
    (value : Word) : (coefWriteBody start value s).Inv := by
  rcases coefWriteBody_cases start value s with he | ⟨idx, hidx, hlt, htap, he⟩ <;> rw [he]
  · exact h.answer _ _
  · have hz := h.regs.bankSize_le
    have hn : (BitVec.ofNat 13 (idx + 1)).toNat = idx + 1 :=
      Nat.mod_eq_of_lt (by unfold Config.bankElems at hz; omega)
    refine answer ?_ _ _
    refine ⟨h.params, h.regs.stage hv (by rw [hn]; exact hlt), by simp [hw], ?_, ?_, h.banks.active⟩
    · exact ⟨h.mems.inp, h.mems.out, h.mems.hist, h.mems.acoef, Mem.Sized.write _ _ value (by omega) h.mems.scoef⟩
    · intro hlow i hi
      have hlow' : s.regs.coef32 = false := hlow
      have hi' : i < idx + 1 := hn ▸ hi
      have hle : idx ≤ s.regs.coefCount.toNat := by rw [hidx]; split <;> omega
      show isSext16 ((s.scoef.write idx value).read i) = true
      rw [Mem.read_write h.mems.scoef.1]
      split
      · exact htap.resolve_left (by simp [hlow'])
      · exact h.banks.staged hlow' i (by omega)

theorem coefCommitBody (h : s.Inv) (hw : s.waiting = none) (hv : s.regs.constValid = true)
    (hf : s.regs.state ≠ .fault) : (coefCommitBody s).Inv := by
  rcases coefCommitBody_cases s with ⟨-, he⟩ | ⟨hfull, he⟩ <;> rw [he]
  · exact h.answer _ _
  · have hm := h.mems
    refine answer ?_ _ _
    refine ⟨h.params, h.regs.commit hv hf, by simp [hw], ?_, ?_, ?_⟩
    · exact ⟨hm.inp, hm.out, hm.hist,
        ⟨Mem.wf_copyLow hm.scoef.1 hm.acoef.1 _, Mem.within_copyLow hm.scoef.2 hm.acoef.2 _⟩, hm.scoef⟩
    · exact fun _ i hi => absurd hi (Nat.not_lt_zero i)
    · intro hlow _ i hi
      have hi' : i < s.regs.bankSize := hi
      show isSext16 ((Mem.copyLow s.regs.bankSize s.scoef s.acoef).read i) = true
      rw [Mem.read_copyLow hm.scoef.1 hm.acoef.1, if_pos hi']
      exact h.banks.staged hlow i (hfull ▸ hi')

theorem readRegBody (h : s.Inv) (n : Nat) : (readRegBody n s).Inv := by
  rcases readRegBody_cases n s with ⟨v, -, he⟩ | he <;> rw [he] <;> exact h.answer _ _

end State.Inv

/-! ### RESAMPLE -/

/-- A consumed frame leaves the registers alone that say which taps the banks hold. -/
theorem consumeFrame_bankRegs (s : State) :
    (consumeFrame s).regs.tier = s.regs.tier ∧ (consumeFrame s).regs.coefCount = s.regs.coefCount ∧
      (consumeFrame s).regs.l = s.regs.l ∧ (consumeFrame s).regs.h = s.regs.h ∧
      (consumeFrame s).regs.state = s.regs.state := by
  rw [consumeFrame_regs]
  dsimp only
  split <;> exact ⟨rfl, rfl, rfl, rfl, rfl⟩

/-- What holds while a RESAMPLE runs: the block is Ready and meets its invariant. -/
structure State.Runs (p : Params) (s : State) : Prop where
  inv : s.Inv
  ready : s.regs.state = .ready
  params : s.params = p

namespace State.Runs

variable {p : Params} {s : State}

theorem valid (h : s.Runs p) : s.regs.constValid = true := (h.inv.regs.ready_valid h.ready).1

theorem histValid (h : s.Runs p) : s.regs.histValid = true := (h.inv.regs.ready_valid h.ready).2

/-- The frame staged for RB_READ_ADVANCE is inside the ring, and the compaction's window is (R207, R208, R210). -/
theorem readAdvance_hist (h : s.Runs p) : (readAdvance s).hist.Sized (Config.histCap s.params) := by
  obtain ⟨hfr, hfull, himp, hlt⟩ := h.inv.regs.ring h.histValid
  have hH := h.inv.regs.h_range h.valid
  have hF := ringFrames_range h.inv.params hH.2
  have hadv := advanceImpulse_ring himp hlt (by omega) (by omega)
  have hcap : s.regs.histFrames.toNat * s.channels ≤ Config.histCap s.params := by
    rw [hfr]
    exact Nat.mul_le_mul (Nat.mul_le_mul_left _ hH.2) h.inv.regs.channels_le
  have hh : (advanceImpulse s).regs.h = s.regs.h := by rw [advanceImpulse_regs]
  have hch : (advanceImpulse s).channels = s.channels := by unfold State.channels; rw [advanceImpulse_regs]
  refine readAgain_hist_induct _ _ (fun m c v hc => Mem.Sized.write m _ v (lt_of_lt_of_le ?_ hcap))
    (advanceImpulse_hist_induct _ s (fun m i v hi => Mem.Sized.write m i v (lt_of_lt_of_le hi (le_trans ?_ hcap)))
      h.inv.mems.hist)
  · rw [hch] at hc ⊢
    rw [hh]
    calc _ < ((advanceImpulse s).regs.impulse.toNat + s.regs.h.toNat + 1) * s.channels := by
            rw [Nat.add_mul _ 1, Nat.one_mul]; omega
      _ ≤ s.regs.histFrames.toNat * s.channels := Nat.mul_le_mul_right _ (by omega)
  · exact Nat.mul_le_mul_right _ (by omega)

/-- Consuming an owed frame from the held block keeps the invariant (R302, R303). -/
theorem consumeFrame (h : s.Runs p) (hw : s.waiting = none) (hh : s.regs.held = true) (hp : 0 < s.regs.pending.toNat) :
    (consumeFrame s).Runs p := by
  obtain ⟨ht, hc, hl, hhl, hst⟩ := consumeFrame_bankRegs s
  have hm := h.inv.mems
  refine ⟨⟨by simpa using h.inv.params, ?_, by simp [hw], ?_, ?_⟩, hst.trans h.ready, by simpa using h.params⟩
  · simpa using consumeFrame_inv h.inv.params h.inv.regs h.valid hh hp
  · exact {
      inp := by simpa [Mem.Sized] using consumeFrame_inp_induct (Mem.Sized _) s Mem.Sized.write hm.inp
      out := by simpa [Mem.Sized] using consumeFrame_out_induct (Mem.Sized _) s Mem.Sized.write hm.out
      hist := by simpa [Mem.Sized] using h.readAdvance_hist
      acoef := by simpa using hm.acoef
      scoef := by simpa using hm.scoef }
  · exact h.inv.banks.congr (by simp [Regs.coef32, ht]) hc (by simp [Regs.bankSize, hl, hhl]) (by rw [hst]; exact id)
      (by simp) (by simp)

/-- A produced frame lies inside OUT, and the phase steps (R247, R260). -/
theorem produced (h : s.Runs p) (hw : s.waiting = none) (hp : s.regs.pending = 0) {f : Nat}
    (hf : f < s.params.outFrames) : (produced f s).Runs p := by
  have hm := h.inv.mems
  have hout : ∀ c, c < 2 → outIndex f c < 2 * s.params.outFrames := by intro c hc; unfold outIndex; omega
  refine ⟨⟨by simpa [Machine.produced] using h.inv.params, ?_, by simp [Machine.produced, hw], ?_, ?_⟩, h.ready,
    by simpa [Machine.produced] using h.params⟩
  · simpa [Machine.produced] using h.inv.regs.stepPhase h.valid hp
  · have hi := produced_inp_induct (Mem.Sized s.params.inpWords) f s Mem.Sized.write hm.inp
    have ho := produced_out_induct (Mem.Sized (2 * s.params.outFrames)) f s Mem.Sized.write
      (fun m c v hc => Mem.Sized.write m _ v (hout c hc)) hm.out
    have hps : (Machine.produced f s).params = s.params := by simp [Machine.produced]
    exact {
      inp := by rw [hps]; exact hi
      out := by rw [hps]; exact ho
      hist := by simpa [Machine.produced] using hm.hist
      acoef := by simpa [Machine.produced] using hm.acoef
      scoef := by simpa [Machine.produced] using hm.scoef }
  · exact h.inv.banks.congr rfl rfl rfl id (by simp [Machine.produced]) (by simp [Machine.produced])

theorem agentsMove (h : s.Runs p) : (agentsMove s).Runs p :=
  ⟨h.inv.agentsMove, by simpa using h.ready, by simpa using h.params⟩

theorem portEvent (h : s.Runs p) (e : PortEvent) : (portEvent e s).Runs p := ⟨h.inv.portEvent e, h.ready, h.params⟩

theorem afterAnswer (h : s.Runs p) (a : ProviderAnswer) (rest : List ProviderAnswer) : (afterAnswer a rest s).Runs p :=
  ⟨h.inv.afterAnswer a rest, by rw [afterAnswer_keeps]; exact h.ready, by rw [afterAnswer_keeps]; exact h.params⟩

/-- A descriptor inside INP that is not empty may be held (R41, R305). -/
theorem holdBlock (h : s.Runs p) (hw : s.waiting = none) {d : Descriptor} (h0 : d.frames ≠ 0)
    (hr : descriptorOutOfRange s d = false) : (holdBlock d s).Runs p := by
  have hin : d.base.toNat + d.frames.toNat * s.regs.c.toNat ≤ s.params.inpWords := by
    simpa [descriptorOutOfRange, State.channels] using hr
  exact ⟨h.inv.setRegs hw (h.inv.regs.hold d h0 h.valid hin) rfl rfl rfl rfl, h.ready, h.params⟩

/-- The end of a RESAMPLE writes RESULT and SHORT only (R300). -/
theorem finishResample (h : s.Runs p) (hw : s.waiting = none) (n k : Nat) : (finishResample n k s).Inv :=
  have hr := h.inv.regs.answered s.regs.lastErr (BitVec.ofNat 32 k) (decide (k < n))
  (h.inv.setRegs hw hr rfl rfl rfl rfl).answer _ _

/-- Fault entry keeps the invariant: Ready is left with the constants in force (R366). -/
theorem raiseFault (h : s.Runs p) (hw : s.waiting = none) (k : Nat) : (raiseFault .providerRange k s).Inv where
  params := h.inv.params
  regs := h.inv.regs.raise h.ready _ _ _
  waits := by simp [hw]
  mems := h.inv.mems.congr rfl rfl rfl rfl rfl rfl
  banks := h.inv.banks.congr rfl rfl rfl (fun hf => by cases hf) rfl rfl

/-- A RESAMPLE of frames inside OUT may wait for its owed input (R92). -/
theorem wait (h : s.Runs p) {n base k : Nat} (hk : k < n) (hn : n < 2 ^ 24) (hb : base + n ≤ p.outFrames)
    (hh : s.regs.held = false) (hp : 0 < s.regs.pending.toNat) : State.Inv { s with waiting := some ⟨n, base, k⟩ } where
  params := h.inv.params
  regs := h.inv.regs
  waits := by
    rintro w ⟨⟩
    exact ⟨h.ready, hh, hp, hk, hn, by rw [h.params]; exact hb⟩
  mems := h.inv.mems.congr rfl rfl rfl rfl rfl rfl
  banks := h.inv.banks.congr rfl rfl rfl id rfl rfl

/-- The loop of a RESAMPLE keeps the invariant, whatever round it starts from and however it ends. -/
theorem loopRule {n base : Nat} (hn : n < 2 ^ 24) (hb : base + n ≤ p.outFrames) :
    LoopRule n base (fun _ s => s.Runs p ∧ s.waiting = none) (fun _ s => s.Runs p) State.Inv where
  request _ _ _ hP _ _ := (hP.1.portEvent _).agentsMove
  wait _ _ hk hA hh hp _ := hA.wait hk hn hb hh hp
  short _ _ a rest _ hA _ _ _ _ := (hA.afterAnswer a rest).finishResample (by rw [afterAnswer_keeps]) _ _
  bad _ _ a rest _ _ hA _ _ _ _ _ _ := (hA.afterAnswer a rest).raiseFault (by rw [afterAnswer_keeps]) _
  hold _ _ a rest d _ hA _ _ _ _ h0 hr :=
    ⟨(hA.afterAnswer a rest).holdBlock (by rw [afterAnswer_keeps]) h0
        (by rw [descriptorOutOfRange_afterAnswer]; exact hr),
      by rw [holdBlock_waiting, afterAnswer_keeps]⟩
  consume _ _ _ hP hh hp := ⟨hP.1.consumeFrame hP.2 hh hp, by simpa using hP.2⟩
  produce k s hk hP hp :=
    ⟨hP.1.produced hP.2 hp (by rw [hP.1.params]; omega), by simpa [Machine.produced] using hP.2⟩
  done _ hP := hP.1.finishResample hP.2 _ _

end State.Runs

namespace State.Inv

variable {s t : State}

theorem resampleBody (h : s.Inv) (hw : s.waiting = none) (hr : s.regs.state = .ready) {n base : Nat} (hn : n < 2 ^ 24) :
    (resampleBody n base s).Inv := by
  rcases resampleBody_cases n base s with ⟨-, he⟩ | ⟨hb, he⟩ <;> rw [he]
  · exact h.answer _ _
  · exact (State.Runs.loopRule hn hb).body ⟨⟨h, hr, rfl⟩, hw⟩

/-- A waiting RESAMPLE keeps the invariant, answered or not (R312). -/
theorem resumeResample (h : s.Inv) {w : Waiting} (hw : s.waiting = some w) : (resumeResample w s).Inv := by
  obtain ⟨hr, hh, hp, hk, hn, hb⟩ := h.waits w hw
  by_cases hpr : s.provider = []
  · have : Machine.resumeResample w s = Machine.agentsMove s := by rw [Machine.resumeResample, hpr]
    rw [this]
    exact h.agentsMove
  · exact (State.Runs.loopRule hn hb).resume rfl rfl hk ⟨h, hr, rfl⟩ hh hp hpr

/-! ### Every step -/

/-- A command with an encoding keeps the invariant where none waits. -/
theorem exec (h : s.Inv) (hw : s.waiting = none) {i : Instr} (hi : i.wellFormed = true) (he : exec i s = .next t) :
    t.Inv := by
  refine exec_induct he (fun ha => ?_) (h.answer _ _) (h.answer _ _)
  cases i with
  | nop => exact h.answer _ _
  | create tier chan bits rate => exact h.createBody hw (by simp [Instr.wellFormed] at hi; exact hi.2)
  | setRate rate => exact h.setRateBody hw ha hi
  | setVolume l r => exact h.setVolumeBody hw l r
  | resample n base => exact h.resampleBody hw (acceptance_resample ha) (by simp [Instr.wellFormed] at hi; exact hi.1)
  | coefWrite start value => exact h.coefWriteBody hw (h.bank_states (.inl rfl) ha).1 start value
  | coefCommit =>
    obtain ⟨hv, hf⟩ := h.bank_states (.inr rfl) ha
    exact h.coefCommitBody hw hv hf
  | reset => exact h.resetBody hw
  | readReg n => exact h.readRegBody n

theorem runPacket (h : s.Inv) (hw : s.waiting = none) {p : Packet} (hr : runPacket p s = .next t) : t.Inv := by
  unfold Machine.runPacket at hr
  split at hr
  · rename_i i hd
    obtain ⟨row, -, -, rfl⟩ := (decode_ok_iff p i).1 hd
    exact h.exec hw (fieldsOf_wellFormed _ _) hr
  · obtain rfl : answerIllegal p s = t := by injection hr
    unfold answerIllegal
    split <;> exact h.answer _ _

/-- The host's next action keeps the invariant: a packet, a write or a read of an element, or nothing (R91, R380). -/
theorem hostStep (h : s.Inv) (hw : s.waiting = none) (ht : hostStep s = .next t) : t.Inv := by
  have hrest : ∀ rest, State.Inv { s with host := rest } := fun _ =>
    h.moved rfl rfl (.inl rfl) h.mems.inp h.mems.out rfl rfl rfl
  unfold Machine.hostStep at ht
  split at ht
  · obtain rfl : s = t := by injection ht
    exact h
  · rename_i p rest _
    exact (hrest rest).runPacket hw ht
  · rename_i w rest _
    split at ht
    · obtain rfl : agentWrite w { s with host := rest } = t := by injection ht
      exact (hrest rest).agentAccess (.write w)
    · cases ht
  · rename_i r rest _
    split at ht
    · obtain rfl : agentRead r { s with host := rest } = t := by injection ht
      exact (hrest rest).agentAccess (.read r)
    · cases ht

end State.Inv

/-- Settles O58: a waiting RESAMPLE resumes through the rule of its loop; else the host's next action keeps the
invariant, and where that is a packet its command does. -/
theorem everyStepKeepsTheInvariant : Obligations.EveryStepKeepsTheInvariant := by
  intro s t h hstep
  unfold step nextAction at hstep
  split at hstep
  · rename_i w hw
    obtain rfl : resumeResample w s = t := by injection hstep
    exact h.resumeResample hw
  · rename_i hw
    exact h.hostStep hw hstep

/-! ### Power-on -/

/-- Settles O57: at power-on every register stands as RESET_ACTIONS leave it, and the memories list nothing. -/
theorem powerOnMeetsTheInvariant : Obligations.PowerOnMeetsTheInvariant := by
  intro p hl
  have hregs : Regs.powerOn.Inv p :=
    resetActions_inv (r := Regs.powerOn) (.inl rfl) (fun _ => ⟨rfl, rfl, rfl, rfl⟩) (fun hne => absurd rfl hne)
  exact {
    params := hl
    regs := hregs
    waits := fun _ hw => by cases hw
    mems := ⟨⟨rfl, rfl⟩, ⟨rfl, rfl⟩, ⟨rfl, rfl⟩, ⟨rfl, rfl⟩, ⟨rfl, rfl⟩⟩
    banks := .unloaded rfl (by simp [State.reset, Regs.powerOn]) }

end Sys2Proof.Machine
end

section
/-! PROOFS. The state (10_state.md): what READ_REG returns, which command writes which register and memory, and that HIST
is not read while its contents are unspecified. -/

namespace Sys2Proof.Machine

/-! ### Fields of a word (R8, R58) -/

/-- A word whose fields so far lie below bit `top` and are together the number `v`. -/
structure Packs {w : Nat} (x : BitVec w) (top v : Nat) : Prop where
  value : x.toNat = v
  below : v < 2 ^ top

/-- A field placed where it fits is its value times its place (R8). -/
theorem toNat_place {n w : Nat} (v : BitVec n) {lo : Nat} (h : lo + n ≤ w) :
    (place w v lo).toNat = 2 ^ lo * v.toNat := by
  have hlt : v.toNat * 2 ^ lo < 2 ^ w := by
    calc v.toNat * 2 ^ lo < 2 ^ n * 2 ^ lo := Nat.mul_lt_mul_of_pos_right v.isLt (by positivity)
      _ = 2 ^ (lo + n) := by rw [← pow_add, Nat.add_comm]
      _ ≤ 2 ^ w := Nat.pow_le_pow_right (by decide) h
  have hw : v.toNat < 2 ^ w := lt_of_le_of_lt (Nat.le_mul_of_pos_right _ (by positivity)) hlt
  rw [place, BitVec.toNat_shiftLeft, BitVec.toNat_setWidth, Nat.mod_eq_of_lt hw, Nat.shiftLeft_eq, Nat.mod_eq_of_lt hlt,
    Nat.mul_comm]

/-- The lowest field of a word. -/
theorem Packs.lowest {n w : Nat} (v : BitVec n) (h : n ≤ w) : Packs (place w v 0) n v.toNat :=
  ⟨by simpa using toNat_place (lo := 0) v (by omega), v.isLt⟩

/-- A field above all those so far adds its value at its place. -/
theorem Packs.field {n w top a : Nat} {x : BitVec w} (h : Packs x top a) (v : BitVec n) (lo : Nat) (ht : top ≤ lo)
    (hw : lo + n ≤ w) : Packs (x ||| place w v lo) (lo + n) (a + 2 ^ lo * v.toNat) := by
  have hlo : a < 2 ^ lo := lt_of_lt_of_le h.below (Nat.pow_le_pow_right (by decide) ht)
  constructor
  · have := Nat.shiftLeft_add_eq_or_of_lt hlo v.toNat
    rw [BitVec.toNat_or, h.value, toNat_place v hw, Nat.or_comm, Nat.mul_comm, ← Nat.shiftLeft_eq, ← this, Nat.add_comm]
  · rw [pow_add]
    have := v.isLt
    nlinarith

/-- A flag above all the fields so far adds its bit at its place. -/
theorem Packs.flag {top a : Nat} {x : Word} (h : Packs x top a) (b : Bool) (lo : Nat) (ht : top ≤ lo) (hw : lo < 32) :
    Packs (x ||| flagAt b lo) (lo + 1) (a + 2 ^ lo * Claims.bit b) := by
  have hb : (BitVec.ofBool b).toNat = Claims.bit b := by cases b <;> rfl
  exact hb ▸ h.field (BitVec.ofBool b) lo ht hw

/-! ### The codes as numbers -/

@[simp] theorem facadeCode_toNat (st : Facade) : st.code.toNat = Claims.stateNumber st := by cases st <;> rfl
@[simp] theorem tierCode_toNat (t : Tier) : t.code.toNat = Claims.tierNumber t := by cases t <;> rfl
@[simp] theorem statusCode_toNat (st : Status) : st.code.toNat = Claims.statusNumber st := by cases st <;> rfl
@[simp] theorem causeCode_toNat (c : FaultCause) : c.code.toNat = Claims.causeNumber c := by cases c <;> rfl

/-- The 40 bits of a response (R111). -/
theorem responseBits_toNat (r : Response) :
    r.bits.toNat = 2 ^ 32 * Claims.statusNumber r.status + r.data.toNat := by
  have h := ((Packs.lowest (w := 40) r.data (by decide)).field r.status.code 32 (by decide) (by decide)).value
  rw [Response.bits, BitVec.or_comm, h, statusCode_toNat, Nat.add_comm]

/-! ### The packed registers of rule R58 -/

section Words

open Claims

variable (r : Regs)

theorem statusWord_toNat :
    r.statusWord.toNat = stateNumber r.state + 2 ^ 8 * bit r.short + 2 ^ 9 * bit r.designReq + 2 ^ 10 * bit r.locked +
      2 ^ 11 * bit r.held + 2 ^ 12 * bit r.constValid + 2 ^ 13 * bit r.histValid + 2 ^ 16 * statusNumber r.lastErr +
      2 ^ 24 * causeNumber r.faultCause := by
  have h := Packs.lowest (w := 32) r.state.code (by decide)
    |>.flag r.short 8 (by decide) (by decide) |>.flag r.designReq 9 (by decide) (by decide)
    |>.flag r.locked 10 (by decide) (by decide) |>.flag r.held 11 (by decide) (by decide)
    |>.flag r.constValid 12 (by decide) (by decide) |>.flag r.histValid 13 (by decide) (by decide)
    |>.field r.lastErr.code 16 (by decide) (by decide) |>.field r.faultCause.code 24 (by decide) (by decide)
  rw [facadeCode_toNat, statusCode_toNat, causeCode_toNat] at h
  exact h.value

theorem configWord_toNat :
    r.configWord.toNat = tierNumber r.tier + 2 ^ 4 * r.c.toNat + 2 ^ 8 * r.bitDepth.toNat + 2 ^ 16 * bit r.coef32 := by
  have h := Packs.lowest (w := 32) r.tier.code (by decide)
    |>.field r.c 4 (by decide) (by decide) |>.field r.bitDepth 8 (by decide) (by decide)
    |>.flag r.coef32 16 (by decide) (by decide)
  rw [tierCode_toNat] at h
  exact h.value

theorem filterWord_toNat : r.filterWord.toNat = r.l.toNat + 2 ^ 8 * r.shift.toNat + 2 ^ 16 * r.h.toNat :=
  (Packs.lowest (w := 32) r.l (by decide) |>.field r.shift 8 (by decide) (by decide)
    |>.field r.h 16 (by decide) (by decide)).value

theorem volumeWord_toNat : r.volumeWord.toNat = r.volL.toNat + 2 ^ 16 * r.volR.toNat :=
  (Packs.lowest (w := 32) r.volL (by decide) |>.field r.volR 16 (by decide) (by decide)).value

theorem dispatchWord_toNat (stride : Nat) :
    (r.dispatchWord stride).toNat =
      bit (r.c == 2) + 2 * bit r.locked + 4 * bit r.coef32 + 2 ^ 8 * min stride 255 := by
  have hb : (BitVec.ofBool (r.c == 2)).toNat = bit (r.c == 2) := by cases r.c == 2 <;> rfl
  have hm : (BitVec.ofNat 8 (min stride 255)).toNat = min stride 255 := Nat.mod_eq_of_lt (by omega)
  have h := Packs.lowest (w := 32) (BitVec.ofBool (r.c == 2)) (by decide)
    |>.flag r.locked 1 (by decide) (by decide) |>.flag r.coef32 2 (by decide) (by decide)
    |>.field (BitVec.ofNat 8 (min stride 255)) 8 (by decide) (by decide)
  rw [hb, hm] at h
  exact h.value

end Words

/-! ### READ_REG -/

/-- READ_REG of a number the map has answers its value and changes nothing (R330). -/
theorem exec_readReg_some {s : State} {n : Nat} {v : Word} (h : regValue s n = some v) :
    exec (.readReg n) s = .next (Claims.replies v s) := by
  rw [exec_accepted rfl, bodyOf, readRegBody, h]
  rfl

/-- Numbers from 0x14 on are reserved (R58). -/
theorem regValue_reserved (s : State) {n : Nat} (h : 0x14 ≤ n) : regValue s n = none := by
  obtain ⟨k, rfl⟩ := Nat.exists_eq_add_of_le' h
  rfl

theorem exec_readReg_reserved {s : State} {n : Nat} (h : 0x14 ≤ n) :
    exec (.readReg n) s = .next (Claims.refuses .errRange 0 s) := by
  rw [exec_accepted rfl, bodyOf, readRegBody, regValue_reserved s h]
  rfl

/-- A packet with READ_REG's opcode and another bit than REGNUM's set is illegal (R124, R330). -/
theorem decode_readReg_reservedBit {p : Packet} (hop : p.extractLsb' 56 8 = 0x08)
    (hbits : p &&& 0xFFFFFF00FFFFFFFF ≠ 0x0800000000000000) : decode p = .error .reservedBit := by
  have hrow : (⟨.readReg, 0x0800000000000000, 0xFFFFFF00FFFFFFFF⟩ : OpcodeRow) ∈ opcodeRows := by decide
  unfold decode
  rw [find_row hrow hop]
  exact if_neg hbits

/-- Settles O17: the packed words field by field, the other registers whole, and nothing beside the answer. -/
theorem readRegReturnsTheMap : Obligations.ReadRegReturnsTheMap := by
  refine ⟨fun p => decode_readReg_reservedBit, responseBits_toNat, fun s => ⟨?_, fun n => exec_readReg_reserved⟩⟩
  intro n v hm
  suffices h : ∃ d, regValue s n = some d ∧ d.toNat = v by
    obtain ⟨d, hd, hv⟩ := h
    exact ⟨d, hv, exec_readReg_some hd⟩
  simp only [List.mem_cons, Prod.mk.injEq, List.not_mem_nil, or_false] at hm
  obtain h | h | h | h | h | h | h | h | h | h | h | h | h | h | h | h | h | h | h | h := hm
  all_goals obtain ⟨rfl, rfl⟩ := h
  · exact ⟨_, rfl, statusWord_toNat _⟩
  · exact ⟨_, rfl, configWord_toNat _⟩
  · exact ⟨_, rfl, rfl⟩
  · exact ⟨_, rfl, rfl⟩
  · exact ⟨_, rfl, rfl⟩
  · exact ⟨_, rfl, filterWord_toNat _⟩
  · exact ⟨_, rfl, rfl⟩
  · exact ⟨_, rfl, rfl⟩
  · exact ⟨_, rfl, rfl⟩
  · exact ⟨_, rfl, volumeWord_toNat _⟩
  · exact ⟨_, rfl, BitVec.toNat_setWidth_of_le (by decide)⟩
  · exact ⟨_, rfl, BitVec.toNat_setWidth_of_le (by decide)⟩
  · exact ⟨_, rfl, BitVec.toNat_setWidth_of_le (by decide)⟩
  · exact ⟨_, rfl, rfl⟩
  · exact ⟨_, rfl, rfl⟩
  · exact ⟨_, rfl, rfl⟩
  · exact ⟨_, rfl, BitVec.toNat_setWidth_of_le (by decide)⟩
  · exact ⟨_, rfl, BitVec.toNat_setWidth_of_le (by decide)⟩
  · exact ⟨_, rfl, rfl⟩
  · exact ⟨_, rfl, dispatchWord_toNat _ _⟩

/-! ### Which command writes what -/

/-- The registers `r`, those taken from `q` that rules R32 to R43 let a command of opcode `op` write. -/
def Regs.withWritten (op : Opcode) (r q : Regs) : Regs :=
  match op with
  | .nop | .readReg => { r with lastErr := q.lastErr }
  | .setVolume => { r with lastErr := q.lastErr, volL := q.volL, volR := q.volR }
  | .coefWrite => { r with lastErr := q.lastErr, coefCount := q.coefCount }
  | .coefCommit => { r with lastErr := q.lastErr, coefCount := q.coefCount, state := q.state }
  | .setRate =>
    { r with
      lastErr := q.lastErr, state := q.state, l := q.l, shift := q.shift, h := q.h, constValid := q.constValid
      designAtten := q.designAtten, filterRate := q.filterRate, inRate := q.inRate, inc := q.inc, locked := q.locked
      histValid := q.histValid, histFrames := q.histFrames, ringFull := q.ringFull, coefCount := q.coefCount
      phase := q.phase, impulse := q.impulse }
  | .resample =>
    { r with
      lastErr := q.lastErr, state := q.state, faultCause := q.faultCause, phase := q.phase, impulse := q.impulse
      pending := q.pending, held := q.held, heldBase := q.heldBase, heldFrames := q.heldFrames
      inputIndex := q.inputIndex, result := q.result, short := q.short }
  | .reset =>
    { q with tier := r.tier, c := r.c, bitDepth := r.bitDepth, outRate := r.outRate, volL := r.volL, volR := r.volR }
  | .create => q

/-- Two pieces of one command, one after the other, write what the command may write. -/
theorem Regs.withWritten_trans {op : Opcode} {r q q' : Regs} (h : q = r.withWritten op q)
    (h' : q' = q.withWritten op q') : q' = r.withWritten op q' :=
  calc q' = q.withWritten op q' := h'
    _ = (r.withWritten op q).withWritten op q' := congrArg (Regs.withWritten op · q') h
    _ = r.withWritten op q' := by cases op <;> rfl

/-- What a command of opcode `op` may have changed between `s` and `t`, registers and memories. -/
structure Frame (op : Opcode) (s t : State) : Prop where
  regs : t.regs = s.regs.withWritten op t.regs
  lastErr : t.regs.lastErr = s.regs.lastErr ∨ (op = .create ∨ op = .reset) ∧ t.regs.lastErr = .ok ∨
    ∃ st d, st ≠ .ok ∧ t.responses = s.responses ++ [⟨st, d⟩] ∧ t.regs.lastErr = st
  acoef : op ≠ .coefCommit → t.acoef = s.acoef
  scoef : op ≠ .coefWrite → t.scoef = s.scoef
  hist : op ≠ .setRate → op ≠ .resample → t.hist = s.hist
  ports : op ≠ .resample → t.out = s.out ∧ t.inp = s.inp

namespace Frame

/-- An answer alone writes LAST_ERR, which every command may (R351). -/
theorem answer (op : Opcode) (st : Status) (d : Word) (s : State) : Frame op s (answer st d s) where
  regs := by cases op <;> rfl
  lastErr := by
    by_cases hst : st = .ok
    · exact .inl (by simp [hst])
    · exact .inr (.inr ⟨st, d, hst, rfl, by simp [hst]⟩)
  acoef _ := rfl
  scoef _ := rfl
  hist _ _ := rfl
  ports _ := ⟨rfl, rfl⟩

/-- CREATE may write every register; it writes no memory (R285). -/
theorem create (tier chan bits : Nat) (rate : Int) (s : State) :
    Frame .create s (createBody tier chan bits rate s) := by
  rcases createBody_cases tier chan bits rate s with he | ⟨t, -, -, -, -, he⟩ <;> rw [he]
  · exact answer _ _ _ _
  · exact ⟨rfl, .inr (.inl ⟨.inl rfl, rfl⟩), by simp, by simp, by simp, by simp⟩

/-- RESET keeps the configuration and the gains, and writes no memory (R320). -/
theorem reset (s : State) : Frame .reset s (resetBody s) := by
  rw [resetBody_eq]
  exact ⟨rfl, .inr (.inl ⟨.inr rfl, rfl⟩), by simp, by simp, by simp, by simp⟩

/-- SET_RATE writes HIST, by the resize, and no other memory (R290). -/
theorem setRate (rate : Int) (s : State) : Frame .setRate s (setRateBody rate s) := by
  rcases setRateBody_cases rate s with he | ⟨-, -, he⟩ | ⟨-, -, k, hd, he⟩ | ⟨-, -, he⟩ <;> rw [he]
  · exact answer _ _ _ _
  · exact answer _ _ _ _
  · have hk := deriveConstants_fits hd
    refine ⟨?_, .inl ?_, by simp, by simp, by simp, by simp⟩ <;> rw [finishRate_regs, redesigned_regs hk] <;> rfl
  · exact ⟨rfl, .inl rfl, by simp, by simp, by simp, by simp⟩

theorem setVolume (l r : BitVec 16) (s : State) : Frame .setVolume s (setVolumeBody l r s) :=
  ⟨rfl, .inl rfl, fun _ => rfl, fun _ => rfl, fun _ _ => rfl, fun _ => ⟨rfl, rfl⟩⟩

/-- COEF_WRITE writes SCOEF (R315). -/
theorem coefWrite (start : Bool) (value : Word) (s : State) : Frame .coefWrite s (coefWriteBody start value s) := by
  rcases coefWriteBody_cases start value s with he | ⟨idx, -, -, -, he⟩ <;> rw [he]
  · exact answer _ _ _ _
  · exact ⟨rfl, .inl rfl, fun _ => rfl, by simp, fun _ _ => rfl, fun _ => ⟨rfl, rfl⟩⟩

/-- COEF_COMMIT writes ACOEF (R318). -/
theorem coefCommit (s : State) : Frame .coefCommit s (coefCommitBody s) := by
  rcases coefCommitBody_cases s with ⟨-, he⟩ | ⟨-, he⟩ <;> rw [he]
  · exact answer _ _ _ _
  · exact ⟨rfl, .inl rfl, by simp, fun _ => rfl, fun _ _ => rfl, fun _ => ⟨rfl, rfl⟩⟩

theorem readReg (n : Nat) (s : State) : Frame .readReg s (readRegBody n s) := by
  rcases readRegBody_cases n s with ⟨v, -, he⟩ | he <;> rw [he] <;> exact answer _ _ _ _

end Frame

/-! ### RESAMPLE -/

/-- What a RESAMPLE that started at `s` has changed while it runs: no answer yet, and the banks as they were. -/
structure RanFrom (s u : State) : Prop where
  regs : u.regs = s.regs.withWritten .resample u.regs
  lastErr : u.regs.lastErr = s.regs.lastErr
  responses : u.responses = s.responses
  acoef : u.acoef = s.acoef
  scoef : u.scoef = s.scoef

namespace RanFrom

variable {s u v : State}

/-- A piece of the loop that writes only RESAMPLE's registers may follow. -/
theorem step (h : RanFrom s u) (hr : v.regs = u.regs.withWritten .resample v.regs)
    (hl : v.regs.lastErr = u.regs.lastErr) (hre : v.responses = u.responses) (ha : v.acoef = u.acoef)
    (hs : v.scoef = u.scoef) : RanFrom s v where
  regs := Regs.withWritten_trans h.regs hr
  lastErr := hl.trans h.lastErr
  responses := hre.trans h.responses
  acoef := ha.trans h.acoef
  scoef := hs.trans h.scoef

theorem keep (h : RanFrom s u) (hr : v.regs = u.regs) (hre : v.responses = u.responses) (ha : v.acoef = u.acoef)
    (hs : v.scoef = u.scoef) : RanFrom s v :=
  h.step (by rw [hr]; rfl) (by rw [hr]) hre ha hs

theorem consumeFrame (h : RanFrom s u) : RanFrom s (consumeFrame u) := by
  refine h.step ?_ ?_ (by simp) (by simp) (by simp)
  all_goals
    rw [consumeFrame_regs]
    dsimp only
    split <;> rfl

/-- The command ends with an answer, or with a fault and its answer (R300, R366). -/
theorem frame (h : RanFrom s u) (hr : v.regs = u.regs.withWritten .resample v.regs)
    (hl : v.regs.lastErr = u.regs.lastErr ∨
      ∃ st d, st ≠ .ok ∧ v.responses = u.responses ++ [⟨st, d⟩] ∧ v.regs.lastErr = st)
    (ha : v.acoef = u.acoef) (hs : v.scoef = u.scoef) : Frame .resample s v where
  regs := Regs.withWritten_trans h.regs hr
  lastErr := by
    rw [← h.lastErr, ← h.responses]
    exact hl.imp_right .inr
  acoef _ := ha.trans h.acoef
  scoef _ := hs.trans h.scoef
  hist _ hop := absurd rfl hop
  ports hop := absurd rfl hop

theorem loopRule (n base : Nat) (s : State) :
    LoopRule n base (fun _ => RanFrom s) (fun _ => RanFrom s) (Frame .resample s) :=
  LoopRule.ofAnswered
    (request := fun _ _ _ h _ _ => h.keep (by simp) (by simp) (by simp) (by simp))
    (wait := fun _ _ _ h _ _ _ => h.frame rfl (.inl rfl) rfl rfl)
    (answered := fun _ _ a rest _ h _ _ _ => by
      rw [afterAnswer_keeps]
      exact h.keep rfl rfl rfl rfl)
    (short := fun _ _ _ h _ _ => h.frame rfl (.inl rfl) rfl rfl)
    (bad := fun _ _ _ _ h _ _ _ => h.frame rfl (.inr ⟨.errFault, _, by decide, rfl, rfl⟩) rfl rfl)
    (hold := fun _ _ _ _ h _ _ _ => h.step rfl rfl rfl rfl rfl)
    (consume := fun _ _ _ h _ _ => h.consumeFrame)
    (produce := fun _ _ _ h _ => h.step rfl rfl (by simp [produced]) (by simp [produced]) (by simp [produced]))
    (done := fun _ h => h.frame rfl (.inl rfl) rfl rfl)

end RanFrom

theorem Frame.resample (n base : Nat) (s : State) : Frame .resample s (resampleBody n base s) := by
  rcases resampleBody_cases n base s with ⟨-, he⟩ | ⟨-, he⟩ <;> rw [he]
  · exact answer _ _ _ _
  · exact (RanFrom.loopRule n base s).body ⟨rfl, rfl, rfl, rfl, rfl⟩

/-- Every command changes only what its rules let it write. -/
theorem exec_frame {i : Instr} {s t : State} (he : exec i s = .next t) : Frame i.opcode s t := by
  refine exec_induct he (fun _ => ?_) (.answer _ _ _ _) (.answer _ _ _ _)
  cases i with
  | nop => exact .answer _ _ _ _
  | create tier chan bits rate => exact .create tier chan bits rate s
  | setRate rate => exact .setRate rate s
  | setVolume l r => exact .setVolume l r s
  | resample n base => exact .resample n base s
  | coefWrite start value => exact .coefWrite start value s
  | coefCommit => exact .coefCommit s
  | reset => exact .reset s
  | readReg n => exact .readReg n s

/-- Settles O51: the table of written registers, read one group of registers at a time. -/
theorem registersHaveTheirWriters : Obligations.RegistersHaveTheirWriters := by
  intro i s t he
  obtain ⟨hregs, hlast, -, -, -, -⟩ := exec_frame he
  generalize i.opcode = op at hregs hlast ⊢
  refine ⟨?_, ?_, ?_, ?_, ?_, ?_, ?_, hlast⟩
  all_goals
    rw [hregs]
    cases op <;> simp [Regs.withWritten]

/-- Settles O52: the memories of each command's frame. -/
theorem memoriesHaveTheirWriters : Obligations.MemoriesHaveTheirWriters := by
  intro i s t he
  obtain ⟨-, -, hacoef, hscoef, hhist, hports⟩ := exec_frame he
  exact ⟨hacoef, hscoef, hhist, hports⟩

/-! ### Unspecified HIST (R61) -/

/-- The state with other contents of HIST, and another epoch of their being unspecified. -/
def State.withHist (hist : Mem 16) (epoch : Nat) (s : State) : State := { s with hist := hist, histEpoch := epoch }

/-- `u` is `t` but for HIST, and where `t` has a history buffer its elements in use are the same in both. -/
def SameButHist (u t : State) : Prop :=
  ∃ hist epoch, u = t.withHist hist epoch ∧
    (t.regs.histValid = true → ∀ e, e < t.regs.histFrames.toNat * t.regs.c.toNat → hist.read e = t.hist.read e)

/-- With no history buffer the contents of HIST may be any. -/
theorem SameButHist.unused {u t : State} {hist : Mem 16} {epoch : Nat} (h : u = t.withHist hist epoch)
    (hv : t.regs.histValid = false) : SameButHist u t :=
  ⟨hist, epoch, h, fun ht => absurd (hv.symm.trans ht) (by simp)⟩

/-- A resize does not look at the contents of a buffer that is not valid (R205). -/
theorem resizedElem_invalid {s : State} (hv : s.regs.histValid = false) (hn e : Nat) : resizedElem s hn e = 0 := by
  unfold resizedElem
  dsimp only
  rw [if_neg (by simp [hv])]

/-- Without a history buffer the block is Unconfigured or Uninitialized (R61, R282). -/
theorem State.Inv.noHistory_states {s : State} (h : s.Inv) (hv : s.regs.histValid = false) :
    s.regs.state = .unconfigured ∨ s.regs.state = .uninitialized := by
  have hc := h.regs.constStates
  rw [← h.regs.histStates, hv] at hc
  cases hs : s.regs.state <;> simp [hs] at hc ⊢

section WithHist

variable {s : State} {hist : Mem 16} {epoch : Nat}

theorem resetActions_withHist : resetActions (s.withHist hist epoch) = (resetActions s).withHist hist (epoch + 1) := by
  have hr : (s.withHist hist epoch).regs = s.regs := rfl
  unfold resetActions
  rw [hr]
  cases s.regs.held <;> rfl

theorem rbResize_withHist (hn : Nat) :
    rbResize hn (s.withHist hist epoch) =
      (rbResize hn s).withHist (rbResize hn (s.withHist hist epoch)).hist epoch := by
  have hr : (s.withHist hist epoch).regs = s.regs := rfl
  have hp : (s.withHist hist epoch).params = s.params := rfl
  unfold rbResize
  dsimp only
  rw [hr, hp]
  by_cases hk : s.regs.histValid = true ∧ s.regs.histFrames.toNat = ringFrames s.params hn
  · rw [if_pos hk, if_pos hk]
    rfl
  · rw [if_neg hk, if_neg hk]
    rfl

theorem redesigned_withHist (k : Constants) (rate : Nat) :
    redesigned k rate (s.withHist hist epoch) =
      (redesigned k rate s).withHist (redesigned k rate (s.withHist hist epoch)).hist epoch :=
  congrArg (fun u : State => { u with regs := { u.regs with state := u.regs.state.afterRedesign } })
    (rbResize_withHist (s := { s with regs :=
      (s.regs.constSet k rate).phaseRescale (if s.regs.constValid then s.regs.wrap else 0) }) _)

/-- HIST after the resize that makes a buffer: 0 in every element in use (R205). -/
theorem rbResize_read_made (hv : s.regs.histValid = false) (hw : s.hist.wf = true) {hn e : Nat}
    (he : e < ringFrames s.params hn * s.channels) : (rbResize hn s).hist.read e = 0 := by
  rw [rbResize_read hw (by simp [hv]), if_pos he, resizedElem_invalid hv]

theorem resetBody_withHist : SameButHist (resetBody (s.withHist hist epoch)) (resetBody s) := by
  rw [resetBody_eq, resetBody_eq, resetActions_withHist]
  exact .unused rfl rfl

variable (hv : s.regs.histValid = false)
include hv

/-- The re-design of SET_RATE that makes the buffer makes the same one, whatever HIST held (R290, R205). -/
theorem finishRate_redesigned_withHist (hw : s.hist.wf = true) (hw' : hist.wf = true) {k : Constants} (hk : k.Fits)
    (rate : Nat) :
    SameButHist (finishRate rate (redesigned k rate (s.withHist hist epoch)))
      (finishRate rate (redesigned k rate s)) := by
  have heq := congrArg (finishRate rate) (redesigned_withHist (s := s) (hist := hist) (epoch := epoch) k rate)
  refine ⟨_, epoch, heq, fun _ e he => ?_⟩
  have hf : (redesigned k rate s).regs.histFrames = BitVec.ofNat 16 (ringFrames s.params k.h) := by
    rw [redesigned_regs hk]
    exact if_neg (by simp [hv])
  have hc : (redesigned k rate s).regs.c = s.regs.c := by rw [redesigned_regs hk]
  have hin : e < (redesigned k rate s).regs.histFrames.toNat * (redesigned k rate s).regs.c.toNat := he
  have hlt : e < ringFrames s.params k.h * s.channels := by
    rw [hf, hc] at hin
    exact lt_of_lt_of_le hin (Nat.mul_le_mul_right _ (Nat.mod_le _ _))
  show (redesigned k rate (s.withHist hist epoch)).hist.read e = (redesigned k rate s).hist.read e
  rw [redesigned_hist hk, redesigned_hist hk, rbResize_read_made hv hw hlt]
  exact rbResize_read_made (s := s.withHist hist epoch) hv hw' hlt

theorem setRateBody_withHist (hw : s.hist.wf = true) (hw' : hist.wf = true) (rate : Int) :
    SameButHist (setRateBody rate (s.withHist hist epoch)) (setRateBody rate s) := by
  have hr : (s.withHist hist epoch).regs = s.regs := rfl
  have hre : redesign (s.withHist hist epoch) rate.toNat = redesign s rate.toNat := rfl
  unfold setRateBody
  dsimp only
  rw [hr, hre]
  by_cases h0 : rate ≤ 0
  · rw [if_pos h0, if_pos h0]
    exact .unused rfl hv
  · rw [if_neg h0, if_neg h0]
    by_cases hsame : s.regs.inRate ≠ 0 ∧ rate.toNat = s.regs.inRate.toNat
    · rw [if_pos hsame, if_pos hsame]
      exact .unused rfl hv
    · rw [if_neg hsame, if_neg hsame]
      by_cases hd : redesign s rate.toNat = true
      · rw [if_pos hd, if_pos hd]
        cases hk : deriveConstants s.regs.tier s.regs.outRate.toNat rate.toNat with
        | none => exact .unused rfl hv
        | some k => exact finishRate_redesigned_withHist hv hw hw' (deriveConstants_fits hk) _
      · rw [if_neg hd, if_neg hd]
        exact .unused rfl hv

theorem createBody_withHist (tier chan bits : Nat) (rate : Int) :
    SameButHist (createBody tier chan bits rate (s.withHist hist epoch)) (createBody tier chan bits rate s) := by
  unfold createBody
  cases Tier.ofCode tier with
  | none => exact .unused rfl hv
  | some t =>
    dsimp only
    split
    · exact .unused rfl hv
    · rw [resetActions_withHist]
      exact .unused rfl (by simp [Regs.create, Regs.resetActions])

theorem readRegBody_withHist (n : Nat) :
    SameButHist (readRegBody n (s.withHist hist epoch)) (readRegBody n s) := by
  have hval : regValue (s.withHist hist epoch) n = regValue s n := rfl
  unfold readRegBody
  rw [hval]
  cases regValue s n with
  | none => exact .unused rfl hv
  | some v => exact .unused rfl hv

/-- The acceptance check does not look at HIST (R281). -/
theorem whenAccepted_withHist {op : Opcode} {body : State → State}
    (h : acceptance op s.regs.state = .ok → SameButHist (body (s.withHist hist epoch)) (body s)) :
    SameButHist (whenAccepted op (s.withHist hist epoch) body) (whenAccepted op s body) := by
  have hr : (s.withHist hist epoch).regs = s.regs := rfl
  unfold whenAccepted
  rw [hr]
  cases ha : acceptance op s.regs.state with
  | ok => exact h ha
  | errState => exact .unused rfl hv
  | errFault => exact .unused rfl hv

/-- No accepted command looks at a HIST that is not valid; those of the bank and RESAMPLE are not accepted. -/
theorem bodyOf_withHist (hinv : s.Inv) (hw' : hist.wf = true) {i : Instr}
    (ha : acceptance i.opcode s.regs.state = .ok) :
    SameButHist (bodyOf i (s.withHist hist epoch)) (bodyOf i s) := by
  have hst := hinv.noHistory_states hv
  cases i with
  | nop => exact .unused rfl hv
  | create tier chan bits rate => exact createBody_withHist hv tier chan bits rate
  | setRate rate => exact setRateBody_withHist hv hinv.mems.hist.1 hw' rate
  | setVolume l r => exact .unused rfl hv
  | reset => exact resetBody_withHist
  | readReg n => exact readRegBody_withHist hv n
  | resample _ _ | coefWrite _ _ | coefCommit => rcases hst with hs | hs <;> rw [hs] at ha <;> cases ha

end WithHist

/-- Settles O55: command by command the two runs agree but for HIST, and a buffer that SET_RATE makes is 0 in both. -/
theorem unspecifiedHistoryIsNeverRead : Obligations.UnspecifiedHistoryIsNeverRead := by
  intro i s t hist epoch hinv hv hw he
  obtain rfl : whenAccepted i.opcode s (bodyOf i) = t := exec_eq_next_iff.1 he
  obtain ⟨hist', epoch', heq, huse⟩ :=
    whenAccepted_withHist (hist := hist) (epoch := epoch) hv (bodyOf_withHist hv hinv hw)
  exact ⟨_, exec_eq_next_iff.2 heq, rfl, huse⟩

end Sys2Proof.Machine
end

section
/-! PROOFS. The memories (20_memory.md): every step keeps all five in canonical form. Each operation reaches a memory by
writes of single elements or by a whole-bank copy, and both keep the form (Laws/Mem.lean). -/

namespace Sys2Proof.Machine

/-! ### What a step can do -/

/-- What the host's next action can be: a packet that decodes, an illegal packet, or a write or a read of an element
that exists (R91, R124, R87). -/
inductive HostAct (s t : State) : Prop
  | packet (p : Packet) (i : Instr) (rest : List HostAction) : s.host = .send p :: rest → decode p = .ok i →
      exec i { s with host := rest } = .next t → HostAct s t
  | illegal (p : Packet) (e : Illegal) (rest : List HostAction) : s.host = .send p :: rest → decode p = .error e →
      t = answerIllegal p { s with host := rest } → HostAct s t
  | write (w : AgentWrite) (rest : List HostAction) : s.host = .write w :: rest → w.inRange s.params = true →
      t = agentWrite w { s with host := rest } → HostAct s t
  | read (r : AgentRead) (rest : List HostAction) : s.host = .read r :: rest → r.inRange s.params = true →
      t = agentRead r { s with host := rest } → HostAct s t

/-- With no action to come the block is idle; else the next action is taken (R380, R91). -/
theorem hostStep_cases {s t : State} (h : hostStep s = .next t) : (s.host = [] ∧ t = s) ∨ HostAct s t := by
  unfold hostStep at h
  split at h
  · injection h with h
    exact .inl ⟨‹_›, h.symm⟩
  · unfold runPacket at h
    split at h
    · exact .inr (.packet _ _ _ ‹_› ‹_› h)
    · injection h with h
      exact .inr (.illegal _ _ _ ‹_› ‹_› h.symm)
  · split at h
    · injection h with h
      exact .inr (.write _ _ ‹_› ‹_› h.symm)
    · cases h
  · split at h
    · injection h with h
      exact .inr (.read _ _ ‹_› ‹_› h.symm)
    · cases h

/-- A waiting RESAMPLE resumes; with none waiting it is the host's turn (R13, R92). -/
theorem step_cases {s t : State} (h : step s = .next t) :
    (∃ w, s.waiting = some w ∧ t = resumeResample w s) ∨ (s.waiting = none ∧ s.host = [] ∧ t = s) ∨
      (s.waiting = none ∧ HostAct s t) := by
  unfold step nextAction at h
  split at h
  · injection h with h
    exact .inl ⟨_, ‹_›, h.symm⟩
  · rcases hostStep_cases h with hidle | hact
    · exact .inr (.inl ⟨‹_›, hidle⟩)
    · exact .inr (.inr ⟨‹_›, hact⟩)

/-! ### The canonical form -/

/-- All five memories are in canonical form (R80). -/
structure State.Canonical (s : State) : Prop where
  inp : s.inp.wf = true
  out : s.out.wf = true
  hist : s.hist.wf = true
  acoef : s.acoef.wf = true
  scoef : s.scoef.wf = true

/-- A write keeps the canonical form, said as the induction lemmas of Laws/Ops.lean ask for it. -/
theorem Mem.wf_write_of_lt {w size : Nat} (m : Mem w) (i : Nat) (v : BitVec w) (_ : i < size) (h : m.wf = true) :
    (m.write i v).wf = true := Mem.wf_write h i v

namespace State.Canonical

variable {s t : State}

/-- Where the banks stand as they did, the other three memories remain to be looked at. -/
theorem ofBanksKept (h : s.Canonical) (hi : t.inp.wf = true) (ho : t.out.wf = true) (hh : t.hist.wf = true)
    (ha : t.acoef = s.acoef) (hs : t.scoef = s.scoef) : t.Canonical :=
  ⟨hi, ho, hh, ha ▸ h.acoef, hs ▸ h.scoef⟩

/-- Registers and channels do not matter. -/
theorem congr (h : s.Canonical) (hi : t.inp = s.inp) (ho : t.out = s.out) (hh : t.hist = s.hist)
    (ha : t.acoef = s.acoef) (hs : t.scoef = s.scoef) : t.Canonical :=
  h.ofBanksKept (hi ▸ h.inp) (ho ▸ h.out) (hh ▸ h.hist) ha hs

theorem answer (h : s.Canonical) (st : Status) (d : Word) : (answer st d s).Canonical := h.congr rfl rfl rfl rfl rfl

/-! ### Other agents -/

theorem agentAccess (h : s.Canonical) (a : AgentAccess) : (agentAccess a s).Canonical :=
  h.ofBanksKept (agentAccesses_inp_induct _ Mem.wf_write_of_lt [a] s rfl h.inp)
    (agentAccesses_out_induct _ Mem.wf_write_of_lt [a] s rfl h.out) (by simpa using h.hist) (by simp) (by simp)

theorem agentsMove (h : s.Canonical) : (agentsMove s).Canonical :=
  h.ofBanksKept (agentsMove_inp_induct _ s Mem.wf_write_of_lt h.inp)
    (agentsMove_out_induct _ s Mem.wf_write_of_lt h.out) (by simpa using h.hist) (by simp) (by simp)

/-- The provider writes INP, and other agents move (R92, R93). -/
theorem afterAnswer (h : s.Canonical) (a : ProviderAnswer) (rest : List ProviderAnswer) :
    (afterAnswer a rest s).Canonical := by
  refine agentsMove (ofBanksKept h ?_ (by simpa using h.out) (by simpa using h.hist) (by simp) (by simp))
  exact providerWrites_inp_induct _ Mem.wf_write_of_lt _ _ rfl h.inp

/-! ### RESAMPLE -/

theorem consumeFrame (h : s.Canonical) : (consumeFrame s).Canonical :=
  h.ofBanksKept (consumeFrame_inp_induct _ s Mem.wf_write_of_lt h.inp)
    (consumeFrame_out_induct _ s Mem.wf_write_of_lt h.out)
    (consumeFrame_hist_induct (Mem.wf · = true) (fun _ i v hm => Mem.wf_write hm i v) s h.hist) (by simp) (by simp)

theorem produced (h : s.Canonical) (f : Nat) : (produced f s).Canonical :=
  h.ofBanksKept (produced_inp_induct _ f s Mem.wf_write_of_lt h.inp)
    (produced_out_induct _ f s Mem.wf_write_of_lt (fun _ _ v _ hm => Mem.wf_write hm _ v) h.out)
    (by simpa [Machine.produced] using h.hist) (by simp [Machine.produced]) (by simp [Machine.produced])

/-- Every piece of RESAMPLE's loop keeps the memories canonical, and every end of it does. -/
theorem loopRule (n base : Nat) :
    LoopRule n base (fun _ => State.Canonical) (fun _ => State.Canonical) State.Canonical :=
  .ofAnswered
    (request := fun k s _ h _ _ =>
      agentsMove (s := portEvent (.getNextBuffer (hint n k s.regs)) s) (h.congr rfl rfl rfl rfl rfl))
    (wait := fun _ _ _ h _ _ _ => h.congr rfl rfl rfl rfl rfl)
    (answered := fun _ _ a rest _ h _ _ _ => h.afterAnswer a rest)
    (short := fun _ _ _ h _ _ => h.congr rfl rfl rfl rfl rfl)
    (bad := fun _ _ _ _ h _ _ _ => h.congr rfl rfl rfl rfl rfl)
    (hold := fun _ _ _ _ h _ _ _ => h.congr rfl rfl rfl rfl rfl)
    (consume := fun _ _ _ h _ _ => h.consumeFrame)
    (produce := fun _ _ _ h _ => h.produced _)
    (done := fun _ h => h.congr rfl rfl rfl rfl rfl)

theorem resampleBody (h : s.Canonical) (n base : Nat) : (resampleBody n base s).Canonical := by
  rcases resampleBody_cases n base s with ⟨-, he⟩ | ⟨-, he⟩ <;> rw [he]
  · exact h.congr rfl rfl rfl rfl rfl
  · exact (loopRule n base).body h

/-- A resumed RESAMPLE, from whatever round its waiting entry names (R312). -/
theorem resumeResample (h : s.Canonical) (w : Waiting) : (resumeResample w s).Canonical := by
  by_cases hp : s.provider = []
  · have he : Machine.resumeResample w s = Machine.agentsMove s := by rw [Machine.resumeResample, hp]
    rw [he]
    exact h.agentsMove
  rw [resume_loop rfl rfl hp]
  rcases receiveAnswer_cases w.count w.base w.k s with ⟨hnil, -⟩ | ⟨a, rest, t, -, rfl, hc⟩
  · exact absurd hnil hp
  have ht := h.afterAnswer a rest
  rcases hc with ⟨-, he⟩ | ⟨d, -, -, -, he⟩ | ⟨d, -, -, -, he⟩ <;> rw [he]
  · exact ht.congr rfl rfl rfl rfl rfl
  · exact ht.congr rfl rfl rfl rfl rfl
  · exact (loopRule w.count w.base).loop _ _ (Nat.sub_le _ _) (ht.congr rfl rfl rfl rfl rfl)

/-! ### The other commands -/

/-- RESET_ACTIONS write no memory (R321). -/
theorem resetActions (h : s.Canonical) (r : Regs) : State.Canonical { resetActions s with regs := r } :=
  h.congr (by simp) (by simp) (by simp) (by simp) (by simp)

theorem createBody (h : s.Canonical) (tier chan bits : Nat) (rate : Int) :
    (createBody tier chan bits rate s).Canonical := by
  rcases createBody_cases tier chan bits rate s with he | ⟨t, -, -, -, -, he⟩ <;> rw [he]
  · exact h.answer _ _
  · exact (h.resetActions _).answer _ _

/-- SET_RATE fills HIST where it resizes the ring, and writes no other memory (R290, R202). -/
theorem setRateBody (h : s.Canonical) (rate : Int) : (setRateBody rate s).Canonical := by
  rcases setRateBody_cases rate s with he | ⟨-, -, he⟩ | ⟨-, -, k, hd, he⟩ | ⟨-, -, he⟩ <;> rw [he]
  · exact h.answer _ _
  · exact h.answer _ _
  · have hr := rbResize_hist_induct (Mem.wf · = true) k.h s (fun _ i v _ hm => Mem.wf_write hm i v) h.hist
    rw [← redesigned_hist (deriveConstants_fits hd) rate.toNat] at hr
    exact h.ofBanksKept (by simpa using h.inp) (by simpa using h.out) (by simpa using hr) (by simp) (by simp)
  · exact h.congr rfl rfl rfl rfl rfl

/-- COEF_WRITE writes one element of SCOEF (R315). -/
theorem coefWriteBody (h : s.Canonical) (start : Bool) (value : Word) : (coefWriteBody start value s).Canonical := by
  rcases coefWriteBody_cases start value s with he | ⟨idx, -, -, -, he⟩ <;> rw [he]
  · exact h.answer _ _
  · exact ⟨h.inp, h.out, h.hist, h.acoef, Mem.wf_write h.scoef idx value⟩

/-- COEF_COMMIT copies the staged bank over the active one (R318, R46). -/
theorem coefCommitBody (h : s.Canonical) : (coefCommitBody s).Canonical := by
  rcases coefCommitBody_cases s with ⟨-, he⟩ | ⟨-, he⟩ <;> rw [he]
  · exact h.answer _ _
  · exact ⟨h.inp, h.out, h.hist, Mem.wf_copyLow h.scoef h.acoef _, h.scoef⟩

theorem readRegBody (h : s.Canonical) (n : Nat) : (readRegBody n s).Canonical := by
  rcases readRegBody_cases n s with ⟨v, -, he⟩ | he <;> rw [he] <;> exact h.answer _ _

theorem resetBody (h : s.Canonical) : (resetBody s).Canonical := by
  rw [resetBody_eq]
  exact (h.resetActions _).answer _ _

/-! ### Every step -/

theorem exec (h : s.Canonical) {i : Instr} (he : exec i s = .next t) : t.Canonical := by
  refine exec_induct he (fun _ => ?_) (h.answer _ _) (h.answer _ _)
  cases i with
  | nop => exact h.answer _ _
  | create tier chan bits rate => exact h.createBody tier chan bits rate
  | setRate rate => exact h.setRateBody rate
  | setVolume l r => exact h.congr rfl rfl rfl rfl rfl
  | resample n base => exact h.resampleBody n base
  | coefWrite start value => exact h.coefWriteBody start value
  | coefCommit => exact h.coefCommitBody
  | reset => exact h.resetBody
  | readReg n => exact h.readRegBody n

theorem step (h : s.Canonical) (ht : step s = .next t) : t.Canonical := by
  have hrest : ∀ rest, State.Canonical { s with host := rest } := fun _ => h.congr rfl rfl rfl rfl rfl
  obtain ⟨w, -, rfl⟩ | ⟨-, -, rfl⟩ | ⟨-, hact⟩ := step_cases ht
  · exact h.resumeResample w
  · exact h
  · cases hact with
    | packet p i rest _ _ he => exact (hrest rest).exec he
    | illegal p e rest _ _ he =>
      subst he
      unfold answerIllegal
      split <;> exact (hrest rest).answer _ _
    | write w rest _ _ he => exact he ▸ (hrest rest).agentAccess (.write w)
    | read r rest _ _ he => exact he ▸ (hrest rest).agentAccess (.read r)

end State.Canonical

/-- Settles O59: a waiting RESAMPLE resumes or the host's next action is taken, and both keep the memories canonical. -/
theorem everyStepKeepsMemoriesCanonical : Obligations.EveryStepKeepsMemoriesCanonical := by
  intro s t hinp hout hhist hacoef hscoef hstep
  have h : s.Canonical := ⟨hinp, hout, hhist, hacoef, hscoef⟩
  obtain ⟨hinp', hout', hhist', hacoef', hscoef'⟩ := h.step hstep
  exact ⟨hinp', hout', hhist', hacoef', hscoef'⟩

end Sys2Proof.Machine
end

section
/-! PROOFS. Races during a RESAMPLE of one frame (R93, R84). `State.withAccessAt j a` has one access of another agent to
come, at point j. Each operation of the block either lets its points pass, and the access lies that many points nearer,
or contains point j, and the access is shown to act as one made before the operation or after it. -/

namespace Sys2Proof.Machine

/-! ### One access at one point -/

/-- The state with one access of another agent to come: it lands at the point before which `j` others pass (R93). -/
def State.withAccessAt (j : Nat) (a : AgentAccess) (s : State) : State :=
  { s with races := List.replicate j [] ++ [[a]] }

theorem agentsMove_accessLater (j : Nat) (a : AgentAccess) (s : State) :
    agentsMove (s.withAccessAt (j + 1) a) = s.withAccessAt j a := rfl

theorem noRaces_eq {s : State} (h : s.races = []) : { s with races := [] } = s := h ▸ rfl

theorem agentsMove_accessNow {s : State} (h : s.races = []) (a : AgentAccess) :
    agentsMove (s.withAccessAt 0 a) = agentAccess a s :=
  congrArg (agentAccess a) (noRaces_eq h)

theorem withAccessAt_eq {s : State} {j : Nat} {a : AgentAccess} (h : s.races = List.replicate j [] ++ [[a]]) :
    State.withAccessAt j a { s with races := [] } = s := by
  unfold State.withAccessAt
  rw [← h]

/-! ### Writes that the block does not see -/

/-- The write is to another element than OUT (f, d). -/
def AgentWrite.Apart (f d : Nat) : AgentWrite → Prop
  | .inp _ _ => True
  | .out g c _ => outIndex g c ≠ outIndex f d

theorem agentWrite_outAt_apart {w : AgentWrite} {f d : Nat} (ha : w.Apart f d) {s : State} (hw : s.out.wf = true) :
    (agentWrite w s).outAt f d = s.outAt f d := by
  unfold agentWrite
  split
  · cases w with
    | inp i v => rfl
    | out g c v => exact (Mem.read_write hw _ _ v).trans (if_neg (Ne.symm ha))
  · rfl

/-- A write of another agent commutes with the block's write of another element. -/
theorem agentWrite_writeOut_apart {w : AgentWrite} {f d : Nat} (ha : w.Apart f d) {s : State} (hw : s.out.wf = true)
    (x : Word) : agentWrite w (s.writeOut f d x) = (agentWrite w s).writeOut f d x := by
  unfold agentWrite
  rw [writeOut_params]
  split
  · cases w with
    | inp i v => rfl
    | out g c v => exact congrArg (fun m => { s with out := m }) (Mem.write_comm hw (Ne.symm ha) x v)
  · rfl

/-! ### One accumulation: two points -/

section Accumulate

variable {s : State} (h : s.races = []) (f d : Nat) (term : Int)
include h

theorem accumulate_later (j : Nat) (a : AgentAccess) :
    accumulate f d term (s.withAccessAt (j + 2) a) = (accumulate f d term s).withAccessAt j a := by
  rw [accumulate_raceFree h]
  rfl

theorem accumulate_races : (accumulate f d term s).races = [] := by
  rw [accumulate_raceFree h]
  exact h

theorem accumulate_wf (hw : s.out.wf = true) : (accumulate f d term s).out.wf = true := by
  rw [accumulate_raceFree h]
  exact Mem.wf_write hw _ _

theorem accumulate_outAt_other (hw : s.out.wf = true) {c : Nat} (hc : c ≠ d) :
    (accumulate f d term s).outAt f c = s.outAt f c := by
  rw [accumulate_raceFree h]
  exact (Mem.read_write hw _ _ _).trans (if_neg (by unfold outIndex; omega))

/-- An access before the block's read is as good as made before the accumulation. -/
theorem accumulate_accessBeforeRead (a : AgentAccess) :
    accumulate f d term (s.withAccessAt 0 a) = accumulate f d term (agentAccess a s) := by
  have hr : (agentAccess a s).races = [] := by simp [h]
  rw [accumulate_raceFree hr]
  simp only [accumulate, agentsMove_accessNow h, agentsMove_raceFree hr]

/-- An access between the read and the write: the sum is that of the element before it (R84). -/
theorem accumulate_accessBetween (a : AgentAccess) :
    accumulate f d term (s.withAccessAt 1 a) =
      (agentAccess a s).writeOut f d (BitVec.ofInt 32 (sat32 ((s.outAt f d).toInt + term))) := by
  simp only [accumulate, agentsMove_accessLater, agentsMove_accessNow h]
  rfl

/-- A write of the block's own element between its read and its write is lost. -/
theorem accumulate_writeLost (hw : s.out.wf = true) (v : Word) :
    accumulate f d term (s.withAccessAt 1 (.write (.out f d v))) = accumulate f d term s := by
  rw [accumulate_accessBetween h, accumulate_raceFree h, agentAccess, agentWrite]
  split
  · exact congrArg (fun m => { s with out := m }) (Mem.write_write hw _ v _)
  · rfl

variable {w : AgentWrite} (ha : w.Apart f d) (hw : s.out.wf = true)
include ha hw

theorem accumulate_agentWrite_apart :
    accumulate f d term (agentWrite w s) = agentWrite w (accumulate f d term s) := by
  rw [accumulate_raceFree h, accumulate_raceFree (by simp [h]), agentWrite_outAt_apart ha hw,
    agentWrite_writeOut_apart ha hw]

/-- A write of another element may land at either point: it stays. -/
theorem accumulate_apart_at {j : Nat} (hj : j < 2) :
    accumulate f d term (s.withAccessAt j (.write w)) = agentWrite w (accumulate f d term s) := by
  obtain rfl | rfl : j = 0 ∨ j = 1 := by omega
  · exact (accumulate_accessBeforeRead h f d term _).trans (accumulate_agentWrite_apart h f d term ha hw)
  · rw [accumulate_accessBetween h, accumulate_raceFree h, agentWrite_writeOut_apart ha hw, agentAccess]

end Accumulate

/-! ### One frame: five points -/

/-- Both channels of a frame accumulated, and the moves after the frame: all that the block does to OUT in a round. -/
def addFrame (f : Nat) (term : Nat → Int) (s : State) : State :=
  agentsMove (accumulate f 1 (term 1) (accumulate f 0 (term 0) s))

/-- The term that a frame adds to an output channel (R241, R246, R247). -/
def State.frameTerm (s : State) (d : Nat) : Int :=
  if d = 0 then scale (acc30 s.regs (accOf s 0)) s.regs.volL
  else scale (if s.regs.c = 2 then acc30 s.regs (accOf s 1) else acc30 s.regs (accOf s 0)) s.regs.volR

theorem produced_eq_addFrame (f : Nat) (s : State) :
    produced f s = { addFrame f s.frameTerm s with regs := s.regs.phaseStep } := rfl

/-- Another agent's write touches nothing that the terms are made of. -/
theorem frameTerm_agentWrite (w : AgentWrite) (s : State) : (agentWrite w s).frameTerm = s.frameTerm := by
  unfold agentWrite
  split
  · cases w <;> rfl
  · rfl

theorem agentWrite_setRegs (w : AgentWrite) (s : State) (r : Regs) :
    agentWrite w { s with regs := r } = { agentWrite w s with regs := r } := by
  unfold agentWrite
  split
  · cases w <;> rfl
  · rfl

/-- The points of a frame: two in channel 0's accumulation, two in channel 1's, one after the frame. -/
theorem frame_points {j : Nat} (hj : j < 5) : j < 2 ∨ (∃ i < 2, j = i + 2) ∨ j = 4 := by
  rcases Nat.lt_or_ge j 2 with hlt | hge
  · exact .inl hlt
  · obtain ⟨i, rfl⟩ := Nat.exists_eq_add_of_le' hge
    exact .inr ((Nat.lt_or_ge i 2).imp (fun hi => ⟨i, hi, rfl⟩) fun hi => by omega)

section Frame

variable {s : State} (h : s.races = []) (hw : s.out.wf = true) (f : Nat)
include h hw

section AddFrame

variable (term : Nat → Int)

/-- A write that the later accumulations do not see stays, whenever it lands. -/
theorem addFrame_writeLate {w : AgentWrite} {j : Nat} (hj : j < 5) (ha : ∀ d < 2, j < 2 * d + 2 → w.Apart f d) :
    addFrame f term (s.withAccessAt j (.write w)) = agentWrite w (addFrame f term s) := by
  have h0 := accumulate_races h f 0 (term 0)
  have hw0 := accumulate_wf h f 0 (term 0) hw
  have h1 := accumulate_races h0 f 1 (term 1)
  unfold addFrame
  rw [agentsMove_raceFree h1]
  obtain hlt | ⟨i, hi, rfl⟩ | rfl := frame_points hj
  · rw [accumulate_apart_at h f 0 _ (ha 0 (by omega) (by omega)) hw hlt,
      accumulate_agentWrite_apart h0 f 1 _ (ha 1 (by omega) (by omega)) hw0, agentsMove_raceFree (by simp [h1])]
  · rw [accumulate_later h, accumulate_apart_at h0 f 1 _ (ha 1 (by omega) (by omega)) hw0 hi,
      agentsMove_raceFree (by simp [h1])]
  · rw [accumulate_later h f 0 _ 2, accumulate_later h0 f 1 _ 0, agentsMove_accessNow h1, agentAccess]

/-- A write that lands before channel c's accumulation, and that no earlier one sees, is as good as made before the
frame. -/
theorem addFrame_writeBefore {w : AgentWrite} {c j : Nat} (hc : c < 2) (hj : j ≤ 2 * c) (ha : ∀ d < c, w.Apart f d) :
    addFrame f term (s.withAccessAt j (.write w)) = addFrame f term (agentWrite w s) := by
  have h0 := accumulate_races h f 0 (term 0)
  unfold addFrame
  obtain rfl | ⟨rfl, hlt⟩ | ⟨rfl, rfl⟩ : j = 0 ∨ (c = 1 ∧ j < 2) ∨ (c = 1 ∧ j = 2) := by omega
  · rw [accumulate_accessBeforeRead h, agentAccess]
  · rw [accumulate_apart_at h f 0 _ (ha 0 (by omega)) hw hlt,
      accumulate_agentWrite_apart h f 0 _ (ha 0 (by omega)) hw]
  · rw [accumulate_later h f 0 _ 0, accumulate_accessBeforeRead h0, agentAccess,
      accumulate_agentWrite_apart h f 0 _ (ha 0 (by omega)) hw]

/-- A write between the block's read and write of the same element is lost. -/
theorem addFrame_writeLost {c : Nat} (hc : c < 2) (v : Word) :
    addFrame f term (s.withAccessAt (2 * c + 1) (.write (.out f c v))) = addFrame f term s := by
  have h0 := accumulate_races h f 0 (term 0)
  unfold addFrame
  obtain rfl | rfl : c = 0 ∨ c = 1 := by omega
  · rw [accumulate_writeLost h f 0 _ hw]
  · rw [accumulate_later h f 0 _ 1, accumulate_writeLost h0 f 1 _ (accumulate_wf h f 0 _ hw)]

end AddFrame

theorem produced_writeLate {w : AgentWrite} {j : Nat} (hj : j < 5) (ha : ∀ d < 2, j < 2 * d + 2 → w.Apart f d) :
    produced f (s.withAccessAt j (.write w)) = agentWrite w (produced f s) := by
  rw [produced_eq_addFrame f s, agentWrite_setRegs, ← addFrame_writeLate h hw f _ hj ha]
  rfl

theorem produced_writeBefore {w : AgentWrite} {c j : Nat} (hc : c < 2) (hj : j ≤ 2 * c) (ha : ∀ d < c, w.Apart f d) :
    produced f (s.withAccessAt j (.write w)) = produced f (agentWrite w s) := by
  have hr : (agentWrite w s).regs = s.regs := by simp
  rw [produced_eq_addFrame f (agentWrite w s), frameTerm_agentWrite, ← addFrame_writeBefore h hw f _ hc hj ha, hr]
  rfl

theorem produced_writeLost {c : Nat} (hc : c < 2) (v : Word) :
    produced f (s.withAccessAt (2 * c + 1) (.write (.out f c v))) = produced f s := by
  rw [produced_eq_addFrame f s, ← addFrame_writeLost h hw f _ hc v]
  rfl

end Frame

/-! ### Reads of OUT -/

/-- The state with one more value seen by another agent. -/
def State.withObserved (o : Observation) (s : State) : State := { s with observed := s.observed ++ [o] }

theorem agentRead_inRange {r : AgentRead} {s : State} (hr : r.inRange s.params = true) :
    agentRead r s = s.withObserved (s.look r) := if_pos hr

section Reads

variable {s : State} (h : s.races = []) (f : Nat)
include h

theorem accumulate_withObserved (d : Nat) (term : Int) (o : Observation) :
    accumulate f d term (s.withObserved o) = (accumulate f d term s).withObserved o := by
  rw [accumulate_raceFree h, accumulate_raceFree (show (s.withObserved o).races = [] from h)]
  rfl

/-- A read at either point of an accumulation sees what was there before it. -/
theorem accumulate_read_at (d : Nat) (term : Int) {r : AgentRead} (hr : r.inRange s.params = true) {j : Nat}
    (hj : j < 2) :
    accumulate f d term (s.withAccessAt j (.read r)) = (accumulate f d term s).withObserved (s.look r) := by
  obtain rfl | rfl : j = 0 ∨ j = 1 := by omega
  · rw [accumulate_accessBeforeRead h, agentAccess, agentRead_inRange hr, accumulate_withObserved h]
  · rw [accumulate_accessBetween h, agentAccess, agentRead_inRange hr, accumulate_raceFree h]
    rfl

/-- A read of OUT (f, c) sees the old value before the block's write and the new one after it (R93). -/
theorem addFrame_read (hw : s.out.wf = true) (term : Nat → Int) {c j : Nat} (hc : c < 2) (hj : j < 5)
    (hf : f < s.params.outFrames) :
    addFrame f term (s.withAccessAt j (.read (.out f c))) =
      (addFrame f term s).withObserved
        (.out f c (if j < 2 * c + 2 then s.outAt f c else (addFrame f term s).outAt f c)) := by
  have h0 := accumulate_races h f 0 (term 0)
  have h1 := accumulate_races h0 f 1 (term 1)
  have hr : (AgentRead.out f c).inRange s.params = true := by simp [AgentRead.inRange, hf, hc]
  have hobs : ∀ o, agentsMove ((accumulate f 1 (term 1) (accumulate f 0 (term 0) s)).withObserved o) =
      (accumulate f 1 (term 1) (accumulate f 0 (term 0) s)).withObserved o := fun _ => agentsMove_raceFree h1
  have hold : c = 1 → (accumulate f 0 (term 0) s).outAt f c = s.outAt f c := fun hc1 =>
    accumulate_outAt_other h f 0 _ hw (by omega)
  have hnew : c = 0 → (accumulate f 1 (term 1) (accumulate f 0 (term 0) s)).outAt f c =
      (accumulate f 0 (term 0) s).outAt f c := fun hc0 =>
    accumulate_outAt_other h0 f 1 _ (accumulate_wf h f 0 _ hw) (by omega)
  unfold addFrame
  rw [agentsMove_raceFree h1]
  obtain hlt | ⟨i, hi, rfl⟩ | rfl := frame_points hj
  · rw [accumulate_read_at h f 0 _ hr hlt, accumulate_withObserved h0, hobs, if_pos (by omega)]
    rfl
  · rw [accumulate_later h, accumulate_read_at h0 f 1 _ (by simpa using hr) hi, hobs, State.look]
    obtain rfl | rfl : c = 0 ∨ c = 1 := by omega
    · rw [if_neg (by omega), hnew rfl]
    · rw [if_pos (by omega), hold rfl]
  · rw [accumulate_later h f 0 _ 2, accumulate_later h0 f 1 _ 0, agentsMove_accessNow h1, agentAccess,
      agentRead_inRange (by simpa using hr), if_neg (by omega)]
    rfl

theorem produced_read (hw : s.out.wf = true) {c j : Nat} (hc : c < 2) (hj : j < 5) (hf : f < s.params.outFrames) :
    produced f (s.withAccessAt j (.read (.out f c))) =
      (produced f s).withObserved
        (.out f c (if j < 2 * c + 2 then s.outAt f c else (produced f s).outAt f c)) :=
  congrArg (fun u : State => { u with regs := s.regs.phaseStep }) (addFrame_read h f hw s.frameTerm hc hj hf)

end Reads

/-! ### Writes of INP during the consumption of a frame: one point for each channel -/

/-- `INP[i] <- v`. -/
def State.writeInp (i : Nat) (v : Sample) (s : State) : State := { s with inp := s.inp.write i v }

theorem agentWrite_inp {s : State} {e : Nat} (he : e < s.params.inpWords) (v : Sample) :
    agentWrite (.inp e v) s = s.writeInp e v :=
  if_pos (decide_eq_true he)

theorem forUp_stageChannel_inpIndex (n m : Nat) (s : State) : (forUp n stageChannel s).inpIndex m = s.inpIndex m := by
  simp [State.inpIndex, State.channels]

section Staging

variable {s : State} (h : s.races = [])
include h

theorem stageChannel_later (m j : Nat) (a : AgentAccess) :
    stageChannel m (s.withAccessAt (j + 1) a) = (stageChannel m s).withAccessAt j a := by
  rw [stageChannel_raceFree h]
  rfl

/-- A write that lands just before a channel is staged is as good as made before. -/
theorem stageChannel_writeNow {e : Nat} (he : e < s.params.inpWords) (v : Sample) (m : Nat) :
    stageChannel m (s.withAccessAt 0 (.write (.inp e v))) = stageChannel m (s.writeInp e v) := by
  unfold stageChannel
  rw [agentsMove_accessNow h, agentAccess, agentWrite_inp he,
    agentsMove_raceFree (show (s.writeInp e v).races = [] from h)]

theorem forUp_stageChannel_raceFree (n : Nat) :
    (forUp n stageChannel s).races = [] ∧ (forUp n stageChannel s).inp = s.inp := by
  induction n with
  | zero => exact ⟨h, rfl⟩
  | succ m ih =>
    rw [forUp, stageChannel_raceFree ih.1]
    exact ih

theorem forUp_stageChannel_later (n j : Nat) (a : AgentAccess) :
    forUp n stageChannel (s.withAccessAt (n + j) a) = (forUp n stageChannel s).withAccessAt j a := by
  induction n generalizing j with
  | zero => rw [Nat.zero_add]; rfl
  | succ m ih =>
    rw [forUp, Nat.add_assoc, Nat.add_comm 1, ih, stageChannel_later (forUp_stageChannel_raceFree h m).1, forUp]

/-- The write is made just before channel j is staged. -/
theorem forUp_stageChannel_write {e : Nat} (he : e < s.params.inpWords) (v : Sample) (j : Nat) :
    forUp (j + 1) stageChannel (s.withAccessAt j (.write (.inp e v))) =
      stageChannel j ((forUp j stageChannel s).writeInp e v) := by
  have hr := (forUp_stageChannel_raceFree h j).1
  have hreach : forUp j stageChannel (s.withAccessAt j (.write (.inp e v))) = _ := forUp_stageChannel_later h j 0 _
  rw [forUp, hreach, stageChannel_writeNow hr (by simpa using he)]

variable {e : Nat} {v : Sample} (hw : s.inp.wf = true)
include hw

/-- A write of another element than the one staged commutes with the staging. -/
theorem stageChannel_writeInp {m : Nat} (hm : s.inpIndex m ≠ e) :
    stageChannel m (s.writeInp e v) = (stageChannel m s).writeInp e v := by
  have hread : (s.inp.write e v).read (s.inpIndex m) = s.inp.read (s.inpIndex m) := by
    rw [Mem.read_write hw, if_neg hm]
  rw [stageChannel_raceFree h, stageChannel_raceFree (show (s.writeInp e v).races = [] from h), ← hread]
  rfl

theorem forUp_stageChannel_writeInp {n : Nat} (hn : ∀ m < n, s.inpIndex m ≠ e) :
    forUp n stageChannel (s.writeInp e v) = (forUp n stageChannel s).writeInp e v := by
  induction n with
  | zero => rfl
  | succ m ih =>
    obtain ⟨hr, hi⟩ := forUp_stageChannel_raceFree h m
    rw [forUp, ih fun k hk => hn k (by omega),
      stageChannel_writeInp hr (hi ▸ hw) (by rw [forUp_stageChannel_inpIndex]; exact hn m (by omega)), forUp]

variable (he : e < s.params.inpWords)
include he

/-- A write that lands before its element is staged is as good as made before. -/
theorem forUp_stageChannel_writeBefore {n j : Nat} (hj : j < n) (hm : ∀ m < j, s.inpIndex m ≠ e) :
    forUp n stageChannel (s.withAccessAt j (.write (.inp e v))) = forUp n stageChannel (s.writeInp e v) := by
  induction n, hj using Nat.le_induction with
  | base =>
    rw [forUp_stageChannel_write h he, forUp, forUp_stageChannel_writeInp h hw hm]
  | succ n _ ih => rw [forUp, ih, forUp]

/-- A write that lands after its element is staged stays in INP only. -/
theorem forUp_stageChannel_writeLate {n j : Nat} (hj : j < n) (hm : ∀ m < n, j ≤ m → s.inpIndex m ≠ e) :
    forUp n stageChannel (s.withAccessAt j (.write (.inp e v))) = (forUp n stageChannel s).writeInp e v := by
  have hstep : ∀ m < n, j ≤ m →
      stageChannel m ((forUp m stageChannel s).writeInp e v) = (forUp (m + 1) stageChannel s).writeInp e v := by
    intro m hmn hjm
    obtain ⟨hr, hi⟩ := forUp_stageChannel_raceFree h m
    exact stageChannel_writeInp hr (hi ▸ hw) (by rw [forUp_stageChannel_inpIndex]; exact hm m hmn hjm)
  induction n, hj using Nat.le_induction with
  | base =>
    rw [forUp_stageChannel_write h he]
    exact hstep j (by omega) (le_refl j)
  | succ n hjn ih =>
    rw [forUp, ih (fun m hmn => hm m (by omega)) (fun m hmn => hstep m (by omega))]
    exact hstep n (by omega) (by omega)

end Staging

/-- What follows the staging of an owed frame: the input counted, and a used-up block released (R302, R303). -/
def countFrame (s : State) : State :=
  let u := { s with regs := s.regs.countInput }
  if u.regs.inputIndex = u.regs.heldFrames then releaseHeld u else u

theorem consumeFrame_eq (s : State) :
    consumeFrame s = countFrame (forUp s.channels stageChannel (advanceImpulse s)) := by
  unfold consumeFrame countFrame readAdvance readAgain
  rw [show (advanceImpulse s).channels = s.channels by unfold State.channels; rw [advanceImpulse_regs]]

theorem countFrame_writeInp (e : Nat) (v : Sample) (s : State) :
    countFrame (s.writeInp e v) = (countFrame s).writeInp e v := by
  unfold countFrame
  rw [apply_ite (State.writeInp e v)]
  rfl

theorem countFrame_withAccessAt (j : Nat) (a : AgentAccess) (s : State) :
    countFrame (s.withAccessAt j a) = (countFrame s).withAccessAt j a := by
  unfold countFrame
  rw [apply_ite (State.withAccessAt j a)]
  rfl

theorem advanceImpulse_writeInp (e : Nat) (v : Sample) (s : State) :
    advanceImpulse (s.writeInp e v) = (advanceImpulse s).writeInp e v := by
  unfold advanceImpulse
  rw [apply_ite (State.writeInp e v)]
  rfl

theorem advanceImpulse_withAccessAt (j : Nat) (a : AgentAccess) (s : State) :
    advanceImpulse (s.withAccessAt j a) = (advanceImpulse s).withAccessAt j a := by
  unfold advanceImpulse
  rw [apply_ite (State.withAccessAt j a)]
  rfl

theorem advanceImpulse_inpIndex (s : State) (m : Nat) : (advanceImpulse s).inpIndex m = s.inpIndex m := by
  unfold State.inpIndex State.channels
  rw [advanceImpulse_regs]

theorem inpIndex_inj {s : State} {m c : Nat} : s.inpIndex m = s.inpIndex c ↔ m = c := by
  unfold State.inpIndex
  omega

section Consume

variable {s : State} (h : s.races = [])
include h

/-- The points of the consumption pass by. -/
theorem consumeFrame_later (j : Nat) (a : AgentAccess) :
    consumeFrame (s.withAccessAt (s.channels + j) a) = (consumeFrame s).withAccessAt j a := by
  have hr : (advanceImpulse s).races = [] := by simpa using h
  rw [consumeFrame_eq, consumeFrame_eq, advanceImpulse_withAccessAt, ← countFrame_withAccessAt]
  exact congrArg countFrame (forUp_stageChannel_later hr _ j a)

variable {c j : Nat} {v : Sample} (hw : s.inp.wf = true) (hin : s.inpIndex c < s.params.inpWords)
include hw hin

/-- A write of an element about to be consumed, landing before the block reads it, is consumed (R93). -/
theorem consumeFrame_writeBefore (hc : c < s.channels) (hj : j ≤ c) :
    consumeFrame (s.withAccessAt j (.write (.inp (s.inpIndex c) v))) =
      consumeFrame (s.writeInp (s.inpIndex c) v) := by
  have hr : (advanceImpulse s).races = [] := by simpa using h
  rw [consumeFrame_eq, consumeFrame_eq, advanceImpulse_withAccessAt, advanceImpulse_writeInp]
  refine congrArg countFrame (forUp_stageChannel_writeBefore hr (by simpa using hw) (by simpa using hin)
    (lt_of_le_of_lt hj hc) fun m hm => ?_)
  rw [advanceImpulse_inpIndex, Ne, inpIndex_inj]
  omega

/-- One that lands after the block read the element, another channel still to be staged, stays in INP only (R93). -/
theorem consumeFrame_writeAfter (hc : c < j) (hj : j < s.channels) :
    consumeFrame (s.withAccessAt j (.write (.inp (s.inpIndex c) v))) =
      (consumeFrame s).writeInp (s.inpIndex c) v := by
  have hr : (advanceImpulse s).races = [] := by simpa using h
  rw [consumeFrame_eq, consumeFrame_eq, advanceImpulse_withAccessAt, ← countFrame_writeInp]
  refine congrArg countFrame (forUp_stageChannel_writeLate hr (by simpa using hw) (by simpa using hin) hj
    fun m _ hm => ?_)
  rw [advanceImpulse_inpIndex, Ne, inpIndex_inj]
  omega

end Consume

/-! ### A RESAMPLE of one frame -/

theorem exec_resample_one {s : State} {base : Nat} (hcan : Claims.canResample s 1 base) (hp : s.regs.pending = 0) :
    exec (.resample 1 base) s = .next (finishResample 1 1 (produced base s)) := by
  rw [exec_resample_eq_loop hcan, resampleLoop_produce (k := 0) (by decide) hp]
  rfl

/-- With one frame owed and a block held, that frame is consumed first (R302). -/
theorem exec_resample_one_owed {s : State} {base : Nat} (hcan : Claims.canResample s 1 base) (hp : s.regs.pending = 1)
    (hh : s.regs.held = true) :
    exec (.resample 1 base) s = .next (finishResample 1 1 (produced base (consumeFrame s))) := by
  rw [exec_resample_eq_loop hcan, resampleLoop_consume (k := 0) (by decide) hh (by simp [hp]),
    resampleLoop_produce (k := 0) (by decide) (by simp [hp])]
  rfl

theorem canResample_one_lt {s : State} {base : Nat} (hcan : Claims.canResample s 1 base) :
    base < s.params.outFrames := by
  obtain ⟨-, -, -, hrange⟩ := hcan
  exact hrange

theorem agentWrite_out {s : State} {f c : Nat} (hf : f < s.params.outFrames) (hc : c < 2) (v : Word) :
    agentWrite (.out f c v) s = s.writeOut f c v :=
  if_pos (by simp [AgentWrite.inRange, hf, hc])

/-- Writes of OUT (f, c) and of OUT (f, d) are apart for two channels. -/
theorem out_apart {f c d : Nat} (h : c ≠ d) (v : Word) : (AgentWrite.out f c v).Apart f d := by
  show outIndex f c ≠ outIndex f d
  unfold outIndex
  omega

/-- After its element is staged a write of INP stays, up to the end of the round. -/
theorem produced_consumeFrame_writeAfter {s : State} (h : s.races = []) (hi : s.inp.wf = true) (ho : s.out.wf = true)
    (f : Nat) {c j : Nat} {v : Sample} (hin : s.inpIndex c < s.params.inpWords) (hcj : c < j)
    (hj : j < s.channels + 5) :
    produced f (consumeFrame (s.withAccessAt j (.write (.inp (s.inpIndex c) v)))) =
      (produced f (consumeFrame s)).writeInp (s.inpIndex c) v := by
  obtain ⟨hr, -, hout, -⟩ := consumeFrame_raceFree h
  have hw : (consumeFrame s).out.wf = true := hout ▸ ho
  have hin' : s.inpIndex c < (consumeFrame s).params.inpWords := by simpa using hin
  have hpin : s.inpIndex c < (produced f (consumeFrame s)).params.inpWords := by simpa [produced] using hin
  rw [← agentWrite_inp hpin]
  rcases Nat.lt_or_ge j s.channels with hlt | hge
  · rw [consumeFrame_writeAfter h hi hin hcj hlt, ← agentWrite_inp hin',
      ← produced_writeBefore hr hw f (c := 0) (j := 0) (by decide) (le_refl 0) (by simp)]
    exact produced_writeLate hr hw f (by decide) fun _ _ _ => trivial
  · obtain ⟨i, rfl⟩ := Nat.exists_eq_add_of_le hge
    rw [consumeFrame_later h]
    exact produced_writeLate hr hw f (by omega) fun _ _ _ => trivial

/-- The element of INP that channel c of the next owed frame is read from exists (R41). -/
theorem State.Inv.inpIndex_lt {s : State} (hinv : s.Inv) (hh : s.regs.held = true) {c : Nat} (hc : c < s.channels) :
    s.inpIndex c < s.params.inpWords := by
  obtain ⟨hidx, hin⟩ := hinv.regs.heldBlock hh
  unfold State.inpIndex State.channels at *
  have : (s.regs.inputIndex.toNat + 1) * s.regs.c.toNat ≤ s.regs.heldFrames.toNat * s.regs.c.toNat :=
    Nat.mul_le_mul_right _ hidx
  rw [Nat.add_mul, Nat.one_mul] at this
  omega

/-- With no input owed, a read of OUT sees the old value up to the block's write and the new one after it. -/
theorem exec_resample_one_read {s : State} (h : s.races = []) (hw : s.out.wf = true) {base c j : Nat}
    (hcan : Claims.canResample s 1 base) (hp : s.regs.pending = 0) (hc : c < 2) (hj : j < 5) :
    let u := finishResample 1 1 (produced base s)
    exec (.resample 1 base) (s.withAccessAt j (.read (.out base c))) =
      .next { u with observed :=
        s.observed ++ [.out base c (if j < 2 * c + 2 then s.outAt base c else u.outAt base c)] } := by
  have hobs : (produced base s).observed = s.observed := by rw [produced_eq_raceFree h]
  have hcan' : Claims.canResample (s.withAccessAt j (.read (.out base c))) 1 base := hcan
  rw [exec_resample_one hcan' hp, produced_read h base hw hc hj (canResample_one_lt hcan), ← hobs]
  rfl

/-- With no input owed, a write of OUT (base, c) by another agent (R93, R84). -/
theorem exec_resample_one_write {s : State} (h : s.races = []) (hw : s.out.wf = true) {base c j : Nat}
    (hcan : Claims.canResample s 1 base) (hp : s.regs.pending = 0) (hc : c < 2) (hj : j < 5) (v : Word) :
    let u := finishResample 1 1 (produced base s)
    let run := exec (.resample 1 base) (s.withAccessAt j (.write (.out base c v)))
    (j ≤ 2 * c → run = exec (.resample 1 base) (s.writeOut base c v)) ∧ (j = 2 * c + 1 → run = .next u) ∧
      (2 * c + 1 < j → run = .next (u.writeOut base c v)) := by
  have hf : base < s.params.outFrames := canResample_one_lt hcan
  have hcan' : Claims.canResample (s.withAccessAt j (.write (.out base c v))) 1 base := hcan
  have hcanw : Claims.canResample (s.writeOut base c v) 1 base := hcan
  dsimp only
  rw [exec_resample_one hcan' hp, exec_resample_one hcanw hp]
  refine ⟨fun hjc => ?_, fun hjc => ?_, fun hjc => ?_⟩
  · rw [produced_writeBefore h hw base hc hjc fun d hd => out_apart (ne_of_gt hd) v, agentWrite_out hf hc]
  · rw [hjc, produced_writeLost h hw base hc]
  · have hap : ∀ d < 2, j < 2 * d + 2 → (AgentWrite.out base c v).Apart base d := fun d _ hd => out_apart (by omega) v
    rw [produced_writeLate h hw base hj hap, agentWrite_out (by simpa [produced] using hf) hc]
    rfl

/-- With one frame owed and held, a write of the element that channel c is to be consumed from (R93). -/
theorem exec_resample_one_writeInp {s : State} (h : s.races = []) (hinv : s.Inv) {base c j : Nat}
    (hcan : Claims.canResample s 1 base) (hp : s.regs.pending = 1) (hh : s.regs.held = true) (hc : c < s.channels)
    (hj : j < s.channels + 5) (v : Sample) :
    let u := finishResample 1 1 (produced base (consumeFrame s))
    let run := exec (.resample 1 base) (s.withAccessAt j (.write (.inp (s.inpIndex c) v)))
    (j ≤ c → run = exec (.resample 1 base) (s.writeInp (s.inpIndex c) v)) ∧
      (c < j → run = .next (u.writeInp (s.inpIndex c) v)) := by
  have hin := hinv.inpIndex_lt hh hc
  have hcan' : Claims.canResample (s.withAccessAt j (.write (.inp (s.inpIndex c) v))) 1 base := hcan
  have hcanw : Claims.canResample (s.writeInp (s.inpIndex c) v) 1 base := hcan
  dsimp only
  rw [exec_resample_one_owed hcan' hp hh, exec_resample_one_owed hcanw hp hh]
  refine ⟨fun hjc => ?_, fun hjc => ?_⟩
  · rw [consumeFrame_writeBefore h hinv.mems.inp.1 hin hc hjc]
  · rw [produced_consumeFrame_writeAfter h hinv.mems.inp.1 hinv.mems.out.1 base hin hjc hj]
    rfl

/-- The state without the moves to come meets the invariant too. -/
theorem State.Inv.noRaces {s : State} (h : s.Inv) : State.Inv { s with races := [] } :=
  h.moved rfl rfl (.inl rfl) h.mems.inp h.mems.out rfl rfl rfl

/-- Settles O49: the access is carried through the operations of the frame to its point, where it acts as one made
before the command, as one made after it, or, between the read and the write of its own element, not at all. -/
theorem racingAccessesInterleave : Obligations.RacingAccessesInterleave := by
  constructor
  · intro s u base c j hw hcan hp hc hj hu
    have hcan0 : Claims.canResample { s with races := [] } 1 base := hcan
    obtain rfl : finishResample 1 1 (produced base { s with races := [] }) = u := by
      rw [exec_resample_one hcan0 hp] at hu
      injection hu
    refine ⟨fun hr => ?_, fun v hr => ?_⟩
    · have hread := exec_resample_one_read (s := { s with races := [] }) rfl hw hcan0 hp hc hj
      rw [withAccessAt_eq hr] at hread
      exact hread
    · have hwrite := exec_resample_one_write (s := { s with races := [] }) rfl hw hcan0 hp hc hj v
      rw [withAccessAt_eq hr] at hwrite
      exact hwrite
  · intro s u base c j v hinv hcan hp hh hc hj hu e hr
    have hcan0 : Claims.canResample { s with races := [] } 1 base := hcan
    obtain rfl : finishResample 1 1 (produced base (consumeFrame { s with races := [] })) = u := by
      rw [exec_resample_one_owed hcan0 hp hh] at hu
      injection hu
    have hwrite := exec_resample_one_writeInp (s := { s with races := [] }) rfl hinv.noRaces hcan0 hp hh hc hj v
    have hrun : State.withAccessAt j (.write (.inp e v)) { s with races := [] } = s := withAccessAt_eq hr
    exact hrun ▸ hwrite

end Sys2Proof.Machine
end

section
/-! PROOFS. The byte bus (R81): the bytes of a value are its base-256 digits, so the bytes of a packet hold the packet,
and those of INP and OUT lie where rule R81 puts them. -/

namespace Sys2Proof

/-! ### Bytes of a value -/

theorem bytesOf_little (n v : Nat) :
    bytesOf .little n v = (List.range n).map fun k => BitVec.ofNat 8 (v >>> (8 * k)) := rfl

@[simp] theorem bytesOf_length (e : Endian) (n v : Nat) : (bytesOf e n v).length = n := by
  cases e <;> simp [bytesOf]

/-- Byte `k` of a word on a little-endian bus is its bits from 8k on. -/
theorem bytesOf_little_getElem? {w : Nat} (v : BitVec w) {n k : Nat} (h : k < n) :
    (bytesOf .little n v.toNat)[k]? = some (v.extractLsb' (8 * k) 8) := by
  rw [bytesOf_little, List.getElem?_map, List.getElem?_range h]
  rfl

/-- The least significant byte and the bytes of the rest. -/
theorem bytesOf_little_succ (n v : Nat) :
    bytesOf .little (n + 1) v = BitVec.ofNat 8 v :: bytesOf .little n (v / 256) := by
  rw [bytesOf_little, List.range_succ_eq_map, List.map_cons, List.map_map]
  congr 1
  refine List.map_congr_left fun k _ => congrArg (BitVec.ofNat 8) ?_
  simp only [Nat.shiftRight_eq_div_pow, Nat.div_div_eq_div_mul]
  rw [show 256 = 2 ^ 8 from rfl, ← pow_add, Nat.mul_succ, Nat.add_comm]

theorem valueLittle_bytesOf (n v : Nat) : valueLittle (bytesOf .little n v) = v % 256 ^ n := by
  induction n generalizing v with
  | zero => simp [bytesOf, valueLittle, Nat.mod_one]
  | succ n ih =>
    rw [bytesOf_little_succ, valueLittle, ih, BitVec.toNat_ofNat, Nat.pow_succ' (m := 256)]
    exact Nat.mod_mul.symm

theorem valueLittle_append (as bs : List (BitVec 8)) :
    valueLittle (as ++ bs) = valueLittle as + 256 ^ as.length * valueLittle bs := by
  induction as with
  | nil => simp [valueLittle]
  | cons a as ih =>
    rw [List.cons_append, valueLittle, valueLittle, ih, List.length_cons, pow_succ']
    ring

/-- Read back in the order they were laid out, the bytes hold the value. -/
theorem valueOf_bytesOf (e : Endian) {n v : Nat} (h : v < 256 ^ n) : valueOf e (bytesOf e n v) = v := by
  have hlittle : valueLittle (bytesOf .little n v) = v := by rw [valueLittle_bytesOf, Nat.mod_eq_of_lt h]
  cases e with
  | little => exact hlittle
  | big =>
    rw [valueOf, bytesOf, List.reverse_reverse]
    exact hlittle

theorem valueOf_bytesOf_word (e : Endian) (v : Word) : valueOf e (bytesOf e 4 v.toNat) = v.toNat :=
  valueOf_bytesOf e v.isLt

/-! ### Packets -/

/-- A packet is CW in its upper word and OP in its lower one (R110). -/
theorem place_cw_or_op (p : Packet) : place 64 (Packet.cw p) 32 ||| place 64 (Packet.op p) 0 = p := by
  rw [Packet.cw, Packet.op, place_extract, place_extract,
    show place 64 (BitVec.allOnes 32) 0 = ~~~place 64 (BitVec.allOnes 32) 32 by decide]
  exact masked_or_rest p _

theorem packetOfBytes_packetBytes (e : Endian) (p : Packet) : packetOfBytes e (packetBytes e p) = some p := by
  have hlen : (packetBytes e p).length = 8 := by simp [packetBytes]
  have hcw : (packetBytes e p).take 4 = bytesOf e 4 (Packet.cw p).toNat := List.take_left' (bytesOf_length e 4 _)
  have hop : (packetBytes e p).drop 4 = bytesOf e 4 (Packet.op p).toNat := List.drop_left' (bytesOf_length e 4 _)
  rw [packetOfBytes, if_pos hlen, hcw, hop, valueOf_bytesOf_word, valueOf_bytesOf_word, BitVec.ofNat_toNat,
    BitVec.ofNat_toNat, BitVec.setWidth_eq, BitVec.setWidth_eq, place_cw_or_op]

/-- A byte of a word of the packet is a byte of the packet. -/
theorem extractLsb'_byte (p : Packet) (lo : Nat) {b : Nat} (hb : b < 4) :
    (p.extractLsb' lo 32).extractLsb' (8 * b) 8 = p.extractLsb' (lo + 8 * b) 8 := by
  apply BitVec.eq_of_getLsbD_eq
  intro i hi
  simp only [BitVec.getLsbD_extractLsb', Nat.add_assoc, hi, show 8 * b + i < 32 by omega]
  simp

/-- On a little-endian bus bytes 0 to 3 are CW's and bytes 4 to 7 are OP's, least significant first. -/
theorem packetBytes_little (p : Packet) {b : Nat} (hb : b < 4) :
    (packetBytes .little p)[b]? = some (p.extractLsb' (32 + 8 * b) 8) ∧
      (packetBytes .little p)[4 + b]? = some (p.extractLsb' (8 * b) 8) := by
  unfold packetBytes
  constructor
  · rw [List.getElem?_append_left (by simpa using hb), bytesOf_little_getElem? _ hb, Packet.cw,
      extractLsb'_byte p 32 hb]
  · rw [List.getElem?_append_right (by simp), bytesOf_length, Nat.add_sub_cancel_left, bytesOf_little_getElem? _ hb,
      Packet.op, extractLsb'_byte p 0 hb, Nat.zero_add]

end Sys2Proof

namespace Sys2Proof.Machine

/-! ### INP and OUT -/

section Little

variable {s : State} (h : s.params.busEndian = .little)
include h

theorem inpByte_little (i : Nat) {b : Nat} (hb : b < 2) :
    s.inpByte (2 * i + b) = (s.inp.read i).extractLsb' (8 * b) 8 := by
  rw [State.inpByte, h, show (2 * i + b) / 2 = i by omega, show (2 * i + b) % 2 = b by omega, List.getD,
    bytesOf_little_getElem? _ hb]
  rfl

theorem outByte_little (f c : Nat) {b : Nat} (hb : b < 4) :
    s.outByte (8 * f + 4 * c + b) = (s.outAt f c).extractLsb' (8 * b) 8 := by
  rw [State.outByte, h, show (8 * f + 4 * c + b) / 4 = outIndex f c by unfold outIndex; omega,
    show (8 * f + 4 * c + b) % 4 = b by omega, List.getD, bytesOf_little_getElem? _ hb]
  rfl

/-- The four bytes from an even offset on are those of two samples. -/
theorem inpBytes_little (i : Nat) :
    (List.range 4).map (fun k => s.inpByte (2 * i + k)) =
      bytesOf .little 2 (s.inp.read i).toNat ++ bytesOf .little 2 (s.inp.read (i + 1)).toNat := by
  have hbyte (m : Nat) {b : Nat} (hb : b < 2) :
      s.inpByte (2 * m + b) = BitVec.ofNat 8 ((s.inp.read m).toNat >>> (8 * b)) := inpByte_little h m hb
  have h2 : s.inpByte (2 * i + 2) = _ := hbyte (i + 1) (b := 0) (by decide)
  have h3 : s.inpByte (2 * i + 3) = _ := hbyte (i + 1) (b := 1) (by decide)
  have h0 : s.inpByte (2 * i + 0) = _ := hbyte i (by decide)
  have h1 : s.inpByte (2 * i + 1) = _ := hbyte i (by decide)
  change [s.inpByte (2 * i + 0), s.inpByte (2 * i + 1), s.inpByte (2 * i + 2), s.inpByte (2 * i + 3)] = _
  rw [h0, h1, h2, h3]
  rfl

/-- A 32-bit read of two samples has the first in its lower half. -/
theorem inpBusRead_little (i : Nat) :
    s.inpBusRead (2 * i) 4 = (s.inp.read i).toNat + 2 ^ 16 * (s.inp.read (i + 1)).toNat := by
  have hsample (v : Sample) : valueLittle (bytesOf .little 2 v.toNat) = v.toNat :=
    valueOf_bytesOf .little (n := 2) v.isLt
  rw [State.inpBusRead, h, inpBytes_little h, valueOf, valueLittle_append, hsample, hsample, bytesOf_length]
  rfl

end Little

/-- Settles O5: packets, INP and OUT are laid out byte by byte as rule R81 says. -/
theorem busBytesAreLaidOut : Obligations.BusBytesAreLaidOut :=
  ⟨packetOfBytes_packetBytes, fun p _ hb => packetBytes_little p hb, fun _ h =>
    ⟨fun i _ hb => inpByte_little h i hb, fun f c _ _ hb => outByte_little h f c hb, inpBusRead_little h⟩⟩

end Sys2Proof.Machine
end

section
/-! PROOFS. Encoding (30_encoding.md): a packet decodes exactly in the row of the opcode map that it matches, every other packet
is illegal, every step answers one packet once, and only the host's access to a missing element stops a step. -/

namespace Sys2Proof

/-! ### The opcode map (R123) -/

/-- A packet decodes to a command of a row exactly when it matches that row (R123). -/
theorem decodes_in_row_iff (p : Packet) {op : Opcode} {pattern mask : Packet} (hr : ⟨op, pattern, mask⟩ ∈ opcodeRows) :
    (∃ i, decode p = .ok i ∧ i.opcode = op) ↔ p &&& mask = pattern := by
  constructor
  · rintro ⟨i, hd, hop⟩
    obtain ⟨row, hrow, hm, rfl⟩ := (decode_ok_iff p i).1 hd
    rw [fieldsOf_opcode] at hop
    obtain rfl : row = ⟨op, pattern, mask⟩ := opcodeRows_unique row hrow _ hr (congrArg Opcode.byte hop)
    exact hm
  · intro hm
    exact ⟨fieldsOf op p, (decode_ok_iff p _).2 ⟨_, hr, hm, rfl⟩, fieldsOf_opcode op p⟩

/-- Settles O4: no two rows share an opcode, so a command of a row comes from that row. -/
theorem packetSpellsCommandIffRowMatches : Obligations.PacketSpellsCommandIffRowMatches := fun p =>
  ⟨decodes_in_row_iff p (by decide), decodes_in_row_iff p (by decide), decodes_in_row_iff p (by decide),
    decodes_in_row_iff p (by decide), decodes_in_row_iff p (by decide), decodes_in_row_iff p (by decide),
    decodes_in_row_iff p (by decide), decodes_in_row_iff p (by decide), decodes_in_row_iff p (by decide)⟩

/-- Settles O1: each packet is decoded by evaluation. -/
theorem workedEncodingsDecode : Obligations.WorkedEncodingsDecode := by
  unfold Obligations.WorkedEncodingsDecode
  decide

/-! ### Illegal packets (R124, R125) -/

/-- The rows take the opcode bytes 0x00 to 0x08, one each (R123, R125). -/
theorem no_row_of_byte_iff (b : BitVec 8) : (∀ row ∈ opcodeRows, row.opcode.byte ≠ b) ↔ 9 ≤ b.toNat := by
  have hused : ∀ n < 9, ∃ row ∈ opcodeRows, row.opcode.byte.toNat = n := by decide
  have hbound : ∀ row ∈ opcodeRows, row.opcode.byte.toNat < 9 := by decide
  constructor
  · intro hnone
    by_contra hlt
    obtain ⟨row, hr, hb⟩ := hused b.toNat (by omega)
    exact hnone row hr (BitVec.eq_of_toNat_eq hb)
  · rintro h9 row hr rfl
    have := hbound row hr
    omega

/-- The decoder finds no row exactly for a byte that no row has (R124). -/
theorem decode_reservedOpcode_iff (p : Packet) :
    decode p = .error .reservedOpcode ↔ ∀ row ∈ opcodeRows, row.opcode.byte ≠ Packet.opcodeByte p := by
  have hfind : opcodeRows.find? (fun row => row.opcode.byte == Packet.opcodeByte p) = none ↔
      ∀ row ∈ opcodeRows, row.opcode.byte ≠ Packet.opcodeByte p := by
    simp [List.find?_eq_none]
  rw [← hfind]
  unfold decode
  split
  · exact iff_of_true rfl ‹_›
  · rename_i row hrow
    rw [hrow]
    split <;> simp

/-- Decoding fails exactly where no row matches (R123, R124). -/
theorem decode_error_iff (p : Packet) :
    (∃ e, decode p = .error e) ↔ ∀ row ∈ opcodeRows, p &&& row.mask ≠ row.pattern := by
  constructor
  · rintro ⟨e, he⟩ row hr hm
    have hok := (decode_ok_iff p _).2 ⟨row, hr, hm, rfl⟩
    rw [he] at hok
    cases hok
  · intro hnone
    cases hd : decode p with
    | error e => exact ⟨e, rfl⟩
    | ok i =>
      obtain ⟨row, hr, hm, -⟩ := (decode_ok_iff p i).1 hd
      exact absurd hm (hnone row hr)

end Sys2Proof

namespace Sys2Proof.Machine

/-- A packet that decodes to no command runs none and is answered (R124, R125). -/
theorem runPacket_illegal {p : Packet} {e : Illegal} (h : decode p = .error e) (s : State) :
    runPacket p s = .next (answerIllegal p s) := by
  unfold runPacket
  rw [h]

/-- Outside Fault an illegal packet is answered {ERR_ILLEGAL, 0}, and LAST_ERR is all it writes (R125, R351). -/
theorem answerIllegal_of_not_fault {s : State} (h : s.regs.state ≠ .fault) (p : Packet) :
    answerIllegal p s = Claims.refuses .errIllegal 0 s :=
  if_neg fun hf => h hf.1

/-- Settles O8: opcodes above the nine rows find no row, and a packet outside every row is answered as illegal. -/
theorem reservedPacketsAreIllegal : Obligations.ReservedPacketsAreIllegal := by
  refine ⟨fun p => (decode_reservedOpcode_iff p).trans (no_row_of_byte_iff _), decode_error_iff, ?_⟩
  intro s p rest e hw hh hf hd
  rw [step_send hw hh, runPacket_illegal hd, answerIllegal_of_not_fault (s := { s with host := rest }) hf]

/-! ### Where a step stops (R111, R87) -/

/-- Every packet has a next state, legal or not (R111). -/
theorem runPacket_next (p : Packet) (s : State) : ∃ t, runPacket p s = .next t := by
  cases hd : decode p with
  | ok i => exact ⟨_, (runPacket_decoded hd s).trans (exec_eq_next i s)⟩
  | error e => exact ⟨_, runPacket_illegal hd s⟩

/-- Settles O60: by what the step takes next; only an access of the host to an element that does not exist stops it. -/
theorem stepStopsOnlyAtMissingElements : Obligations.StepStopsOnlyAtMissingElements := by
  intro s
  unfold step nextAction
  cases hw : s.waiting with
  | some w => exact .inl ⟨_, rfl⟩
  | none =>
    unfold hostStep
    rcases hh : s.host with _ | ⟨p | w | r, rest⟩
    · exact .inl ⟨_, rfl⟩
    · exact .inl (runPacket_next p _)
    · cases hr : w.inRange s.params with
      | true => exact .inl ⟨_, if_pos hr⟩
      | false => exact .inr ⟨if_neg (by simp [hr]), rfl, rest, .inl ⟨w, rfl, hr⟩⟩
    · cases hr : r.inRange s.params with
      | true => exact .inl ⟨_, if_pos hr⟩
      | false => exact .inr ⟨if_neg (by simp [hr]), rfl, rest, .inr ⟨r, rfl, hr⟩⟩

/-! ### One response per packet (R111) -/

open Claims (packetsAndResponses)

/-- The count looks at the responses, the waiting command and the host's list only. -/
theorem packetsAndResponses_congr {s t : State} (hr : t.responses = s.responses) (hw : t.waiting = s.waiting)
    (hh : t.host = s.host) : packetsAndResponses t = packetsAndResponses s := by
  unfold packetsAndResponses
  rw [hr, hw, hh]

/-- What adds one response, and takes no packet and ends no wait, adds one to the count. -/
theorem packetsAndResponses_responded {s t : State} {r : Response} (hr : t.responses = s.responses ++ [r])
    (hw : t.waiting = s.waiting) (hh : t.host = s.host) : packetsAndResponses t = packetsAndResponses s + 1 := by
  unfold packetsAndResponses
  rw [hr, hw, hh, List.length_append, List.length_singleton]
  omega

@[simp] theorem packetsAndResponses_answer (st : Status) (d : Word) (s : State) :
    packetsAndResponses (answer st d s) = packetsAndResponses s + 1 :=
  packetsAndResponses_responded rfl rfl rfl

/-- A command that begins to wait is counted as the response it will send. -/
theorem packetsAndResponses_wait {s : State} (hw : s.waiting = none) (w : Waiting) :
    packetsAndResponses { s with waiting := some w } = packetsAndResponses s + 1 := by
  simp [packetsAndResponses, hw, Claims.bit]
  omega

/-- The answer that ends a wait takes the waiting command out of the count. -/
theorem packetsAndResponses_afterAnswer {s : State} {w : Waiting} (hw : s.waiting = some w) (a : ProviderAnswer)
    (rest : List ProviderAnswer) : packetsAndResponses (afterAnswer a rest s) + 1 = packetsAndResponses s := by
  rw [afterAnswer_keeps]
  simp [packetsAndResponses, hw, Claims.bit]
  omega

/-- A packet taken from the host's list leaves the count. -/
theorem packetsAndResponses_send {s : State} {p : Packet} {rest : List HostAction} (hh : s.host = .send p :: rest) :
    packetsAndResponses { s with host := rest } + 1 = packetsAndResponses s := by
  simp [packetsAndResponses, hh]
  omega

theorem packetsAndResponses_write {s : State} {w : AgentWrite} {rest : List HostAction}
    (hh : s.host = .write w :: rest) : packetsAndResponses { s with host := rest } = packetsAndResponses s := by
  simp [packetsAndResponses, hh]

theorem packetsAndResponses_read {s : State} {r : AgentRead} {rest : List HostAction}
    (hh : s.host = .read r :: rest) : packetsAndResponses { s with host := rest } = packetsAndResponses s := by
  simp [packetsAndResponses, hh]

/-- A command at work: it has not answered yet and does not wait, and the count stands at `c` without it. -/
structure AtWork (c : Nat) (s : State) : Prop where
  notWaiting : s.waiting = none
  count : packetsAndResponses s = c

namespace AtWork

variable {c : Nat} {s t : State}

/-- What answers nothing and does not wait keeps a command at work. -/
theorem keep (h : AtWork c s) (hr : t.responses = s.responses) (hw : t.waiting = none) (hh : t.host = s.host) :
    AtWork c t :=
  ⟨hw, (packetsAndResponses_congr hr (hw.trans h.notWaiting.symm) hh).trans h.count⟩

/-- With its response a command is counted. -/
theorem responded (h : AtWork c s) {r : Response} (hr : t.responses = s.responses ++ [r])
    (hw : t.waiting = s.waiting) (hh : t.host = s.host) : packetsAndResponses t = c + 1 := by
  rw [packetsAndResponses_responded hr hw hh, h.count]

/-- A RESAMPLE stays at work from piece to piece of its loop, and where it stops it has answered once or waits. -/
theorem loopRule (n base c : Nat) :
    LoopRule n base (fun _ => AtWork c) (fun _ => AtWork c) (fun t => packetsAndResponses t = c + 1) :=
  .ofAnswered
    (request := fun _ _ _ h _ _ => h.keep (by simp) (by simpa using h.notWaiting) (by simp))
    (wait := fun _ _ _ h _ _ _ => h.count ▸ packetsAndResponses_wait h.notWaiting _)
    (answered := fun _ _ a rest _ h _ _ _ => by
      rw [afterAnswer_keeps]
      exact h.keep rfl rfl rfl)
    (short := fun _ _ _ h _ _ => h.responded rfl rfl rfl)
    (bad := fun _ _ _ _ h _ _ _ => h.responded rfl rfl rfl)
    (hold := fun _ _ _ _ h _ _ _ => h.keep rfl h.notWaiting rfl)
    (consume := fun _ _ _ h _ _ => h.keep (by simp) (by simpa using h.notWaiting) (by simp))
    (produce := fun _ _ _ h _ =>
      h.keep (by simp [produced]) (by simpa [produced] using h.notWaiting) (by simp [produced]))
    (done := fun _ h => h.responded rfl rfl rfl)

end AtWork

theorem resampleBody_answersOnce {s : State} (hw : s.waiting = none) (n base : Nat) :
    packetsAndResponses (resampleBody n base s) = packetsAndResponses s + 1 := by
  rcases resampleBody_cases n base s with ⟨-, he⟩ | ⟨-, he⟩ <;> rw [he]
  · exact packetsAndResponses_answer _ _ _
  · exact (AtWork.loopRule n base _).body ⟨hw, rfl⟩

/-- Neither RESET_ACTIONS nor register writes are counted (R321). -/
theorem packetsAndResponses_resetActions (r : Regs) (s : State) :
    packetsAndResponses { resetActions s with regs := r } = packetsAndResponses s :=
  packetsAndResponses_congr (by simp) (by simp) (by simp)

theorem packetsAndResponses_redesigned (k : Constants) (rate : Nat) (s : State) :
    packetsAndResponses (redesigned k rate s) = packetsAndResponses s :=
  packetsAndResponses_congr (by simp) (by simp) (by simp)

theorem finishRate_answersOnce (rate : Nat) (s : State) :
    packetsAndResponses (finishRate rate s) = packetsAndResponses s + 1 :=
  packetsAndResponses_responded rfl rfl rfl

theorem setRateBody_answersOnce (rate : Int) (s : State) :
    packetsAndResponses (setRateBody rate s) = packetsAndResponses s + 1 := by
  rcases setRateBody_cases rate s with he | ⟨-, -, he⟩ | ⟨-, -, k, -, he⟩ | ⟨-, -, he⟩ <;> rw [he]
  · exact packetsAndResponses_answer _ _ _
  · exact packetsAndResponses_answer _ _ _
  · rw [finishRate_answersOnce, packetsAndResponses_redesigned]
  · exact finishRate_answersOnce _ _

theorem createBody_answersOnce (tier chan bits : Nat) (rate : Int) (s : State) :
    packetsAndResponses (createBody tier chan bits rate s) = packetsAndResponses s + 1 := by
  rcases createBody_cases tier chan bits rate s with he | ⟨t, -, -, -, -, he⟩ <;>
    rw [he, packetsAndResponses_answer]
  rw [packetsAndResponses_resetActions]

theorem resetBody_answersOnce (s : State) : packetsAndResponses (resetBody s) = packetsAndResponses s + 1 := by
  rw [resetBody_eq, packetsAndResponses_answer, packetsAndResponses_resetActions]

theorem coefWriteBody_answersOnce (start : Bool) (value : Word) (s : State) :
    packetsAndResponses (coefWriteBody start value s) = packetsAndResponses s + 1 := by
  rcases coefWriteBody_cases start value s with he | ⟨idx, -, -, -, he⟩ <;> rw [he] <;>
    exact packetsAndResponses_answer _ _ _

theorem coefCommitBody_answersOnce (s : State) :
    packetsAndResponses (coefCommitBody s) = packetsAndResponses s + 1 := by
  rcases coefCommitBody_cases s with ⟨-, he⟩ | ⟨-, he⟩ <;> rw [he] <;> exact packetsAndResponses_answer _ _ _

theorem readRegBody_answersOnce (n : Nat) (s : State) :
    packetsAndResponses (readRegBody n s) = packetsAndResponses s + 1 := by
  rcases readRegBody_cases n s with ⟨v, -, he⟩ | he <;> rw [he] <;> exact packetsAndResponses_answer _ _ _

/-- Every command that runs where none waits answers once, or begins to wait (R111, R92). -/
theorem exec_answersOnce {i : Instr} {s t : State} (hw : s.waiting = none) (he : exec i s = .next t) :
    packetsAndResponses t = packetsAndResponses s + 1 := by
  refine exec_induct (Q := fun t => packetsAndResponses t = packetsAndResponses s + 1) he (fun _ => ?_)
    (packetsAndResponses_answer _ _ _) (packetsAndResponses_answer _ _ _)
  cases i with
  | nop => exact packetsAndResponses_answer _ _ _
  | create tier chan bits rate => exact createBody_answersOnce tier chan bits rate s
  | setRate rate => exact setRateBody_answersOnce rate s
  | setVolume l r => exact packetsAndResponses_answer _ _ _
  | resample n base => exact resampleBody_answersOnce hw n base
  | coefWrite start value => exact coefWriteBody_answersOnce start value s
  | coefCommit => exact coefCommitBody_answersOnce s
  | reset => exact resetBody_answersOnce s
  | readReg n => exact readRegBody_answersOnce n s

theorem answerIllegal_answersOnce (p : Packet) (s : State) :
    packetsAndResponses (answerIllegal p s) = packetsAndResponses s + 1 := by
  unfold answerIllegal
  split <;> exact packetsAndResponses_answer _ _ _

/-- A waiting RESAMPLE waits on, or it ends with its one response or waits again (R312). -/
theorem resumeResample_conserves {s : State} {w : Waiting} (hw : s.waiting = some w) :
    packetsAndResponses (resumeResample w s) = packetsAndResponses s := by
  by_cases hp : s.provider = []
  · have he : resumeResample w s = agentsMove s := by rw [resumeResample, hp]
    rw [he]
    exact packetsAndResponses_congr (by simp) (by simp) (by simp)
  rw [resume_loop rfl rfl hp]
  rcases receiveAnswer_cases w.count w.base w.k s with ⟨hnil, -⟩ | ⟨a, rest, t, -, rfl, hc⟩
  · exact absurd hnil hp
  rw [← packetsAndResponses_afterAnswer hw a rest]
  rcases hc with ⟨-, he⟩ | ⟨d, -, -, -, he⟩ | ⟨d, -, -, -, he⟩ <;> rw [he]
  · exact packetsAndResponses_responded rfl rfl rfl
  · exact packetsAndResponses_responded rfl rfl rfl
  · have hnone : (afterAnswer a rest s).waiting = none := by rw [afterAnswer_keeps]
    exact (AtWork.loopRule w.count w.base _).loop _ _ (Nat.sub_le _ _) ⟨hnone, rfl⟩

/-- Settles O11: a packet taken leaves the count by one and its command adds one, as a response or as a wait; the end of
a wait is one response; the host's reads and writes count nothing. -/
theorem oneResponsePerPacket : Obligations.OneResponsePerPacket := by
  intro s t hstep
  obtain ⟨w, hw, rfl⟩ | ⟨-, -, rfl⟩ | ⟨hw, hact⟩ := step_cases hstep
  · exact resumeResample_conserves hw
  · rfl
  · cases hact with
    | packet p i rest hh _ he =>
      rw [← packetsAndResponses_send hh]
      exact exec_answersOnce hw he
    | illegal p e rest hh _ he =>
      rw [← packetsAndResponses_send hh, he]
      exact answerIllegal_answersOnce p _
    | write w rest hh _ he =>
      rw [← packetsAndResponses_write hh, he]
      exact packetsAndResponses_congr (by simp) (by simp) (by simp)
    | read r rest hh _ he =>
      rw [← packetsAndResponses_read hh, he]
      exact packetsAndResponses_congr (by simp) (by simp) (by simp)

end Sys2Proof.Machine
end

section
/-! PROOFS. The coefficient store (40_coefficient_store.md): the clamp of the phase count, the constants a derivation gives and
the rates it rejects, the bound on a fresh increment, and the decision to re-design. -/

namespace Sys2Proof.Machine

/-! ### The clamp of the phase count (R158) -/

/-- The loop ends at the least doubling that reaches 63, where its steps are enough to reach it. -/
theorem doublePhases_least (steps l : Nat) (h : 63 ≤ l * 2 ^ steps) :
    ∃ m, 63 ≤ l * 2 ^ m ∧ (∀ j, j < m → l * 2 ^ j < 63) ∧ doublePhases steps l = l * 2 ^ m := by
  induction steps generalizing l with
  | zero => exact ⟨0, h, by simp, by simp [doublePhases]⟩
  | succ k ih =>
    have hdouble (j : Nat) : l * 2 ^ (j + 1) = 2 * l * 2 ^ j := by ring
    unfold doublePhases Config.minPhases
    split
    · next hl =>
      obtain ⟨m, hge, hleast, heq⟩ := ih (2 * l) (hdouble k ▸ h)
      refine ⟨m + 1, hdouble m ▸ hge, fun j hj => ?_, hdouble m ▸ heq⟩
      cases j with
      | zero => simpa using hl
      | succ j => exact hdouble j ▸ hleast j (by omega)
    · next hl => exact ⟨0, by omega, by simp, by simp⟩

/-- The clamp is the least doubling that reaches 63, capped at 127. -/
theorem clampPhases_least {l0 : Nat} (h : 1 ≤ l0) :
    ∃ m, 63 ≤ l0 * 2 ^ m ∧ (∀ j, j < m → l0 * 2 ^ j < 63) ∧ clampPhases l0 = min 127 (l0 * 2 ^ m) := by
  obtain ⟨m, hge, hleast, heq⟩ := doublePhases_least 6 l0 (by omega)
  exact ⟨m, hge, hleast, congrArg (min 127) heq⟩

/-- From 63 on nothing is doubled, and only the cap is left. -/
theorem clampPhases_of_ge {l0 : Nat} (h : 63 ≤ l0) : clampPhases l0 = min 127 l0 := by
  obtain ⟨m, -, hleast, heq⟩ := clampPhases_least (l0 := l0) (by omega)
  obtain rfl : m = 0 := by
    by_contra hm
    have := hleast 0 (by omega)
    omega
  simpa using heq

/-- Settles O23: the least doubling gives the first clause and the third, the range of the clamp is known, and from 63 on only
the cap acts. -/
theorem phaseCountIsClamped : Obligations.PhaseCountIsClamped := by
  intro l0 h
  obtain ⟨m, hge, hleast, heq⟩ := clampPhases_least h
  refine ⟨⟨m, hge, hleast, heq⟩, clampPhases_ge h, clampPhases_le l0, ?_, ?_, ?_, ?_⟩
  · rcases min_choice 127 (l0 * 2 ^ m) with hcap | hkept
    · exact .inl (heq.trans hcap)
    · exact .inr ⟨m, heq.trans hkept⟩
  · rintro rfl
    decide
  · intro h63 h127
    rw [clampPhases_of_ge h63, min_eq_right h127]
  · intro h128
    rw [clampPhases_of_ge (by omega), min_eq_left (by omega)]

/-! ### The derived constants (R156, R159, R160) -/

/-- The first case of lscale is a ratio below 2:1. -/
theorem lscale_eq {o : Nat} (ho : 0 < o) (l i : Nat) :
    lscale l o i = if i < 2 * o then l - 1 else l * i / o := by
  unfold lscale
  simp only [Nat.div_lt_iff_lt_mul ho]

/-- lscale is positive for the phase counts of rule R158. -/
theorem lscale_pos {l o : Nat} (ho : 0 < o) (hl : 63 ≤ l) (i : Nat) : 0 < lscale l o i := by
  rw [lscale_eq ho]
  split
  · omega
  · exact Nat.div_pos (by nlinarith) ho

/-- A positive number lies between the powers of two on both sides of its bit length. -/
theorem bitlen_bounds {v : Nat} (hv : 0 < v) : 2 ^ (bitlen v - 1) ≤ v ∧ v < 2 ^ bitlen v := by
  have hlt : v < 2 ^ bitlen v := (bitlen_le_iff v _).1 le_rfl
  have hb : bitlen v ≠ 0 := by
    intro h0
    rw [h0] at hlt
    omega
  refine ⟨?_, hlt⟩
  by_contra hc
  have := (bitlen_le_iff v (bitlen v - 1)).2 (by omega)
  omega

/-- A rate is rejected exactly where lscale does not fit 30 bits (R159). -/
theorem deriveConstants_eq_none_iff (t : Tier) (o i : Nat) :
    deriveConstants t o i = none ↔ 2 ^ 30 ≤ lscale (clampPhases (basePhases o i)) o i := by
  rw [← not_lt, ← bitlen_le_iff, not_le]
  unfold deriveConstants Config.phaseBits
  dsimp only
  split
  · next hbits => simp [hbits]
  · next hbits => simp [hbits]

/-- Settles O24: a rejection and a success of the derivation, with the shift read through the bit length of lscale. -/
theorem constantsFollowTheTierTable : Obligations.ConstantsFollowTheTierTable := by
  intro t o i ho hi l scaled h atten
  have hscaled : scaled = lscale l o i := (lscale_eq ho l i).symm
  rw [hscaled]
  refine ⟨deriveConstants_eq_none_iff t o i, fun k hk => ?_⟩
  obtain ⟨hl, hbits, hshift, hh, hatten⟩ := deriveConstants_some hk
  have hkl : k.l = l := hl
  rw [hkl] at hbits hshift
  have hsize : 30 - k.shift = bitlen (lscale l o i) := by omega
  have hpos : 0 < lscale l o i := lscale_pos ho (clampPhases_ge (basePhases_pos ho i)) i
  rw [hsize]
  refine ⟨hkl, ?_, ?_, by omega, bitlen_bounds hpos⟩
  · rw [hh]
    cases t <;> simp [h, tierH]
  · rw [hatten]
    cases t <;> rfl

/-- Settles O25, by the two cases of lscale. -/
theorem freshConstantsBoundTheIncrement : Obligations.FreshConstantsBoundTheIncrement :=
  fun _ _ _ _ ho _ hk => deriveConstants_wrap_add_inc hk ho

/-! ### The decision to re-design (R165, R166) -/

/-- The distance of two naturals is the absolute value of their difference on integers. -/
theorem absDiff_cast (a b : Nat) : (absDiff a b : Int) = |(a : Int) - b| := by
  unfold absDiff
  rcases le_total a b with h | h
  · rw [abs_of_nonpos (by omega)]; omega
  · rw [abs_of_nonneg (by omega)]; omega

/-- CLOSE_TEST gives far exactly where rule R165 says it on integers. -/
theorem isFar_iff (s : State) (rate : Nat) :
    isFar s.params s.regs.filterRate.toNat rate s.regs.inRate.toNat = true ↔ Claims.farFrom s rate := by
  unfold isFar Claims.farFrom
  rw [← absDiff_cast, ← absDiff_cast]
  norm_cast
  simp

/-- Settles O22: the three cases of the test, one by one. -/
theorem redesignDecision : Obligations.RedesignDecision := by
  intro s rate
  simp only [redesign, Claims.mustRedesign, Bool.or_eq_true, Bool.not_eq_true', decide_eq_true_eq, isFar_iff, Int.toNat_natCast,
    or_assoc]

end Sys2Proof.Machine
end

section
/-! PROOFS. The ring buffer (41_ring_buffer.md): what a resize leaves, and how the window of the dot product moves, by one
consumed frame and by all those of a RESAMPLE whose input is held. -/

namespace Sys2Proof.Machine

/-! ### Frames and elements (R47) -/

/-- The frame of an element of HIST. -/
theorem frameElem_div {n c : Nat} (hc : c < n) (f : Nat) : (f * n + c) / n = f := by
  rw [Nat.add_comm, Nat.add_mul_div_right _ _ (Nat.zero_lt_of_lt hc), Nat.div_eq_of_lt hc, Nat.zero_add]

/-- The channel of an element of HIST. -/
theorem frameElem_mod {n c : Nat} (hc : c < n) (f : Nat) : (f * n + c) % n = c := by
  rw [Nat.mul_add_mod_self_right, Nat.mod_eq_of_lt hc]

/-- An element lies before frame g exactly where its frame does. -/
theorem frameElem_lt_iff {n c : Nat} (hc : c < n) (f g : Nat) : f * n + c < g * n ↔ f < g := by
  rw [← Nat.div_lt_iff_lt_mul (Nat.zero_lt_of_lt hc), frameElem_div hc]

/-! ### RB_RESIZE -/

/-- A resize to the size in use is the identity (R203). -/
theorem rbResize_same {s : State} {hn : Nat}
    (h : s.regs.histValid = true ∧ s.regs.histFrames.toNat = ringFrames s.params hn) : rbResize hn s = s :=
  if_pos h

/-- A resize to a new size writes HIST and the four ring registers, and nothing else (R202). -/
theorem rbResize_new {s : State} {hn : Nat}
    (h : ¬(s.regs.histValid = true ∧ s.regs.histFrames.toNat = ringFrames s.params hn)) :
    rbResize hn s = { s with
      hist := (rbResize hn s).hist
      regs := { s.regs with
        histFrames := BitVec.ofNat 16 (ringFrames s.params hn), impulse := BitVec.ofNat 16 hn
        ringFull := BitVec.ofNat 16 (ringFrames s.params hn - hn), histValid := true } } := by
  unfold rbResize
  dsimp only
  rw [if_neg h]

/-- Channel c of frame f of the resized buffer, in terms of the elements of HIST (R205). -/
theorem resizedElem_frame {s : State} {c : Nat} (hc : c < s.channels) (hn f : Nat) :
    resizedElem s hn (f * s.channels + c) =
      if s.regs.histValid = true ∧ f < 2 * hn ∧ hn ≤ s.regs.impulse.toNat + f ∧
          s.regs.impulse.toNat + f - hn < s.regs.histFrames.toNat then
        s.hist.read ((s.regs.impulse.toNat + f - hn) * s.channels + c)
      else 0 := by
  unfold resizedElem
  rw [frameElem_div hc, frameElem_mod hc]
  dsimp only
  split
  · next hold => exact if_pos hold.1
  · rfl

/-- Settles O28: the size asked for is the one in use. -/
theorem resizeToSameSizeChangesNothing : Obligations.ResizeToSameSizeChangesNothing :=
  fun _ _ hvalid hframes => rbResize_same ⟨hvalid, hframes⟩

/-- Settles O29: the ring registers fit their 16 bits, and the fill of HIST is read frame by frame. -/
theorem resizeKeepsTheWindow : Obligations.ResizeKeepsTheWindow := by
  intro s hn hw _ _ h32 _ hmult hne fn t
  have hfn : fn < 2 ^ 16 := by
    have : fn ≤ 1023 * 2 * 32 := Nat.mul_le_mul (Nat.mul_le_mul_right 2 hmult) h32
    omega
  have ht : t = _ := rbResize_new hne
  have hread : ∀ e, t.hist.read e = if e < fn * s.channels then resizedElem s hn e else s.hist.read e :=
    rbResize_read hw hne
  refine ⟨?_, ?_, ?_, ?_, fun f c hf hc => ?_, fun e he => ?_, ?_⟩
  · rw [ht]
    exact Nat.mod_eq_of_lt hfn
  · rw [ht]
    exact Nat.mod_eq_of_lt (by omega)
  · rw [ht]
    exact Nat.mod_eq_of_lt (lt_of_le_of_lt (Nat.sub_le _ _) hfn)
  · rw [ht]
  · exact (hread _).trans ((if_pos ((frameElem_lt_iff hc f fn).2 hf)).trans (resizedElem_frame hc hn f))
  · exact (hread e).trans (if_neg (Nat.not_lt.2 he))
  · rw [ht]

/-! ### The window of the dot product (R201) -/

/-- Channel c of frame m of the window, the oldest frame being 0 and the newest 2H − 1 (R201). -/
def State.windowAt (s : State) (m c : Nat) : Sample :=
  s.hist.read ((s.regs.impulse.toNat - s.regs.h.toNat + 1 + m) * s.channels + c)

/-- The ring is in range: a buffer exists, the window lies inside it and a compaction has the room it needs (R210). -/
structure State.RingInRange (s : State) : Prop where
  wf : s.hist.wf = true
  valid : s.regs.histValid = true
  h_pos : 0 < s.regs.h.toNat
  full : 2 * s.regs.h.toNat ≤ s.regs.ringFull.toNat
  low : s.regs.h.toNat ≤ s.regs.impulse.toNat
  high : s.regs.impulse.toNat < s.regs.ringFull.toNat

/-- RB_READ_AGAIN, frame by frame: frame IMPULSE + H is staged, every other stays (R207). -/
theorem readAgain_frame {s : State} (hr : s.races = []) (hw : s.hist.wf = true) {c : Nat} (hc : c < s.channels)
    (f : Nat) :
    (readAgain s).hist.read (f * s.channels + c) =
      if f = s.regs.impulse.toNat + s.regs.h.toNat then s.inp.read (s.inpIndex c)
      else s.hist.read (f * s.channels + c) := by
  rw [readAgain_read hr hw]
  dsimp only
  by_cases hf : f = s.regs.impulse.toNat + s.regs.h.toNat
  · rw [← hf, if_pos ⟨by omega, by omega⟩, if_pos rfl, Nat.add_sub_cancel_left]
  · rw [if_neg hf, if_neg]
    rintro ⟨hge, hlt⟩
    rw [← Nat.succ_mul, frameElem_lt_iff hc] at hlt
    rw [← Nat.not_lt, frameElem_lt_iff hc] at hge
    omega

/-- RB_READ_AGAIN replaces the newest frame of the window by the frame of INP at INPUT_INDEX (R207). -/
theorem readAgain_windowAt {s : State} (hr : s.races = []) (hw : s.hist.wf = true)
    (hlow : s.regs.h.toNat ≤ s.regs.impulse.toNat) {m c : Nat} (hm : m < 2 * s.regs.h.toNat) (hc : c < s.channels) :
    (readAgain s).windowAt m c =
      if m + 1 < 2 * s.regs.h.toNat then s.windowAt m c else s.inp.read (s.inpIndex c) := by
  have hregs : (readAgain s).regs = s.regs := by simp
  unfold State.windowAt
  rw [show (readAgain s).channels = s.channels from congrArg (·.c.toNat) hregs, hregs, readAgain_frame hr hw hc]
  by_cases hnew : m + 1 < 2 * s.regs.h.toNat
  · rw [if_pos hnew, if_neg (by omega)]
  · rw [if_neg hnew, if_pos (by omega)]

/-- The compaction, frame by frame: the trailing 2H frames stand at the start of the buffer (R208, R209). -/
theorem compact_frame {s : State} (hw : s.hist.wf = true) (hv : s.regs.histValid = true) {c : Nat}
    (hc : c < s.channels) {f : Nat} (hf : f < 2 * s.regs.h.toNat) :
    (compact s).hist.read (f * s.channels + c) =
      s.hist.read ((s.regs.ringFull.toNat - s.regs.h.toNat + f) * s.channels + c) := by
  rw [compact_read hw, if_pos ((frameElem_lt_iff hc f _).2 hf), State.histAt, if_pos hv, Nat.add_mul, Nat.add_assoc]

/-- A word below another of its width can be counted up. -/
theorem succ_toNat {w : Nat} {a b : BitVec w} (h : a.toNat < b.toNat) : (a + 1).toNat = a.toNat + 1 := by
  have hb := b.isLt
  simp [BitVec.toNat_add, Nat.mod_eq_of_lt (show a.toNat + 1 < 2 ^ w by omega)]

namespace State.RingInRange

variable {s : State}

/-- IMPULSE + 1 stays in the ring, compacted or not (R208, R210). -/
theorem advanceImpulse_range (h : s.RingInRange) :
    s.regs.h.toNat ≤ (advanceImpulse s).regs.impulse.toNat ∧
      (advanceImpulse s).regs.impulse.toNat < s.regs.ringFull.toNat :=
  advanceImpulse_ring h.low h.high h.full h.h_pos

theorem advanceImpulse_wf (h : s.RingInRange) : (advanceImpulse s).hist.wf = true :=
  advanceImpulse_hist_induct (Mem.wf · = true) s (fun _ i v _ hm => Mem.wf_write hm i v) h.wf

/-- What counting IMPULSE up does: it stays in the ring, or it reaches RING_FULL and the compaction rebases it to H
(R208, R209). -/
theorem advanceImpulse_cases (h : s.RingInRange) :
    ((advanceImpulse s).regs.impulse.toNat = s.regs.impulse.toNat + 1 ∧ (advanceImpulse s).hist = s.hist) ∨
      (s.regs.impulse.toNat + 1 = s.regs.ringFull.toNat ∧ (advanceImpulse s).regs.impulse.toNat = s.regs.h.toNat ∧
        (advanceImpulse s).hist = (compact s).hist) := by
  obtain ⟨-, -, -, hfull, -, hhigh⟩ := h
  have hnext := succ_toNat hhigh
  have hfits := s.regs.ringFull.isLt
  unfold advanceImpulse
  dsimp only
  split
  · have hrebase : s.regs.impulse.toNat + 1 - (s.regs.ringFull.toNat - s.regs.h.toNat) = s.regs.h.toNat := by omega
    refine .inr ⟨by omega, ?_, rfl⟩
    simp only [compact, BitVec.toNat_ofNat, hnext, hrebase]
    exact Nat.mod_eq_of_lt (by omega)
  · exact .inl ⟨hnext, rfl⟩

/-- The next impulse makes each frame of the window but the oldest one frame older, compacted or not (R208, R209). -/
theorem advanceImpulse_windowAt (h : s.RingInRange) {m c : Nat} (hm : m + 1 < 2 * s.regs.h.toNat)
    (hc : c < s.channels) : (advanceImpulse s).windowAt m c = s.windowAt (m + 1) c := by
  have hlow := h.low
  unfold State.windowAt State.channels
  rw [advanceImpulse_regs]
  dsimp only
  obtain ⟨himp, hhist⟩ | ⟨hfull, himp, hhist⟩ := h.advanceImpulse_cases <;> rw [himp, hhist]
  · congr 3
    omega
  · refine (compact_frame h.wf h.valid hc (by omega)).trans ?_
    unfold State.channels
    congr 3
    omega

/-- RB_READ_ADVANCE moves the window by one frame: the oldest leaves it, the frame of INP at INPUT_INDEX is the newest (R207
to R209). -/
theorem readAdvance_windowAt (h : s.RingInRange) (hr : s.races = []) {m c : Nat} (hm : m < 2 * s.regs.h.toNat)
    (hc : c < s.channels) :
    (readAdvance s).windowAt m c =
      if m + 1 < 2 * s.regs.h.toNat then s.windowAt (m + 1) c else s.inp.read (s.inpIndex c) := by
  have hh : (advanceImpulse s).regs.h = s.regs.h := by rw [advanceImpulse_regs]
  have hch : (advanceImpulse s).channels = s.channels := by unfold State.channels; rw [advanceImpulse_regs]
  obtain ⟨hlow, -⟩ := h.advanceImpulse_range
  unfold readAdvance
  rw [readAgain_windowAt (by simpa using hr) h.advanceImpulse_wf (by rwa [hh]) (by rwa [hh]) (by rwa [hch]), hh,
    advanceImpulse_inpIndex, (advanceImpulse_keeps s).2.1]
  split
  · next hold => exact h.advanceImpulse_windowAt hold hc
  · rfl

end State.RingInRange

/-- With no moves of other agents RB_READ_ADVANCE changes HIST and IMPULSE only (R208). -/
theorem readAdvance_eq_raceFree {s : State} (h : s.races = []) :
    readAdvance s = { s with
      hist := (readAdvance s).hist, regs := { s.regs with impulse := (readAdvance s).regs.impulse } } := by
  have hfree := readAdvance_raceFree h
  have hkeeps := readAdvance_keeps s
  have hregs := readAdvance_regs s
  generalize (readAdvance s).regs.impulse = imp at hregs ⊢
  cases hx : readAdvance s
  rw [hx] at hfree hkeeps hregs
  simp_all

/-- Settles O30: the window after RB_READ_ADVANCE, its last frame being the one at IMPULSE + H. -/
theorem readAdvanceShiftsTheWindow : Obligations.ReadAdvanceShiftsTheWindow := by
  intro s hlegal hw hr hv _ hpos h32 hframes hfull hlow hhigh t
  have hroom : 4 * s.regs.h.toNat ≤ ringFrames s.params s.regs.h.toNat := (ringFrames_range hlegal h32).1
  have hring : s.RingInRange := ⟨hw, hv, hpos, by unfold ringFrames at hroom; omega, hlow, hhigh⟩
  have hregs : t.regs = { s.regs with impulse := t.regs.impulse } := readAdvance_regs s
  have hh : t.regs.h = s.regs.h := by rw [hregs]
  have hch : t.regs.c = s.regs.c := by rw [hregs]
  have hrf : t.regs.ringFull = s.regs.ringFull := by rw [hregs]
  have hrange : s.regs.h.toNat ≤ t.regs.impulse.toNat ∧ t.regs.impulse.toNat < s.regs.ringFull.toNat := by
    simpa [t] using hring.advanceImpulse_range
  have hwindow : ∀ m c, m < 2 * s.regs.h.toNat → c < s.channels →
      t.hist.read ((t.regs.impulse.toNat - s.regs.h.toNat + 1 + m) * s.channels + c) =
        if m + 1 < 2 * s.regs.h.toNat then s.windowAt (m + 1) c else s.inp.read (s.inpIndex c) := by
    intro m c hm hc
    have hread := hring.readAdvance_windowAt hr hm hc
    unfold State.windowAt State.channels at hread
    rwa [hh, hch] at hread
  refine ⟨hh ▸ hrange.1, hrf ▸ hrange.2, fun m c hm hc => ?_, fun c hc => ?_, readAdvance_eq_raceFree hr⟩
  · have hread := hwindow m c (by omega) hc
    rw [if_pos hm] at hread
    unfold Claims.histSample
    rw [hch]
    exact congrArg BitVec.toInt hread
  · have hread := hwindow (2 * s.regs.h.toNat - 1) c (by omega) hc
    rw [if_neg (by omega), show t.regs.impulse.toNat - s.regs.h.toNat + 1 + (2 * s.regs.h.toNat - 1) =
      t.regs.impulse.toNat + s.regs.h.toNat by omega] at hread
    exact hread

/-! ### The input a RESAMPLE still has to consume (R302, R310) -/

/-- The input frames still to be consumed with `left` output frames to produce (R310). -/
def Regs.stillOwed (r : Regs) : Nat → Nat
  | 0 => 0
  | m + 1 => Claims.owedBefore r m

/-- A consumed frame is one frame less to be consumed, before every output frame to come (R302). -/
theorem consumeFrame_owedBefore {s : State} (hp : 0 < s.regs.pending.toNat) (m : Nat) :
    Claims.owedBefore (consumeFrame s).regs m + 1 = Claims.owedBefore s.regs m := by
  have hpend : (s.regs.pending - 1).toNat = s.regs.pending.toNat - 1 := pred_toNat (by omega)
  have hphase : (consumeFrame s).regs.phase = s.regs.phase ∧ (consumeFrame s).regs.inc = s.regs.inc ∧
      (consumeFrame s).regs.wrap = s.regs.wrap := by
    rw [consumeFrame_regs]
    dsimp only
    split <;> exact ⟨rfl, rfl, rfl⟩
  obtain ⟨hph, hinc, hwrap⟩ := hphase
  unfold Claims.owedBefore
  rw [consumeFrame_pending, hph, hinc, hwrap, hpend]
  omega

/-- The phase step moves the input owed before frame m + 1 of a RESAMPLE to frame m of the rest of it (R260, R310). -/
theorem Regs.Inv.phaseStep_owedBefore {p : Params} {r : Regs} (h : r.Inv p) (hv : r.constValid = true)
    (hp : r.pending = 0) (m : Nat) : Claims.owedBefore r.phaseStep m = Claims.owedBefore r (m + 1) := by
  obtain ⟨hphase, hpend⟩ := h.phaseStep_values hv hp
  have hw : 0 < r.wrap := by have := h.wrap_ge hv; omega
  have hsum : r.phase.toNat + (m + 1) * r.inc.toNat =
      (r.phase.toNat + r.inc.toNat) % r.wrap + m * r.inc.toNat + r.wrap * ((r.phase.toNat + r.inc.toNat) / r.wrap) := by
    have := Nat.mod_add_div (r.phase.toNat + r.inc.toNat) r.wrap
    rw [Nat.succ_mul]
    omega
  unfold Claims.owedBefore
  rw [hphase, hpend, hp, hsum, Nat.add_mul_div_left _ _ hw, show r.phaseStep.wrap = r.wrap from rfl,
    show r.phaseStep.inc = r.inc from rfl, show (0 : Word).toNat = 0 from rfl]
  omega

/-- Producing a frame consumes no input (R300). -/
theorem Regs.Inv.phaseStep_stillOwed {p : Params} {r : Regs} (h : r.Inv p) (hv : r.constValid = true)
    (hp : r.pending = 0) (m : Nat) : r.phaseStep.stillOwed m = r.stillOwed (m + 1) := by
  cases m with
  | zero =>
    have hph := (h.phase hv).1
    simp [Regs.stillOwed, Claims.owedBefore, hp, Nat.div_eq_of_lt hph]
  | succ m => exact h.phaseStep_owedBefore hv hp m

/-! ### The held block (R41, R303) -/

/-- A consumed frame leaves one frame less in the held block. -/
theorem consumeFrame_heldInput {p : Params} {s : State} (h : s.regs.Inv p) (hh : s.regs.held = true) :
    Claims.heldInput (consumeFrame s).regs + 1 = Claims.heldInput s.regs := by
  obtain ⟨hlt, -⟩ := h.heldBlock hh
  have hnext := succ_toNat hlt
  rw [consumeFrame_regs]
  unfold Claims.heldInput
  dsimp only
  split
  · next hlast =>
    rw [← hlast, hnext]
    simp [Regs.dropHeld]
  · simp only [hnext]
    omega

/-- While the block is still held after a consumed frame, INPUT_INDEX is one up and HELD_BASE stays (R302). -/
theorem consumeFrame_block {p : Params} {s : State} (h : s.regs.Inv p) (hh : s.regs.held = true)
    (hstill : (consumeFrame s).regs.held = true) :
    (consumeFrame s).regs.heldBase = s.regs.heldBase ∧
      (consumeFrame s).regs.inputIndex.toNat = s.regs.inputIndex.toNat + 1 := by
  have hnext := succ_toNat (h.heldBlock hh).1
  rw [consumeFrame_regs] at hstill ⊢
  dsimp only at hstill ⊢
  split at hstill
  · cases hstill
  · next hmore =>
    rw [if_neg hmore]
    exact ⟨rfl, hnext⟩

/-! ### The window over a RESAMPLE whose input is held -/

/-- Element (m, c) of the window after `j` more input frames from the held block: of the frames of the window and these, in
order, the last 2H (R201, R207). -/
def State.windowAfter (s : State) (j m c : Nat) : Sample :=
  if m + j < 2 * s.regs.h.toNat then s.windowAt (m + j) c
  else s.inp.read (s.regs.heldBase.toNat +
    (s.regs.inputIndex.toNat + (m + j - 2 * s.regs.h.toNat)) * s.channels + c)

/-- Where a RESAMPLE stands that started at `s` and has consumed `j` frames of the block it held there. -/
structure Consumed (s : State) (j : Nat) (u : State) : Prop where
  races : u.races = []
  inp : u.inp = s.inp
  ring : u.regs.h = s.regs.h ∧ u.regs.c = s.regs.c ∧ u.regs.ringFull = s.regs.ringFull
  left : Claims.heldInput u.regs + j = Claims.heldInput s.regs
  block : u.regs.held = true →
    u.regs.heldBase = s.regs.heldBase ∧ u.regs.inputIndex.toNat = s.regs.inputIndex.toNat + j
  window : ∀ m c, m < 2 * s.regs.h.toNat → c < s.channels → u.windowAt m c = s.windowAfter j m c

/-- The ring registers that a consumed frame leaves alone (R302). -/
theorem consumeFrame_ringRegs (s : State) :
    (consumeFrame s).regs.h = s.regs.h ∧ (consumeFrame s).regs.c = s.regs.c ∧
      (consumeFrame s).regs.ringFull = s.regs.ringFull := by
  rw [consumeFrame_regs]
  dsimp only
  split <;> exact ⟨rfl, rfl, rfl⟩

/-- Of a consumed frame RB_READ_ADVANCE is what moves the window (R302). -/
theorem consumeFrame_windowAt (s : State) (m c : Nat) :
    (consumeFrame s).windowAt m c = (readAdvance s).windowAt m c := by
  unfold consumeFrame
  dsimp only
  split <;> rfl

/-- A RESAMPLE that runs has its ring in range (R210). -/
theorem State.Runs.ringInRange {p : Params} {s : State} (h : s.Runs p) : s.RingInRange := by
  obtain ⟨hframes, hfull, hlow, hhigh⟩ := h.inv.regs.ring h.histValid
  have hH := h.inv.regs.h_range h.valid
  have hroom := (ringFrames_range h.inv.params hH.2).1
  exact ⟨h.inv.mems.hist.1, h.histValid, by omega, by omega, hlow, hhigh⟩

namespace Consumed

variable {s u : State} {j : Nat}

/-- At its start a RESAMPLE has consumed nothing. -/
theorem start (hr : s.races = []) : Consumed s 0 s where
  races := hr
  inp := rfl
  ring := ⟨rfl, rfl, rfl⟩
  left := rfl
  block _ := ⟨rfl, rfl⟩
  window _ _ hm _ := (if_pos hm).symm

/-- One more frame of the held block consumed (R302). -/
theorem consumeFrame {p : Params} (h : Consumed s j u) (hu : u.Runs p) (hh : u.regs.held = true) :
    Consumed s (j + 1) (consumeFrame u) := by
  obtain ⟨hraces, hinp, -, -⟩ := consumeFrame_raceFree h.races
  obtain ⟨hH, hC, hF⟩ := h.ring
  obtain ⟨hbase, hindex⟩ := h.block hh
  obtain ⟨hH', hC', hF'⟩ := consumeFrame_ringRegs u
  refine ⟨hraces, hinp.trans h.inp, ⟨hH'.trans hH, hC'.trans hC, hF'.trans hF⟩, ?_, fun hstill => ?_,
    fun m c hm hc => ?_⟩
  · have := consumeFrame_heldInput hu.inv.regs hh
    have := h.left
    omega
  · obtain ⟨hb, hi⟩ := consumeFrame_block hu.inv.regs hh hstill
    exact ⟨hb.trans hbase, by omega⟩
  · have hch : u.channels = s.channels := congrArg BitVec.toNat hC
    rw [consumeFrame_windowAt, hu.ringInRange.readAdvance_windowAt h.races (by rwa [hH]) (by rwa [hch]), hH]
    unfold State.windowAfter
    split
    · next hkept =>
      rw [h.window (m + 1) c hkept hc, State.windowAfter, Nat.add_right_comm, Nat.add_assoc]
    · next hnewest =>
      rw [if_neg (by omega), h.inp, State.inpIndex, hbase, hindex, hch,
        show m + (j + 1) - 2 * s.regs.h.toNat = j by omega]

/-- Producing a frame consumes nothing (R230). -/
theorem produced (h : Consumed s j u) (f : Nat) : Consumed s j (produced f u) := by
  rw [produced_eq_raceFree h.races]
  exact ⟨h.races, h.inp, h.ring, h.left, h.block, h.window⟩

/-- The loop of a RESAMPLE whose input is held never asks the provider: in each round, the frames consumed and those still
owed are those of rule R310. -/
theorem loopRule {p : Params} {n base used : Nat} (hb : base + n ≤ p.outFrames)
    (hused : used ≤ Claims.heldInput s.regs) :
    LoopRule n base
      (fun k u => u.Runs p ∧ u.waiting = none ∧ ∃ j, Consumed s j u ∧ j + u.regs.stillOwed (n - k) = used)
      (fun _ _ => False)
      (fun t => ∃ u, t = finishResample n n u ∧ u.Runs p ∧ Consumed s used u) where
  request k u hk hP hh hp := by
    obtain ⟨-, -, j, hj, howed⟩ := hP
    have hleft := hj.left
    obtain ⟨m, hm⟩ : ∃ m, n - k = m + 1 := ⟨n - k - 1, by omega⟩
    have hpending : u.regs.pending.toNat ≤ u.regs.stillOwed (n - k) := hm ▸ Nat.le_add_right _ _
    have hnone : Claims.heldInput u.regs = 0 := if_neg (by simp [hh])
    omega
  wait _ _ _ hA := hA.elim
  short _ _ _ _ _ hA := hA.elim
  bad _ _ _ _ _ _ hA := hA.elim
  hold _ _ _ _ _ _ hA := hA.elim
  consume k u hk hP hh hp := by
    obtain ⟨hu, hw, j, hj, howed⟩ := hP
    obtain ⟨m, hm⟩ : ∃ m, n - k = m + 1 := ⟨n - k - 1, by omega⟩
    rw [hm] at howed ⊢
    have hless := consumeFrame_owedBefore hp m
    refine ⟨hu.consumeFrame hw hh hp, by simpa using hw, j + 1, hj.consumeFrame hu hh, ?_⟩
    simp only [Regs.stillOwed] at howed ⊢
    omega
  produce k u hk hP hp := by
    obtain ⟨hu, hw, j, hj, howed⟩ := hP
    have hf : base + k < u.params.outFrames := by rw [hu.params]; omega
    refine ⟨hu.produced hw hp hf, by simpa [Machine.produced] using hw, j, hj.produced _, ?_⟩
    rw [show n - k = n - (k + 1) + 1 by omega] at howed
    rw [← howed]
    exact congrArg (j + ·) (hu.inv.regs.phaseStep_stillOwed hu.valid hp _)
  done u hP := by
    obtain ⟨hu, -, j, hj, howed⟩ := hP
    rw [Nat.sub_self] at howed
    obtain rfl : j = used := howed
    exact ⟨u, rfl, hu, hj⟩

end Consumed

/-- Settles O41: round by round the window is the last 2H frames of old window and consumed input, and the number of frames
consumed at the end is that of rule R310. -/
theorem heldInputEntersTheWindowInOrder : Obligations.HeldInputEntersTheWindowInOrder := by
  intro s n base hinv hr hcan hn r used hused
  have ⟨hw, hready, _, hrange⟩ := hcan
  obtain ⟨m, rfl⟩ : ∃ m, n = m + 1 := ⟨n - 1, by omega⟩
  obtain ⟨u, hend, hu, hdone⟩ := (Consumed.loopRule hrange hused).body (s := s)
    ⟨⟨hinv, hready, rfl⟩, hw, 0, Consumed.start hr, Nat.zero_add _⟩
  obtain ⟨hH, hC, hF⟩ := hdone.ring
  obtain ⟨-, -, -, -, hlow, hhigh⟩ := hu.ringInRange
  rw [hH] at hlow
  rw [hF] at hhigh
  refine ⟨_, exec_resample_eq_loop hcan, ?_⟩
  rw [hend]
  refine ⟨hlow, hhigh, fun i c hi hc => ?_⟩
  have hread := hdone.window i c hi hc
  unfold State.windowAt State.channels at hread
  rw [hH, hC] at hread
  exact hread

end Sys2Proof.Machine
end

section
/-! PROOFS. The convolution (42_convolution.md): which rows of the bank a dot product reads, the tap between two rows, the
size of the accumulator, the phase, and the output frame of a RESAMPLE. That STRIDE has no effect is shown by carrying
another STRIDE through every operation of the block. -/

namespace Sys2Proof.Machine

/-! ### The rows of the bank (R236, R239) -/

theorem Regs.indexP_eq (r : Regs) : r.indexP = r.phase.toNat / 2 ^ r.shift.toNat := Nat.shiftRight_eq_div_pow _ _

theorem Regs.indexNLocked_eq (r : Regs) : r.indexNLocked = (r.wrap - r.phase.toNat) / 2 ^ r.shift.toNat :=
  Nat.shiftRight_eq_div_pow _ _

theorem Regs.indexNInterp_eq (r : Regs) : r.indexNInterp = (r.wrap - r.phase.toNat - 1) / 2 ^ r.shift.toNat :=
  Nat.shiftRight_eq_div_pow _ _

/-- A phase below WRAP lies in one of the L phase rows. -/
theorem Regs.indexP_lt {r : Regs} (h : r.phase.toNat < r.wrap) : r.indexP < r.l.toNat := by
  rw [r.indexP_eq, Nat.div_lt_iff_lt_mul (by positivity), ← r.wrap_eq]
  exact h

/-- The interpolated row of the negative side mirrors that of the positive side (R236). -/
theorem Regs.indexNInterp_mirror {r : Regs} (h : r.phase.toNat < r.wrap) :
    r.indexNInterp = r.l.toNat - 1 - r.indexP := by
  rw [r.wrap_eq, Nat.mul_comm] at h
  rw [r.indexNInterp_eq, r.indexP_eq, Nat.sub_sub, r.wrap_eq, Nat.mul_comm, Nat.mul_sub_div _ _ _ h, Nat.sub_sub,
    Nat.add_comm]

/-- With no phase fraction the locked row is the mirror's upper neighbour (R236, R238). -/
theorem Regs.indexNLocked_noFraction {r : Regs} (h : r.phase.toNat < r.wrap)
    (hf : r.phase.toNat % 2 ^ r.shift.toNat = 0) : r.indexNLocked = r.indexNInterp + 1 := by
  have hP := Regs.indexP_lt h
  have hphase : r.phase.toNat = r.indexP * 2 ^ r.shift.toNat := by
    rw [r.indexP_eq, Nat.div_mul_cancel (Nat.dvd_of_mod_eq_zero hf)]
  rw [r.indexNLocked_eq, Regs.indexNInterp_mirror h, r.wrap_eq, hphase, ← Nat.sub_mul,
    Nat.mul_div_cancel _ (by positivity)]
  omega

theorem Regs.indexNLocked_le (r : Regs) : r.indexNLocked ≤ r.l.toNat := by
  rw [r.indexNLocked_eq, r.wrap_eq]
  exact Nat.div_le_of_le_mul (Nat.mul_comm _ _ ▸ Nat.sub_le _ _)

/-- The scaled phase fraction is a fraction (R239). -/
theorem lerpOf_lt (q shift phase : Nat) : lerpOf q shift phase < 2 ^ q := by
  unfold lerpOf
  rw [Nat.div_lt_iff_lt_mul (by positivity), Nat.mul_comm]
  exact Nat.mul_lt_mul_of_pos_left (Nat.mod_lt _ (by positivity)) (by positivity)

theorem lerpOf_noFraction {shift phase : Nat} (h : phase % 2 ^ shift = 0) (q : Nat) : lerpOf q shift phase = 0 := by
  unfold lerpOf
  rw [h, Nat.zero_mul, Nat.zero_div]

/-- Settles O33: the positive row lies below L, and the negative rows are its mirror and the mirror's upper neighbour. -/
theorem rowsReadLieInTheBank : Obligations.RowsReadLieInTheBank := by
  intro r h
  have hP := Regs.indexP_lt h
  have hN := Regs.indexNInterp_mirror h
  refine ⟨hP, r.indexNLocked_le, fun hf => ?_, by omega, hN, lerpOf_lt _ _ _⟩
  rw [Regs.indexNLocked_noFraction h hf]
  omega

/-! ### The interpolated tap (R240) -/

@[simp] theorem interp_zero (q : Nat) (a b : Int) : interp q a b 0 = a := by simp [interp]

@[simp] theorem interp_self (q : Nat) (a : Int) (lerp : Nat) : interp q a a lerp = a := by simp [interp]

/-- A fraction of x, rounded down, lies between 0 and x. -/
theorem ediv_fraction_between {x l d : Int} (hl : 0 ≤ l) (hd : l < d) :
    min 0 x ≤ x * l / d ∧ x * l / d ≤ max 0 x := by
  have hpos : 0 < d := by omega
  rcases le_total 0 x with hx | hx
  · rw [min_eq_left hx, max_eq_right hx]
    exact ⟨Int.ediv_nonneg (mul_nonneg hx hl) hpos.le,
      Int.ediv_le_of_le_mul hpos (mul_le_mul_of_nonneg_left hd.le hx)⟩
  · rw [min_eq_right hx, max_eq_left hx]
    exact ⟨Int.le_ediv_of_mul_le hpos (mul_le_mul_of_nonpos_left hd.le hx),
      Int.ediv_le_of_le_mul hpos (by rw [zero_mul]; exact mul_nonpos_of_nonpos_of_nonneg hx hl)⟩

/-- The interpolated tap lies between its two taps. -/
theorem interp_between {q lerp : Nat} (a b : Int) (h : lerp < 2 ^ q) :
    min a b ≤ interp q a b lerp ∧ interp q a b lerp ≤ max a b := by
  obtain ⟨hlow, hhigh⟩ := ediv_fraction_between (x := b - a) (l := lerp) (d := 2 ^ q) (by positivity)
    (by exact_mod_cast h)
  unfold interp
  omega

/-- The quotient of rule R240 is the floor of the exact one (R9). -/
theorem interp_eq_floor (q lerp : Nat) (a b : Int) :
    interp q a b lerp = a + ⌊((b - a) * lerp : ℚ) / 2 ^ q⌋ := by
  have h := Rat.floor_intCast_div_natCast ((b - a) * lerp) (2 ^ q)
  push_cast at h
  rw [h, interp]

/-- Settles O32: the step from the one tap towards the other is a fraction of their distance, rounded down. -/
theorem interpolatedTapLiesBetween : Obligations.InterpolatedTapLiesBetween := by
  intro q lerp a b h
  obtain ⟨hlow, hhigh⟩ := interp_between a b h
  exact ⟨interp_eq_floor q lerp a b, hlow, hhigh, interp_zero q a b, interp_self q a lerp⟩

/-- Settles O31: with no phase fraction both interpolated taps are their first tap, on the rows of the locked path. -/
theorem lockedAndInterpolatedPathsAgree : Obligations.LockedAndInterpolatedPathsAgree := by
  intro s c h hf
  unfold firInterp firLocked
  simp only [lerpOf_noFraction hf, interp_zero, Regs.indexNLocked_noFraction h hf]

/-! ### The size of the accumulator (R242) -/

theorem sumTo_eq_sum (n : Nat) (f : Nat → Int) : sumTo n f = ∑ j ∈ Finset.range n, f j := by
  induction n with
  | zero => rfl
  | succ m ih => rw [sumTo, ih, Finset.sum_range_succ]

/-- A sum of n terms of bounded magnitude. -/
theorem abs_sumTo_le {n : Nat} {f : Nat → Int} {b : Int} (h : ∀ j < n, |f j| ≤ b) : |sumTo n f| ≤ n * b := by
  rw [sumTo_eq_sum]
  calc |∑ j ∈ Finset.range n, f j| ≤ ∑ j ∈ Finset.range n, |f j| := Finset.abs_sum_le_sum_abs _ _
    _ ≤ (Finset.range n).card • b := Finset.sum_le_card_nsmul _ _ _ fun j hj => h j (Finset.mem_range.1 hj)
    _ = n * b := by rw [Finset.card_range, nsmul_eq_mul]

/-- The magnitude of a signed word of w bits (R8). -/
theorem abs_toInt_le {w : Nat} (v : BitVec w) : |v.toInt| ≤ 2 ^ (w - 1) :=
  abs_le.2 ⟨BitVec.le_toInt v, BitVec.toInt_lt.le⟩

/-- The largest magnitude of a tap of the tier (R45, R240). -/
def Regs.tapBound (r : Regs) : Int := if r.tier = .high then 2 ^ 31 else 2 ^ 15

/-- A value that a 16-bit bank takes is a 16-bit number (R317). -/
theorem abs_toInt_le_of_isSext16 {v : Word} (h : isSext16 v = true) : |v.toInt| ≤ 2 ^ 15 := by
  have hv : v = (v.extractLsb' 0 16).signExtend 32 := by simpa [isSext16] using h
  rw [hv, BitVec.toInt_signExtend_of_le (by decide)]
  exact abs_toInt_le _

/-- In Ready the taps of every row up to L have the width of their tier (R45, R317). -/
theorem State.Inv.abs_coef_le {s : State} (h : s.Inv) (hr : s.regs.state = .ready) {i j : Nat} (hi : i ≤ s.regs.l.toNat)
    (hj : j < s.regs.h.toNat) : |s.coef i j| ≤ s.regs.tapBound := by
  unfold Regs.tapBound State.coef
  split
  · exact abs_toInt_le _
  · next hlow =>
    refine abs_toInt_le_of_isSext16 (h.banks.active (by simpa [Regs.coef32] using hlow) hr _ ?_)
    calc i * s.regs.h.toNat + j < (i + 1) * s.regs.h.toNat := by rw [Nat.succ_mul]; omega
      _ ≤ s.regs.bankSize := Nat.mul_le_mul_right _ (by omega)

/-- An interpolated tap is no larger than its two taps. -/
theorem abs_interp_le {q lerp : Nat} {a b m : Int} (h : lerp < 2 ^ q) (ha : |a| ≤ m) (hb : |b| ≤ m) :
    |interp q a b lerp| ≤ m := by
  obtain ⟨hlow, hhigh⟩ := interp_between a b h
  rw [abs_le] at ha hb ⊢
  exact ⟨(le_min ha.1 hb.1).trans hlow, hhigh.trans (max_le ha.2 hb.2)⟩

/-- 2H products of a tap and a 16-bit sample. -/
theorem abs_dotProduct_le {s : State} {cp cn : Nat → Int} {m : Int} (hp : ∀ j < s.regs.h.toNat, |cp j| ≤ m)
    (hn : ∀ j < s.regs.h.toNat, |cn j| ≤ m) (c : Nat) :
    |dotProduct s cp cn c| ≤ s.regs.h.toNat * (m * 2 ^ 15) + s.regs.h.toNat * (m * 2 ^ 15) := by
  have hprod : ∀ {t : Int} (f : Nat), |t| ≤ m → |t * s.sample f c| ≤ m * 2 ^ 15 := fun f ht => by
    rw [abs_mul]
    exact mul_le_mul ht (abs_toInt_le _) (abs_nonneg _) ((abs_nonneg _).trans ht)
  exact (abs_add_le _ _).trans (add_le_add (abs_sumTo_le fun j hj => hprod _ (hp j hj))
    (abs_sumTo_le fun j hj => hprod _ (hn j hj)))

/-- The accumulator of either path is a sum of 2H products of the tier's taps (R242). -/
theorem State.Inv.abs_accOf_le {s : State} (h : s.Inv) (hr : s.regs.state = .ready) (c : Nat) :
    |accOf s c| ≤ s.regs.h.toNat * (s.regs.tapBound * 2 ^ 15) + s.regs.h.toNat * (s.regs.tapBound * 2 ^ 15) := by
  have hphase := (h.regs.phase (h.regs.ready_valid hr).1).1
  have hP := Regs.indexP_lt hphase
  have hN := Regs.indexNInterp_mirror hphase
  have hlerp := lerpOf_lt s.regs.tapFraction s.regs.shift.toNat s.regs.phase.toNat
  unfold accOf
  split
  · exact abs_dotProduct_le (fun j hj => h.abs_coef_le hr hP.le hj)
      (fun j hj => h.abs_coef_le hr s.regs.indexNLocked_le hj) c
  · exact abs_dotProduct_le
      (fun j hj => abs_interp_le hlerp (h.abs_coef_le hr hP.le hj) (h.abs_coef_le hr hP hj))
      (fun j hj => abs_interp_le hlerp (h.abs_coef_le hr (by omega) hj) (h.abs_coef_le hr (by omega) hj)) c

/-- Settles O34: at most 64 products, each of a tap of the tier's width and a 16-bit sample. -/
theorem accumulatorNeverOverflows : Obligations.AccumulatorNeverOverflows := by
  intro s c h hr
  have hH : (s.regs.h.toNat : Int) ≤ 32 := by exact_mod_cast (h.regs.h_range (h.regs.ready_valid hr).1).2
  have hacc := h.abs_accOf_le hr c
  unfold Regs.tapBound at hacc
  by_cases ht : s.regs.tier = .high
  · rw [if_pos ht] at hacc ⊢
    omega
  · rw [if_neg ht] at hacc ⊢
    omega

/-! ### The phase (R260, R263) -/

/-- The numbers PHASE_STEP stores, where neither is cut to its register (R260, R261). -/
theorem phaseStep_toNat {r : Regs} (hw : 63 ≤ r.wrap) (hsum : r.phase.toNat + r.inc.toNat < 2 ^ 32)
    (hp : r.pending.toNat < 2 ^ 31) :
    r.phaseStep.phase.toNat = (r.phase.toNat + r.inc.toNat) % r.wrap ∧
      r.phaseStep.pending.toNat = r.pending.toNat + (r.phase.toNat + r.inc.toNat) / r.wrap := by
  have hmod := Nat.mod_le (r.phase.toNat + r.inc.toNat) r.wrap
  have hdiv : (r.phase.toNat + r.inc.toNat) / r.wrap ≤ (r.phase.toNat + r.inc.toNat) / 63 :=
    Nat.div_le_div_left hw (by decide)
  simp only [Regs.phaseStep, BitVec.toNat_ofNat]
  exact ⟨Nat.mod_eq_of_lt (by omega), Nat.mod_eq_of_lt (by omega)⟩

/-- Settles O35: quotient and remainder of the sum by WRAP, both stored whole. -/
theorem phaseStepConservesPosition : Obligations.PhaseStepConservesPosition := by
  intro r hw hphase hinc hp
  obtain ⟨hrem, hquot⟩ := phaseStep_toNat hw (by omega) hp
  refine ⟨?_, hquot ▸ Nat.le_add_right _ _, ?_, rfl⟩
  · rw [hrem]
    exact Nat.mod_lt _ (by omega)
  · rw [hrem, hquot, Nat.add_sub_cancel_left]
    exact Nat.div_add_mod _ _

/-- Settles O36: PHASE · WRAP / oldWrap lies below WRAP as PHASE lies below oldWrap, so it is stored whole. -/
theorem rescaledPhaseStaysInRange : Obligations.RescaledPhaseStaysInRange := by
  intro r oldWrap hfits hpos hphase
  rcases Nat.eq_zero_or_pos oldWrap with rfl | hold
  · exact ⟨hpos, fun _ => rfl, fun h => absurd h (lt_irrefl 0), rfl⟩
  · have hlt : r.phase.toNat * r.wrap / oldWrap < r.wrap := by
      rw [Nat.div_lt_iff_lt_mul hold, Nat.mul_comm]
      exact Nat.mul_lt_mul_of_pos_left (hphase hold) hpos
    have hstored : (r.phaseRescale oldWrap).phase.toNat = r.phase.toNat * r.wrap / oldWrap := by
      simp only [Regs.phaseRescale, if_neg hold.ne', BitVec.toNat_ofNat]
      exact Nat.mod_eq_of_lt (by omega)
    exact ⟨hstored ▸ hlt, fun h => absurd h hold.ne', fun _ => hstored, rfl⟩

/-! ### One output frame (R235, R237, R246, R247) -/

theorem sat32_eq_clamp32 (v : Int) : sat32 v = Claims.clamp32 v := by
  unfold sat32 Claims.clamp32
  split <;> omega

/-- A saturated value fits its word (R10). -/
theorem toInt_ofInt_sat32 (v : Int) : (BitVec.ofInt 32 (sat32 v)).toInt = sat32 v :=
  toInt_ofInt_s32 (decide_eq_true (by unfold sat32; omega))

/-- The dot product over the samples of a history buffer (R231, R242). -/
theorem dotProduct_eq_sum {s : State} (hv : s.regs.histValid = true) (cp cn : Nat → Int) (c : Nat) :
    dotProduct s cp cn c =
      (∑ j ∈ Finset.range s.regs.h.toNat, cp j * Claims.histSample s (s.regs.impulse.toNat - j) c) +
        ∑ j ∈ Finset.range s.regs.h.toNat, cn j * Claims.histSample s (s.regs.impulse.toNat + 1 + j) c := by
  have hsample : ∀ f, s.sample f c = Claims.histSample s f c := fun f => congrArg BitVec.toInt (if_pos hv)
  simp only [dotProduct, sumTo_eq_sum, hsample]

theorem tapBits_eq (s : State) : Claims.tapBits s = s.regs.tapFraction := by
  unfold Claims.tapBits Regs.tapFraction Regs.coef32
  cases s.regs.tier <;> rfl

/-- With a history buffer the accumulator is the formula of rules R235 and R237. -/
theorem accOf_eq_accValue {s : State} (hv : s.regs.histValid = true) (c : Nat) : accOf s c = Claims.accValue s c := by
  unfold accOf firLocked firInterp Claims.accValue
  simp only [dotProduct_eq_sum hv, s.regs.indexP_eq, s.regs.indexNLocked_eq, s.regs.indexNInterp_eq, s.regs.wrap_eq,
    tapBits_eq]
  rfl

/-- The term of an output channel (R241, R246). -/
theorem scale_acc30_eq_termValue (s : State) (acc : Int) (gain : BitVec 16) :
    scale (acc30 s.regs acc) gain = Claims.termValue s acc gain := by
  unfold scale acc30 Claims.termValue Regs.coef32
  rw [sat32_eq_clamp32]
  simp

/-- The terms of a frame by the formulas of rules R235 to R247. -/
theorem frameTerm_eq {s : State} (hv : s.regs.histValid = true) :
    s.frameTerm 0 = Claims.termValue s (Claims.accValue s 0) s.regs.volL ∧
      s.frameTerm 1 =
        Claims.termValue s (if s.regs.c = 2 then Claims.accValue s 1 else Claims.accValue s 0) s.regs.volR := by
  simp only [← accOf_eq_accValue hv, ← scale_acc30_eq_termValue, apply_ite (acc30 s.regs)]
  exact ⟨rfl, rfl⟩

/-- Each channel of the frame produced has its term added, with saturation (R247). -/
theorem produced_outAt_same {s : State} (h : s.races = []) (hw : s.out.wf = true) (f : Nat) {c : Nat} (hc : c < 2) :
    ((produced f s).outAt f c).toInt = Claims.clamp32 ((s.outAt f c).toInt + s.frameTerm c) := by
  have h0 := accumulate_races h f 0 (s.frameTerm 0)
  have hw0 := accumulate_wf h f 0 (s.frameTerm 0) hw
  have hadd : ∀ {u : State} (d : Nat), u.races = [] → u.out.wf = true → ∀ term,
      ((accumulate f d term u).outAt f d).toInt = Claims.clamp32 ((u.outAt f d).toInt + term) := by
    intro u d hu hwu term
    rw [accumulate_raceFree hu, ← sat32_eq_clamp32, State.outAt, writeOut_out, Mem.read_write hwu, if_pos rfl,
      toInt_ofInt_sat32]
  have hout : (produced f s).outAt f c =
      (accumulate f 1 (s.frameTerm 1) (accumulate f 0 (s.frameTerm 0) s)).outAt f c := by
    rw [produced_eq_addFrame, addFrame, agentsMove_raceFree (accumulate_races h0 f 1 _)]
    rfl
  rw [hout]
  obtain rfl | rfl : c = 0 ∨ c = 1 := by omega
  · rw [accumulate_outAt_other h0 f 1 _ hw0 (by decide), hadd 0 h hw]
  · rw [hadd 1 h0 hw0, accumulate_outAt_other h f 0 _ hw (by decide)]

/-- Settles O38: the RESAMPLE is one produced frame, whose terms are the formulas of the rules. -/
theorem producedFrameIsTheDotProduct : Obligations.ProducedFrameIsTheDotProduct := by
  intro s base hinv hr hcan hp
  have ⟨_, hready, _⟩ := hcan
  obtain ⟨hconst, hhist⟩ := hinv.regs.ready_valid hready
  obtain ⟨hL, hR⟩ := frameTerm_eq hhist
  have hw := hinv.mems.out.1
  obtain ⟨hphase, hpend⟩ := hinv.regs.phaseStep_values hconst hp
  refine ⟨_, exec_resample_one hcan hp, hL ▸ produced_outAt_same hr hw base (c := 0) (by decide),
    hR ▸ produced_outAt_same hr hw base (c := 1) (by decide),
    fun f c hc hf => produced_outAt_other hr hw hc hf, hphase, hpend, ?_⟩
  rw [produced_eq_raceFree hr]
  rfl

/-! ### Another STRIDE (R250) -/

/-- The state with another STRIDE. -/
def State.withStride (stride : Nat) (s : State) : State := { s with params := { s.params with stride := stride } }

/-- What a piece of RESAMPLE's loop ends in, its state changed by `f`. -/
def Flow.map (f : State → State) : Flow → Flow
  | .go s => .go (f s)
  | .stop s => .stop (f s)

theorem withStride_regs (stride : Nat) (s : State) : (s.withStride stride).regs = s.regs := rfl

section Stride

variable (stride : Nat)

/-! #### Other agents -/

/-- STRIDE is none of the parameters that say which elements exist (R87). -/
theorem agentRead_withStride (r : AgentRead) (s : State) :
    agentRead r (s.withStride stride) = (agentRead r s).withStride stride := by
  unfold agentRead
  rw [apply_ite (State.withStride stride)]
  cases r <;> rfl

theorem agentWrite_withStride (w : AgentWrite) (s : State) :
    agentWrite w (s.withStride stride) = (agentWrite w s).withStride stride := by
  unfold agentWrite
  rw [apply_ite (State.withStride stride)]
  cases w <;> rfl

theorem agentAccess_withStride (a : AgentAccess) (s : State) :
    agentAccess a (s.withStride stride) = (agentAccess a s).withStride stride := by
  cases a with
  | read r => exact agentRead_withStride stride r s
  | write w => exact agentWrite_withStride stride w s

theorem agentAccesses_withStride (as : List AgentAccess) (s : State) :
    agentAccesses as (s.withStride stride) = (agentAccesses as s).withStride stride := by
  induction as generalizing s with
  | nil => rfl
  | cons a rest ih => rw [agentAccesses, agentAccess_withStride, ih, agentAccesses]

theorem agentsMove_withStride (s : State) : agentsMove (s.withStride stride) = (agentsMove s).withStride stride := by
  have hr : (s.withStride stride).races = s.races := rfl
  unfold agentsMove
  rw [hr]
  cases s.races with
  | nil => rfl
  | cons batch rest => exact agentAccesses_withStride stride batch { s with races := rest }

theorem afterAnswer_withStride (a : ProviderAnswer) (rest : List ProviderAnswer) (s : State) :
    afterAnswer a rest (s.withStride stride) = (afterAnswer a rest s).withStride stride := by
  unfold afterAnswer
  rw [← agentsMove_withStride, providerWrites_eq_agentAccesses, providerWrites_eq_agentAccesses,
    ← agentAccesses_withStride]
  rfl

/-! #### One owed input frame (R302) -/

theorem stageChannel_withStride (c : Nat) (s : State) :
    stageChannel c (s.withStride stride) = (stageChannel c s).withStride stride := by
  unfold stageChannel
  rw [agentsMove_withStride]
  rfl

theorem forUp_stageChannel_withStride (n : Nat) (s : State) :
    forUp n stageChannel (s.withStride stride) = (forUp n stageChannel s).withStride stride := by
  induction n with
  | zero => rfl
  | succ m ih => rw [forUp, ih, stageChannel_withStride, forUp]

theorem advanceImpulse_withStride (s : State) :
    advanceImpulse (s.withStride stride) = (advanceImpulse s).withStride stride := by
  unfold advanceImpulse
  rw [apply_ite (State.withStride stride)]
  rfl

theorem countFrame_withStride (s : State) :
    countFrame (s.withStride stride) = (countFrame s).withStride stride := by
  unfold countFrame
  rw [apply_ite (State.withStride stride)]
  rfl

theorem consumeFrame_withStride (s : State) :
    consumeFrame (s.withStride stride) = (consumeFrame s).withStride stride := by
  rw [consumeFrame_eq, consumeFrame_eq, ← countFrame_withStride, ← forUp_stageChannel_withStride,
    ← advanceImpulse_withStride]
  rfl

/-! #### One output frame (R230) -/

theorem accumulate_withStride (f c : Nat) (term : Int) (s : State) :
    accumulate f c term (s.withStride stride) = (accumulate f c term s).withStride stride := by
  unfold accumulate
  dsimp only
  rw [agentsMove_withStride, agentsMove_withStride]
  rfl

theorem produced_withStride (f : Nat) (s : State) :
    produced f (s.withStride stride) = (produced f s).withStride stride := by
  have hterm : (s.withStride stride).frameTerm = s.frameTerm := rfl
  rw [produced_eq_addFrame, produced_eq_addFrame, addFrame, addFrame, hterm, accumulate_withStride,
    accumulate_withStride, agentsMove_withStride]
  rfl

/-! #### RESAMPLE -/

theorem takeBlock_withStride (n k : Nat) (block : Option Descriptor) (s : State) :
    takeBlock n k block (s.withStride stride) = (takeBlock n k block s).map (State.withStride stride) := by
  cases block with
  | none => rfl
  | some d =>
    unfold takeBlock
    rw [apply_ite (Flow.map (State.withStride stride)), apply_ite (Flow.map (State.withStride stride))]
    rfl

theorem receiveAnswer_withStride (n base k : Nat) (s : State) :
    receiveAnswer n base k (s.withStride stride) = (receiveAnswer n base k s).map (State.withStride stride) := by
  have hp : (s.withStride stride).provider = s.provider := rfl
  unfold receiveAnswer
  rw [hp]
  cases s.provider with
  | nil => rfl
  | cons a rest =>
    exact (congrArg (takeBlock n k a.block) (afterAnswer_withStride stride a rest s)).trans
      (takeBlock_withStride stride n k a.block _)

theorem pullBlock_withStride (n base k : Nat) (s : State) :
    pullBlock n base k (s.withStride stride) = (pullBlock n base k s).map (State.withStride stride) := by
  unfold pullBlock
  rw [← receiveAnswer_withStride, ← agentsMove_withStride]
  rfl

/-- Both runs consume the same frames and ask the provider at the same points (R302). -/
theorem consumeOwed_withStride (n base k owed : Nat) (s : State) :
    consumeOwed n base k owed (s.withStride stride) =
      (consumeOwed n base k owed s).map (State.withStride stride) := by
  induction owed generalizing s with
  | zero => rfl
  | succ m ih =>
    cases hh : s.regs.held with
    | true =>
      rw [consumeOwed_held hh, consumeOwed_held (s := s.withStride stride) hh, consumeFrame_withStride, ih]
    | false =>
      rw [consumeOwed_pull hh, consumeOwed_pull (s := s.withStride stride) hh, pullBlock_withStride]
      cases pullBlock n base k s with
      | stop t => rfl
      | go t => exact (congrArg _ (consumeFrame_withStride stride t)).trans (ih _)

theorem resampleLoop_withStride (n base left : Nat) (s : State) :
    resampleLoop n base left (s.withStride stride) = (resampleLoop n base left s).withStride stride := by
  induction left generalizing s with
  | zero => rfl
  | succ m ih =>
    rw [resampleLoop_succ, resampleLoop_succ, withStride_regs, consumeOwed_withStride]
    cases consumeOwed n base (n - (m + 1)) s.regs.pending.toNat s with
    | stop t => rfl
    | go t => exact (congrArg _ (produced_withStride stride _ t)).trans (ih _)

theorem resampleBody_withStride (n base : Nat) (s : State) :
    resampleBody n base (s.withStride stride) = (resampleBody n base s).withStride stride := by
  unfold resampleBody
  rw [resampleLoop_withStride, apply_ite (State.withStride stride)]
  rfl

/-! #### The other commands -/

theorem resetActions_withStride (s : State) :
    resetActions (s.withStride stride) = (resetActions s).withStride stride := by
  unfold resetActions
  rw [withStride_regs]
  cases s.regs.held <;> rfl

theorem createBody_withStride (tier chan bits : Nat) (rate : Int) (s : State) :
    createBody tier chan bits rate (s.withStride stride) = (createBody tier chan bits rate s).withStride stride := by
  unfold createBody
  cases Tier.ofCode tier with
  | none => rfl
  | some t =>
    dsimp only
    rw [resetActions_withStride, apply_ite (State.withStride stride)]
    rfl

theorem resetBody_withStride (s : State) : resetBody (s.withStride stride) = (resetBody s).withStride stride := by
  unfold resetBody
  rw [resetActions_withStride]
  rfl

theorem rbResize_withStride (hn : Nat) (s : State) :
    rbResize hn (s.withStride stride) = (rbResize hn s).withStride stride := by
  unfold rbResize
  rw [apply_ite (State.withStride stride)]
  rfl

/-- Of a re-design only RB_RESIZE takes parameters, and STRIDE is none of them (R200). -/
theorem redesigned_withStride (k : Constants) (rate : Nat) (s : State) :
    redesigned k rate (s.withStride stride) = (redesigned k rate s).withStride stride :=
  congrArg (fun u : State => { u with regs := { u.regs with state := u.regs.state.afterRedesign } })
    (rbResize_withStride stride _ { s with regs :=
      (s.regs.constSet k rate).phaseRescale (if s.regs.constValid then s.regs.wrap else 0) })

/-- The decision to re-design takes the closeness fractions, not STRIDE (R165, R166). -/
theorem setRateBody_withStride (rate : Int) (s : State) :
    setRateBody rate (s.withStride stride) = (setRateBody rate s).withStride stride := by
  have hre : redesign (s.withStride stride) rate.toNat = redesign s rate.toNat := rfl
  unfold setRateBody
  dsimp only
  rw [withStride_regs, hre]
  simp only [apply_ite (State.withStride stride)]
  cases deriveConstants s.regs.tier s.regs.outRate.toNat rate.toNat with
  | none => rfl
  | some k =>
    dsimp only
    rw [redesigned_withStride]
    rfl

theorem coefWriteBody_withStride (start : Bool) (value : Word) (s : State) :
    coefWriteBody start value (s.withStride stride) = (coefWriteBody start value s).withStride stride := by
  unfold coefWriteBody
  simp only [apply_ite (State.withStride stride)]
  rfl

theorem coefCommitBody_withStride (s : State) :
    coefCommitBody (s.withStride stride) = (coefCommitBody s).withStride stride := by
  unfold coefCommitBody
  rw [apply_ite (State.withStride stride)]
  rfl

/-- DISPATCH is the one register that STRIDE is read back in (R59). -/
theorem regValue_withStride {n : Nat} (h : n ≠ 0x13) (s : State) :
    regValue (s.withStride stride) n = regValue s n := by
  rcases Nat.lt_or_ge n 0x14 with hlt | hge
  · have h13 : n < 0x13 := by omega
    interval_cases n <;> rfl
  · rw [regValue_reserved _ hge, regValue_reserved _ hge]

theorem readRegBody_withStride {n : Nat} (h : n ≠ 0x13) (s : State) :
    readRegBody n (s.withStride stride) = (readRegBody n s).withStride stride := by
  unfold readRegBody
  rw [regValue_withStride stride h]
  cases regValue s n <;> rfl

/-- Every command but READ_REG DISPATCH does the same at every STRIDE (R250). -/
theorem bodyOf_withStride {i : Instr} (h : i ≠ .readReg 0x13) (s : State) :
    bodyOf i (s.withStride stride) = (bodyOf i s).withStride stride := by
  cases i with
  | nop => rfl
  | create tier chan bits rate => exact createBody_withStride stride tier chan bits rate s
  | setRate rate => exact setRateBody_withStride stride rate s
  | setVolume l r => rfl
  | resample n base => exact resampleBody_withStride stride n base s
  | coefWrite start value => exact coefWriteBody_withStride stride start value s
  | coefCommit => exact coefCommitBody_withStride stride s
  | reset => exact resetBody_withStride stride s
  | readReg n => exact readRegBody_withStride stride (fun hn => h (congrArg _ hn)) s

/-- The acceptance check does not look at the parameters (R281). -/
theorem whenAccepted_withStride {op : Opcode} {s : State} {body : State → State}
    (h : body (s.withStride stride) = (body s).withStride stride) :
    whenAccepted op (s.withStride stride) body = (whenAccepted op s body).withStride stride := by
  unfold whenAccepted
  rw [withStride_regs, h]
  cases acceptance op s.regs.state <;> rfl

end Stride

/-- Settles O54: every command's body, READ_REG DISPATCH apart, commutes with a change of STRIDE. -/
theorem strideNeverChangesAnything : Obligations.StrideNeverChangesAnything := by
  intro i s t stride hi he
  obtain rfl : whenAccepted i.opcode s (bodyOf i) = t := exec_eq_next_iff.1 he
  exact exec_eq_next_iff.2 (whenAccepted_withStride stride (bodyOf_withStride stride hi s))

end Sys2Proof.Machine
end

section
/-! PROOFS. The commands but RESAMPLE (43_commands.md): the common checks and the acceptance table, then CREATE, RESET,
SET_VOLUME, SET_RATE and the bank commands, each from what its body does in the case at hand, and the moves of STATE. -/

namespace Sys2Proof.Machine

open Claims

/-! ### Answers -/

/-- An OK answer changes no register (R12). -/
theorem answer_ok (d : Word) (s : State) : answer .ok d s = replies d s := rfl

/-- An error answer is recorded in LAST_ERR (R351). -/
theorem answer_error {st : Status} (h : st ≠ .ok) (d : Word) (s : State) : answer st d s = refuses st d s := by
  unfold answer refuses
  rw [if_neg h]

/-! ### The common checks (R281, R283) -/

theorem acceptance_errState_iff (op : Opcode) (st : Facade) :
    acceptance op st = .errState ↔ refusedByState op st := by
  cases op <;> cases st <;> simp [acceptance, refusedByState]

theorem acceptance_fault_iff (op : Opcode) : acceptance op .fault = .errFault ↔ refusedInFault op := by
  cases op <;> simp [acceptance, refusedInFault]

/-- The opcode bytes that pass the fault check are those of the commands that run in Fault (R283, R360). -/
theorem passesFaultCheck_iff (op : Opcode) : passesFaultCheck op.byte = true ↔ ¬refusedInFault op := by
  cases op <;> simp [passesFaultCheck, refusedInFault, Opcode.byte]

theorem acceptance_setRate_iff (st : Facade) : acceptance .setRate st = .ok ↔ acceptsRate st := by
  cases st <;> simp [acceptance, acceptsRate]

theorem acceptance_setVolume_iff (st : Facade) : acceptance .setVolume st = .ok ↔ acceptsRate st := by
  cases st <;> simp [acceptance, acceptsRate]

theorem acceptance_coefWrite_iff (st : Facade) : acceptance .coefWrite st = .ok ↔ acceptsBank st := by
  cases st <;> simp [acceptance, acceptsBank]

theorem acceptance_coefCommit_iff (st : Facade) : acceptance .coefCommit st = .ok ↔ acceptsBank st := by
  cases st <;> simp [acceptance, acceptsBank]

/-- A command that its state does not accept (R281). -/
theorem exec_refusedByState {i : Instr} {s : State} (h : refusedByState i.opcode s.regs.state) :
    exec i s = .next (refuses .errState 0 s) := by
  rw [exec_eq_next, whenAccepted, (acceptance_errState_iff _ _).2 h]
  rfl

/-- A command that Fault does not let through (R281, R360). -/
theorem exec_refusedInFault {i : Instr} {s : State} (hf : s.regs.state = .fault) (h : refusedInFault i.opcode) :
    exec i s = .next (refuses .errFault 0 s) := by
  rw [exec_eq_next, whenAccepted, hf, (acceptance_fault_iff _).2 h]
  rfl

/-- Settles O9: the table read by columns, the refusing states and Fault. -/
theorem acceptanceTable : Obligations.AcceptanceTable :=
  fun _ _ => ⟨exec_refusedByState, exec_refusedInFault⟩

/-- A packet that decodes carries its command's opcode (R123). -/
theorem opcodeByte_of_decode {p : Packet} {i : Instr} (h : decode p = .ok i) :
    Packet.opcodeByte p = i.opcode.byte := by
  obtain ⟨row, hr, hm, rfl⟩ := (decode_ok_iff p i).1 h
  rw [fieldsOf_opcode]
  exact opcodeByte_of_row hr hm

theorem passesFaultCheck_eq_true (b : BitVec 8) :
    passesFaultCheck b = true ↔ b = 0x00 ∨ b = 0x01 ∨ b = 0x07 ∨ b = 0x08 := by
  simp [passesFaultCheck, or_assoc]

/-- In Fault a packet whose opcode does not pass is answered ERR_FAULT, legal or not (R360). -/
theorem runPacket_fault {p : Packet} {s : State} (hf : s.regs.state = .fault)
    (hp : passesFaultCheck (Packet.opcodeByte p) = false) : runPacket p s = .next (refuses .errFault 0 s) := by
  cases hd : decode p with
  | ok i =>
    rw [opcodeByte_of_decode hd] at hp
    rw [runPacket_decoded hd, exec_refusedInFault hf]
    by_contra h
    simp [(passesFaultCheck_iff _).2 h] at hp
  | error e =>
    rw [runPacket_illegal hd, answerIllegal, if_pos ⟨hf, hp⟩]
    rfl

/-- An illegal packet that the fault check lets through (R125, R352). -/
theorem answerIllegal_passes {p : Packet} {s : State}
    (h : ¬(s.regs.state = .fault ∧ passesFaultCheck (Packet.opcodeByte p) = false)) :
    answerIllegal p s = refuses .errIllegal 0 s :=
  if_neg h

/-- Settles O7: the fault check comes before decoding, decoding before the state check. -/
theorem commonChecksInOrder : Obligations.CommonChecksInOrder := by
  intro s p rest hw hh op passes s'
  have hpass : passesFaultCheck (Packet.opcodeByte p) = false ↔ ¬passes := by
    rw [← Bool.not_eq_true]
    exact not_congr (passesFaultCheck_eq_true _)
  have hs' : s'.regs = s.regs := rfl
  rw [step_send hw hh]
  refine ⟨fun ⟨hf, hp⟩ => runPacket_fault hf (hpass.2 hp), fun hnf ⟨e, he⟩ => ?_, fun _ i hd hst => ?_⟩
  · rw [runPacket_illegal he, answerIllegal_passes (by rwa [hpass])]
  · rw [runPacket_decoded hd]
    exact exec_refusedByState hst

/-- A packet with an opcode of the map that does not match that opcode's row has a reserved bit set (R124). -/
theorem decode_reservedBit {p : Packet} {row : OpcodeRow} (hrow : row ∈ opcodeRows)
    (hop : p.extractLsb' 56 8 = row.opcode.byte) (hbits : p &&& row.mask ≠ row.pattern) :
    decode p = .error .reservedBit := by
  unfold decode
  rw [find_row hrow hop]
  exact if_neg hbits

/-- Where every bit is in the mask the row's packet is the only one (R123). -/
theorem decode_reservedBit_of_ne {p : Packet} {row : OpcodeRow} (hrow : row ∈ opcodeRows)
    (hop : p.extractLsb' 56 8 = row.opcode.byte) (hmask : row.mask = BitVec.allOnes 64) (hne : p ≠ row.pattern) :
    decode p = .error .reservedBit :=
  decode_reservedBit hrow hop (by rwa [hmask, BitVec.and_allOnes])

/-! ### NOP (R284) -/

/-- Settles O13: NOP is accepted everywhere and only answers; its opcode passes the fault check. -/
theorem nopAnswersAndChangesNothing : Obligations.NopAnswersAndChangesNothing := by
  refine ⟨fun s => rfl, by decide, fun p s rest hop hne hw hh => ?_⟩
  have hd := decode_reservedBit_of_ne (row := ⟨.nop, 0, 0xFFFFFFFFFFFFFFFF⟩) (by decide) hop (by decide) hne
  have hb : Packet.opcodeByte p = 0x00 := hop
  rw [step_send hw hh, runPacket_illegal hd, answerIllegal_passes (by rw [hb]; simp [passesFaultCheck])]

/-! ### CREATE and RESET (R285, R320, R321) -/

/-- RESET_ACTIONS as one record update (R321). -/
theorem resetActions_eq (s : State) :
    resetActions s = { s with
      regs := s.regs.resetActions, events := s.events ++ releaseEvents s, histEpoch := s.histEpoch + 1 } := by
  unfold resetActions releaseEvents
  cases s.regs.held
  · simp
  · rfl

/-- CREATE with legal operands (R285). -/
theorem createBody_accepts {code chan : Nat} {t : Tier} {rate : Int} (ht : Tier.ofCode code = some t)
    (hc : chan = 1 ∨ chan = 2) (hr : 0 < rate) (s : State) :
    createBody code chan 16 rate s =
      answer .ok 0 { resetActions s with regs := s.regs.resetActions.create t chan rate } := by
  unfold createBody
  rw [ht]
  dsimp only
  rw [if_neg (by omega), resetActions_regs]

/-- CREATE with an operand that is not legal (R285). -/
theorem createBody_rejects {code chan bits : Nat} {rate : Int}
    (h : code = 3 ∨ (chan ≠ 1 ∧ chan ≠ 2) ∨ bits ≠ 16 ∨ rate ≤ 0) (s : State) :
    createBody code chan bits rate s = refuses .errConfig 0 s := by
  rcases createBody_cases code chan bits rate s with he | ⟨t, ht, hc, hb, hr, -⟩
  · rw [he, answer_error (by decide)]
  · rcases h with rfl | h
    · cases ht
    · omega

/-- Settles O14: the legal operands and the others, and the row of CREATE in the opcode map. -/
theorem createConfiguresOrRejects : Obligations.CreateConfiguresOrRejects := by
  refine ⟨fun s code chan tier rate htier hc hr _ => ⟨s.histEpoch + 1, ?_⟩, fun s code chan bits rate _ h => ?_,
    fun p hop hbits => decode_reservedBit (row := ⟨.create, _, _⟩) (by decide) hop hbits⟩
  · have ht : Tier.ofCode code = some tier := by
      simp only [List.mem_cons, Prod.mk.injEq, List.not_mem_nil, or_false] at htier
      obtain ⟨rfl, rfl⟩ | ⟨rfl, rfl⟩ | ⟨rfl, rfl⟩ := htier <;> rfl
    rw [exec_accepted rfl, bodyOf, createBody_accepts ht hc hr, resetActions_eq]
    rfl
  · rw [exec_accepted rfl, bodyOf, createBody_rejects h]

theorem afterReset_eq (st : Facade) :
    st.afterReset = if st = .unconfigured then .unconfigured else .uninitialized := by
  cases st <;> rfl

/-- Settles O15: RESET_ACTIONS as one record update, and the row of RESET in the opcode map. -/
theorem resetClearsStreamKeepsConfiguration : Obligations.ResetClearsStreamKeepsConfiguration := by
  refine ⟨fun p hop hne => decode_reservedBit_of_ne (row := ⟨.reset, 0x0700000000000000, 0xFFFFFFFFFFFFFFFF⟩)
    (by decide) hop (by decide) hne, fun s => ⟨s.histEpoch + 1, ?_⟩⟩
  rw [exec_accepted rfl, bodyOf, resetBody_eq, resetActions_eq, afterReset_eq]
  rfl

/-! ### SET_VOLUME (R299) -/

/-- Settles O16: the accepting states, Unconfigured and Fault. -/
theorem setVolumeStoresBothGains : Obligations.SetVolumeStoresBothGains := by
  intro s gainL gainR
  refine ⟨fun ha => ?_, fun hu => exec_refusedByState hu, fun hf => exec_refusedInFault hf (.inr (.inl rfl))⟩
  exact exec_accepted (i := .setVolume gainL gainR) ((acceptance_setVolume_iff _).2 ha)

/-! ### SET_RATE (R290 to R298) -/

/-- SET_RATE's answer as a number (R298). -/
theorem rateData_toNat (r : Regs) : r.rateData.toNat = bit r.designReq + 2 * bit r.locked := by
  have hb : (BitVec.ofBool r.designReq).toNat = bit r.designReq := by cases r.designReq <;> rfl
  have h := Packs.lowest (w := 32) (BitVec.ofBool r.designReq) (by decide) |>.flag r.locked 1 (by decide) (by decide)
  rw [hb] at h
  exact h.value

theorem exec_setRate {s : State} (ha : acceptsRate s.regs.state) (rate : Int) :
    exec (.setRate rate) s = .next (setRateBody rate s) :=
  exec_accepted ((acceptance_setRate_iff _).2 ha)

/-- A rate that is not positive (R291). -/
theorem setRateBody_nonpos {rate : Int} (h : rate ≤ 0) (s : State) : setRateBody rate s = refuses .errConfig 0 s := by
  rw [setRateBody, if_pos h, answer_error (by decide)]

/-- The rate in force (R292). -/
theorem setRateBody_current {rate : Int} {s : State} (h0 : 0 < rate) (h : rate = s.regs.inRate.toNat) :
    setRateBody rate s = replies s.regs.rateData s := by
  have hne : s.regs.inRate ≠ 0 := by
    intro hz
    rw [hz] at h
    simp at h
    omega
  rw [setRateBody, if_neg (by omega)]
  dsimp only
  rw [if_pos ⟨hne, by omega⟩, answer_ok]

/-- The decision of a SET_RATE that is not rejected at once (R166). -/
theorem redesign_iff {rate : Int} (h0 : 0 < rate) (s : State) :
    redesign s rate.toNat = true ↔ mustRedesign s rate := by
  have h := redesignDecision s rate.toNat
  rwa [Int.toNat_of_nonneg h0.le] at h

section Changed

variable {rate : Int} {s : State} (h0 : 0 < rate) (h : (s.regs.inRate.toNat : Int) ≠ rate)
include h0 h

/-- Another rate, re-designed, and no constants for it (R293). -/
theorem setRateBody_noConstants (hm : mustRedesign s rate)
    (hd : deriveConstants s.regs.tier s.regs.outRate.toNat rate.toNat = none) :
    setRateBody rate s = refuses .errConfig 0 s := by
  rw [setRateBody, if_neg (by omega)]
  dsimp only
  rw [if_neg (by omega), if_pos ((redesign_iff h0 s).2 hm), hd]
  exact answer_error (by decide) 0 s

/-- Another rate, re-designed (R290). -/
theorem setRateBody_redesigns (hm : mustRedesign s rate) {k : Constants}
    (hd : deriveConstants s.regs.tier s.regs.outRate.toNat rate.toNat = some k) :
    setRateBody rate s = finishRate rate.toNat (redesigned k rate.toNat s) := by
  rw [setRateBody, if_neg (by omega)]
  dsimp only
  rw [if_neg (by omega), if_pos ((redesign_iff h0 s).2 hm), hd]

/-- Another rate with the constants in force (R295). -/
theorem setRateBody_keepsConstants (hm : ¬mustRedesign s rate) :
    setRateBody rate s = finishRate rate.toNat s := by
  rw [setRateBody, if_neg (by omega)]
  dsimp only
  rw [if_neg (by omega), if_neg (mt (redesign_iff h0 s).1 hm)]

end Changed

/-- Settles O18: a rate that is not positive, and a derivation that fails. -/
theorem setRateRejectsBadRates : Obligations.SetRateRejectsBadRates := by
  intro s rate ha
  rw [exec_setRate ha]
  exact ⟨fun h0 => by rw [setRateBody_nonpos h0], fun h0 hne hm hd => by rw [setRateBody_noConstants h0 hne hm hd]⟩

/-- Settles O19: only the answer is sent. -/
theorem setRateUnchangedIsNoOp : Obligations.SetRateUnchangedIsNoOp := by
  intro s rate ha h0 h
  exact ⟨s.regs.rateData, rateData_toNat _, by rw [exec_setRate ha, setRateBody_current h0 h]⟩

theorem lockedTest_eq_true (inc shift : Nat) : lockedTest inc shift = true ↔ inc % 2 ^ shift = 0 := by
  simp [lockedTest]

/-- Settles O21: the end of SET_RATE with the constants in force, INC stored whole since no re-design was due. -/
theorem setRateKeepingConstants : Obligations.SetRateKeepingConstants := by
  intro s rate hinv ha h0 h31 hne hm
  have hkeep := hm
  unfold mustRedesign at hkeep
  rw [not_or, not_or, not_lt, Bool.not_eq_false] at hkeep
  obtain ⟨hv, -, hroom⟩ := hkeep
  have hw := hinv.regs.wrap_ge hv
  have hrate : BitVec.ofNat 32 rate.toNat = BitVec.ofInt 32 rate := by
    rw [← BitVec.ofInt_natCast, Int.toNat_of_nonneg h0.le]
  refine ⟨_, _, _, _, storeRate_inc (by omega) hroom, lockedTest_eq_true _ _,
    selectLocked_phase (s.regs.storeRate rate.toNat), rateData_toNat (s.regs.storeRate rate.toNat).selectLocked, ?_⟩
  rw [exec_setRate ha, setRateBody_keepsConstants h0 hne hm, ← hrate]
  rfl

/-- The state that a re-design leaves (R294). -/
theorem afterRedesign_eq {st : Facade} (h : acceptsRate st) :
    st.afterRedesign = if st = .uninitialized ∨ st = .rateSet then .rateSet else .rateChanging := by
  rcases h with rfl | rfl | rfl | rfl <;> simp [Facade.afterRedesign]

/-- The answer after a re-design: a bank is due (R298, R44). -/
theorem rateData_designReq {r : Regs} (h : r.designReq = true) :
    r.rateData = BitVec.ofNat 32 (1 + 2 * bit r.locked) := by
  apply BitVec.eq_of_toNat_eq
  rw [rateData_toNat, h]
  cases r.locked <;> rfl

/-- The ring keeps its size exactly where H stays (R200, R203). -/
theorem Regs.Inv.ringKept_iff {p : Params} {r : Regs} (h : r.Inv p) (hl : p.legal = true) (hn : Nat) :
    (r.histValid = true ∧ r.histFrames.toNat = ringFrames p hn) ↔ (r.histValid = true ∧ r.h.toNat = hn) := by
  have hm : 0 < p.stateMult * 2 := by simp [Params.legal] at hl; omega
  refine and_congr_right fun hv => ?_
  rw [(h.ring hv).1]
  exact ⟨fun he => Nat.eq_of_mul_eq_mul_left hm he, fun he => congrArg (ringFrames p) he⟩

/-- The rescaled phase as a number: its range lets it be stored whole (R263). -/
theorem redesigned_phase {s : State} {k : Constants} (h : s.regs.Inv s.params) (hk : k.Fits) (hpos : 0 < k.l)
    (hfit : k.l * 2 ^ k.shift ≤ 2 ^ 32) (rate : Nat) :
    (redesigned k rate s).regs.phase.toNat =
      if s.regs.constValid then s.regs.phase.toNat * (k.l * 2 ^ k.shift) / s.regs.wrap else 0 := by
  rw [redesigned_regs hk]
  cases hv : s.regs.constValid with
  | false => rfl
  | true =>
    have hw := h.wrap_ge hv
    have hlt : s.regs.phase.toNat * (k.l * 2 ^ k.shift) / s.regs.wrap < k.l * 2 ^ k.shift := by
      rw [Nat.div_lt_iff_lt_mul (by omega), Nat.mul_comm]
      exact Nat.mul_lt_mul_of_pos_left (h.phase hv).1 (Nat.mul_pos hpos (by positivity))
    dsimp only
    rw [if_neg (by simp; omega), if_pos rfl, BitVec.toNat_ofNat]
    exact Nat.mod_eq_of_lt (by omega)

/-- The ring registers that the re-design leaves are those of RB_RESIZE (R290, R202). -/
theorem redesigned_ring_eq {k : Constants} (hk : k.Fits) (rate : Nat) (s : State) :
    (redesigned k rate s).regs.impulse = (rbResize k.h s).regs.impulse ∧
      (redesigned k rate s).regs.histFrames = (rbResize k.h s).regs.histFrames ∧
      (redesigned k rate s).regs.ringFull = (rbResize k.h s).regs.ringFull := by
  rw [redesigned_regs hk, rbResize_regs]
  by_cases hkept : s.regs.histValid = true ∧ s.regs.histFrames.toNat = ringFrames s.params k.h
  · simp only [if_pos hkept, and_self]
  · simp only [if_neg hkept, and_self]

/-- RB_RESIZE changes registers and HIST (R202). -/
theorem rbResize_eq (hn : Nat) (s : State) :
    rbResize hn s = { s with regs := (rbResize hn s).regs, hist := (rbResize hn s).hist } := by
  unfold rbResize
  dsimp only
  split <;> rfl

/-- A re-design changes registers and HIST (R290). -/
theorem redesigned_eq (k : Constants) (rate : Nat) (s : State) :
    redesigned k rate s =
      { s with regs := (redesigned k rate s).regs, hist := (redesigned k rate s).hist } :=
  congrArg (fun u : State => { u with regs := { u.regs with state := u.regs.state.afterRedesign } })
    (rbResize_eq _ { s with regs :=
      (s.regs.constSet k rate).phaseRescale (if s.regs.constValid then s.regs.wrap else 0) })

/-- HIST and the ring registers that the re-design leaves: those of before where H stays, else the resized ring of O29
(R203 to R205). -/
theorem redesigned_ringRegs {s : State} {k : Constants} (hinv : s.Inv) (hk : k.Fits) (hc : s.regs.c = 1 ∨ s.regs.c = 2)
    (h0 : 0 < k.h) (h32 : k.h ≤ 32) (rate : Nat) :
    let t := redesigned k rate s
    if s.regs.histValid = true ∧ s.regs.h.toNat = k.h then
      t.hist = s.hist ∧ t.regs.impulse = s.regs.impulse ∧ t.regs.histFrames = s.regs.histFrames ∧
        t.regs.ringFull = s.regs.ringFull
    else
      t.regs.histFrames.toNat = s.params.stateMult * 2 * k.h ∧ t.regs.impulse.toNat = k.h ∧
        t.regs.ringFull.toNat = s.params.stateMult * 2 * k.h - k.h ∧
        (∀ f c, f < s.params.stateMult * 2 * k.h → c < s.regs.c.toNat →
          t.hist.read (f * s.regs.c.toNat + c) =
            if s.regs.histValid = true ∧ f < 2 * k.h ∧ k.h ≤ s.regs.impulse.toNat + f ∧
                s.regs.impulse.toNat + f - k.h < s.regs.histFrames.toNat then
              s.hist.read ((s.regs.impulse.toNat + f - k.h) * s.regs.c.toNat + c)
            else 0) ∧
        ∀ e, s.params.stateMult * 2 * k.h * s.regs.c.toNat ≤ e → t.hist.read e = s.hist.read e := by
  have hiff := hinv.regs.ringKept_iff hinv.params k.h
  obtain ⟨himp, hframes, hfull⟩ := redesigned_ring_eq hk rate s
  intro t
  rw [redesigned_hist hk rate s, himp, hframes, hfull]
  split
  · next hkept =>
    rw [rbResize_same (hiff.2 hkept)]
    exact ⟨rfl, rfl, rfl, rfl⟩
  · next hnew =>
    have hm : 2 ≤ s.params.stateMult ∧ s.params.stateMult ≤ 1023 := by
      have := hinv.params
      simp [Params.legal] at this
      omega
    obtain ⟨h1, h2, h3, -, h5, h6, -⟩ :=
      resizeKeepsTheWindow s k.h hinv.mems.hist.1 hc h0 h32 hm.1 hm.2 (mt hiff.1 hnew)
    exact ⟨h1, h2, h3, h5, h6⟩

/-- The rate, the increment, the selector and the answer after a re-design (R296 to R298). -/
theorem finishRate_redesigned {s : State} {k : Constants} {rate : Nat} (hinv : s.regs.Inv s.params)
    (hu : s.regs.state ≠ .unconfigured) (h32 : rate < 2 ^ 32)
    (hd : deriveConstants s.regs.tier s.regs.outRate.toNat rate = some k) :
    let t := finishRate rate (redesigned k rate s)
    t.regs.inRate.toNat = rate ∧
      t.regs.inc.toNat = incCalc (k.l * 2 ^ k.shift) s.regs.outRate.toNat rate ∧
      (t.regs.locked = true ↔ t.regs.inc.toNat % 2 ^ k.shift = 0) ∧
      (let rescaled := if s.regs.constValid then s.regs.phase.toNat * (k.l * 2 ^ k.shift) / s.regs.wrap else 0
       t.regs.phase.toNat = if t.regs.locked then rescaled - rescaled % 2 ^ k.shift else rescaled) ∧
      t.responses = s.responses ++ [⟨.ok, BitVec.ofNat 32 (1 + 2 * bit t.regs.locked)⟩] := by
  have hk := deriveConstants_fits hd
  have hout := hinv.outRate_pos hu
  obtain ⟨⟨hL, -⟩, -⟩ := deriveConstants_ranges hd hout
  have hroom := deriveConstants_wrap_add_inc hd hout
  have hwrap := redesigned_wrap (s := s) (rate := rate) hk
  obtain ⟨-, hshift, -⟩ := redesigned_constants (s := s) (rate := rate) hk
  have hphase := redesigned_phase hinv hk (by omega) (by omega) rate
  have hq : (redesigned k rate s).regs.outRate = s.regs.outRate ∧
      (redesigned k rate s).regs.state = s.regs.state.afterRedesign := by
    rw [redesigned_regs hk]
    exact ⟨rfl, rfl⟩
  obtain ⟨hqout, hqstate⟩ := hq
  have hdue : ((redesigned k rate s).regs.storeRate rate).selectLocked.designReq = true := by
    show (redesigned k rate s).regs.designReq = true
    unfold Regs.designReq
    rw [hqstate]
    rcases afterRedesign_cases s.regs.state with h | h <;> simp [h]
  dsimp only
  rw [finishRate_regs, finishRate_responses, ← hphase, ← hshift, rateData_designReq hdue]
  refine ⟨Nat.mod_eq_of_lt h32, ?_, lockedTest_eq_true _ _, selectLocked_phase _, ?_⟩
  · show ((redesigned k rate s).regs.storeRate rate).inc.toNat = _
    rw [storeRate_inc (by rw [hwrap]; positivity) (by rw [hwrap, hqout]; exact hroom), hwrap, hqout, hshift]
  · rw [(redesigned_keeps k rate s).2.2.2.2.2.2.2.2.2.1]

/-- Settles O20: the constants of the re-design, the ring by its resize, then the rate, the increment and the
selector. -/
theorem setRateRedesignEffect : Obligations.SetRateRedesignEffect := by
  intro s rate k hinv ha h0 h31 hne hm hd
  obtain ⟨r, rfl⟩ := Int.eq_ofNat_of_zero_le h0.le
  have hr : r < 2 ^ 32 := by omega
  have hu : s.regs.state ≠ .unconfigured := by rcases ha with h | h | h | h <;> simp [h]
  have hk := deriveConstants_fits hd
  obtain ⟨-, -, hH0, hH⟩ := deriveConstants_ranges hd (hinv.regs.outRate_pos hu)
  obtain ⟨hl, hshift, hh, hatten⟩ := redesigned_constants (s := s) (rate := r) hk
  obtain ⟨hrate, hinc, hlocked, hphase, hresp⟩ := finishRate_redesigned hinv.regs hu hr hd
  have hring := redesigned_ringRegs hinv hk (hinv.regs.configured hu).1 (by omega) hH r
  have hregs := redesigned_regs hk r s
  have hstate : (redesigned k r s).regs.state = s.regs.state.afterRedesign := by rw [hregs]
  refine ⟨finishRate r (redesigned k r s), ?_, hl, hshift, hh, ?_, hatten, ?_, congrArg _ hrate, ?_,
    hstate.trans (afterRedesign_eq ha), hinc, hlocked, hphase, ?_, redesigned_hist hk r s, hring, hresp, ?_, ?_⟩
  · rw [exec_setRate ha, setRateBody_redesigns h0 hne hm hd, Int.toNat_natCast]
  · rw [finishRate_regs, hregs]
    rfl
  · rw [finishRate_regs, hregs]
    exact congrArg _ (Nat.mod_eq_of_lt hr)
  · rw [finishRate_regs, hregs]
    rfl
  · rw [finishRate_regs, hregs]
    rfl
  · unfold finishRate
    rw [redesigned_eq]
    rfl
  · rw [finishRate_regs, hregs]
    rfl

/-! ### COEF_WRITE and COEF_COMMIT (R315 to R318) -/

/-- The values that a 16-bit bank takes, as a sign extension (R317). -/
theorem isSext16_iff (v : Word) : isSext16 v = true ↔ v = (v.setWidth 16).signExtend 32 := by
  have h : v.extractLsb' 0 16 = v.setWidth 16 := (BitVec.setWidth_eq_extractLsb' (by decide)).symm
  rw [isSext16, h, beq_iff_eq]

/-- A bank takes the value (R317). -/
theorem bankTakes_iff (r : Regs) (v : Word) :
    ¬(r.coef32 = false ∧ isSext16 v = false) ↔ (r.tier = .high ∨ v = (v.setWidth 16).signExtend 32) := by
  rw [← isSext16_iff, not_and_or, Bool.not_eq_false, Bool.not_eq_false, Regs.coef32, beq_iff_eq]

/-- COEF_WRITE of a value that the bank takes, where there is room (R315). -/
theorem coefWriteBody_stages {start : Bool} {value : Word} {s : State}
    (hidx : (if start then 0 else s.regs.coefCount.toNat) < s.regs.bankSize)
    (hf : ¬(s.regs.coef32 = false ∧ isSext16 value = false)) :
    coefWriteBody start value s =
      let idx := if start then 0 else s.regs.coefCount.toNat
      answer .ok (BitVec.ofNat 32 (idx + 1))
        { s with
          scoef := s.scoef.write idx value, regs := { s.regs with coefCount := BitVec.ofNat 13 (idx + 1) } } := by
  unfold coefWriteBody
  dsimp only
  rw [if_neg (Nat.not_le.2 hidx), if_neg hf]

/-- COEF_WRITE with a full bank or a value that the bank does not take (R315, R317). -/
theorem coefWriteBody_refuses {start : Bool} {value : Word} {s : State}
    (h : s.regs.bankSize ≤ (if start then 0 else s.regs.coefCount.toNat) ∨
      (s.regs.coef32 = false ∧ isSext16 value = false)) :
    coefWriteBody start value s = refuses .errRange s.regs.coefCountWord s := by
  rw [← answer_error (by decide)]
  unfold coefWriteBody
  dsimp only
  by_cases hroom : s.regs.bankSize ≤ (if start then 0 else s.regs.coefCount.toNat)
  · rw [if_pos hroom]
  · rw [if_neg hroom, if_pos (h.resolve_left hroom)]

/-- Settles O26: the two refusals, and one write of SCOEF read element by element. -/
theorem coefWriteStagesOneElement : Obligations.CoefWriteStagesOneElement := by
  intro s start value ha idx size fits
  have hfits : _ ↔ fits := bankTakes_iff s.regs value
  rw [exec_accepted (i := .coefWrite start value) ((acceptance_coefWrite_iff _).2 ha), bodyOf]
  refine ⟨fun h => ?_, fun hidx hf hw => ⟨_, rfl, ?_⟩⟩
  · rw [coefWriteBody_refuses (h.imp_right fun hf => not_not.1 (mt hfits.1 hf))]
    rfl
  · rw [coefWriteBody_stages hidx (hfits.2 hf)]
    exact ⟨rfl, fun j => Mem.read_write hw idx j value⟩

/-- Settles O27: the incomplete load, and the whole-bank copy read element by element. -/
theorem coefCommitInstallsTheBank : Obligations.CoefCommitInstallsTheBank := by
  intro s ha size
  rw [exec_accepted (i := .coefCommit) ((acceptance_coefCommit_iff _).2 ha), bodyOf]
  rcases coefCommitBody_cases s with ⟨hne, he⟩ | ⟨heq, he⟩ <;> rw [he]
  · exact ⟨fun _ => congrArg _ (answer_error (by decide) _ _), fun hc => absurd hc hne⟩
  · exact ⟨fun hc => absurd heq hc, fun _ hs hd => ⟨_, rfl, rfl, Mem.read_copyLow hs hd size⟩⟩

/-! ### The moves of STATE (R282) -/

/-- The moves of rule R282 from `s` to `t`, for each command. -/
def ListedMove (i : Instr) (s t : State) : Prop :=
  match i with
  | .create _ _ _ _ => t.regs.state = .uninitialized
  | .reset => s.regs.state ≠ .unconfigured ∧ t.regs.state = .uninitialized
  | .setRate _ => (s.regs.state = .uninitialized ∧ t.regs.state = .rateSet) ∨
      (s.regs.state = .ready ∧ t.regs.state = .rateChanging)
  | .coefCommit => (s.regs.state = .rateSet ∨ s.regs.state = .rateChanging) ∧ t.regs.state = .ready
  | .resample _ _ => s.regs.state = .ready ∧ t.regs.state = .fault
  | .nop | .setVolume _ _ | .coefWrite _ _ | .readReg _ => False

/-- RESAMPLE stays in Ready up to its end, and leaves it only for Fault (R366). -/
theorem resampleLoop_state (n base : Nat) {s : State} (h : s.regs.state = .ready) :
    (resampleLoop n base n s).regs.state = .ready ∨ (resampleLoop n base n s).regs.state = .fault := by
  have rule : LoopRule n base (fun _ u => u.regs.state = .ready) (fun _ u => u.regs.state = .ready)
      (fun t => t.regs.state = .ready ∨ t.regs.state = .fault) :=
    .ofAnswered
      (request := fun _ _ _ hu _ _ => by simpa using hu)
      (wait := fun _ _ _ hu _ _ _ => .inl hu)
      (answered := fun _ _ _ _ _ hu _ _ _ => by rw [afterAnswer_keeps]; exact hu)
      (short := fun _ _ _ hu _ _ => .inl hu)
      (bad := fun _ _ _ _ _ _ _ _ => .inr rfl)
      (hold := fun _ _ _ _ hu _ _ _ => hu)
      (consume := fun _ u _ hu _ _ => (consumeFrame_bankRegs u).2.2.2.2.trans hu)
      (produce := fun _ _ _ hu _ => hu)
      (done := fun _ hu => .inl hu)
  exact rule.body h

/-- SET_RATE moves STATE by a re-design only (R294). -/
theorem setRateBody_listedMove {rate : Int} {s : State} (ha : acceptance .setRate s.regs.state = .ok)
    (hne : (setRateBody rate s).regs.state ≠ s.regs.state) : ListedMove (.setRate rate) s (setRateBody rate s) := by
  rcases setRateBody_cases rate s with he | ⟨-, -, he⟩ | ⟨-, -, k, hd, he⟩ | ⟨-, -, he⟩ <;> rw [he] at hne ⊢
  · exact absurd rfl hne
  · exact absurd rfl hne
  · have hst : (finishRate rate.toNat (redesigned k rate.toNat s)).regs.state = s.regs.state.afterRedesign := by
      rw [finishRate_regs, redesigned_regs (deriveConstants_fits hd)]
      rfl
    unfold ListedMove
    rw [hst] at hne ⊢
    rcases (acceptance_setRate_iff _).1 ha with h | h | h | h <;> rw [h] at hne ⊢ <;> simp_all [Facade.afterRedesign]
  · exact absurd rfl hne

/-- Settles O50: command by command, what the body does to STATE. -/
theorem stateTransitionsAreThoseListed : Obligations.StateTransitionsAreThoseListed := by
  intro i s t he hne
  suffices h : ListedMove i s t by
    cases i <;> exact h
  refine exec_induct (Q := fun t => t.regs.state ≠ s.regs.state → ListedMove i s t) he (fun ha => ?_)
    (fun h => absurd rfl h) (fun h => absurd rfl h) hne
  intro hne
  cases i with
  | nop | setVolume l r => exact absurd rfl hne
  | create tier chan bits rate =>
    rw [bodyOf] at hne ⊢
    rcases createBody_cases tier chan bits rate s with he | ⟨c, -, -, -, -, he⟩ <;> rw [he] at hne ⊢
    · exact absurd rfl hne
    · rfl
  | setRate rate => exact setRateBody_listedMove ha hne
  | resample n base =>
    have hready := acceptance_resample ha
    rw [bodyOf] at hne ⊢
    rcases resampleBody_cases n base s with ⟨-, he⟩ | ⟨-, he⟩ <;> rw [he] at hne ⊢
    · exact absurd rfl hne
    · exact ⟨hready, (resampleLoop_state n base hready).resolve_left (by rwa [← hready])⟩
  | coefWrite start value =>
    rw [bodyOf] at hne
    rcases coefWriteBody_cases start value s with he | ⟨idx, -, -, -, he⟩ <;> rw [he] at hne <;> exact absurd rfl hne
  | coefCommit =>
    rw [bodyOf] at hne ⊢
    rcases coefCommitBody_cases s with ⟨-, he⟩ | ⟨-, he⟩ <;> rw [he] at hne ⊢
    · exact absurd rfl hne
    · rcases acceptance_bank (.inr rfl) ha with h | h | h
      · exact ⟨.inl h, rfl⟩
      · exact absurd h.symm hne
      · exact ⟨.inr h, rfl⟩
  | reset =>
    rw [bodyOf, resetBody_eq] at hne ⊢
    have hst : s.regs.state.afterReset ≠ s.regs.state := hne
    rw [afterReset_eq] at hst
    have hu : s.regs.state ≠ .unconfigured := by
      intro hu
      simp [hu] at hst
    exact ⟨hu, (afterReset_eq _).trans (if_neg hu)⟩
  | readReg n =>
    rw [bodyOf] at hne
    rcases readRegBody_cases n s with ⟨v, -, he⟩ | he <;> rw [he] at hne <;> exact absurd rfl hne

end Sys2Proof.Machine
end

section
/-! PROOFS. RESAMPLE's loop (43_commands.md R300 to R312): the ways it ends, what it has changed at any point, the
answers it has taken and the input it has consumed, and the range check before it. -/

namespace Sys2Proof.Machine

open Claims

/-! ### The ends of the loop -/

/-- The ways RESAMPLE's loop ends, where `P k` holds in round k and `A k` while round k's request has no answer yet: all
frames produced, no answer yet, exhaustion, or a descriptor past INP (R300, R305, R306, R312). -/
inductive LoopEnd (n base : Nat) (P A : Nat → State → Prop) : State → Prop
  | full (u : State) : P n u → LoopEnd n base P A (finishResample n n u)
  | wait (k : Nat) (u : State) : k < n → A k u → u.regs.held = false → 0 < u.regs.pending.toNat → u.provider = [] →
      LoopEnd n base P A { u with waiting := some ⟨n, base, k⟩ }
  | short (k : Nat) (u : State) (a : ProviderAnswer) (rest : List ProviderAnswer) : k < n → A k u →
      u.regs.held = false → 0 < u.regs.pending.toNat → u.provider = a :: rest → isExhaustion a →
      LoopEnd n base P A (finishResample n k (afterAnswer a rest u))
  | bad (k : Nat) (u : State) (a : ProviderAnswer) (rest : List ProviderAnswer) : k < n → A k u →
      u.regs.held = false → 0 < u.regs.pending.toNat → u.provider = a :: rest → isBlockPastInp u a →
      LoopEnd n base P A (raiseFault .providerRange k (afterAnswer a rest u))

/-- The pieces of the loop that do not end it keep `P` and `A`. -/
structure LoopSteps (n base : Nat) (P A : Nat → State → Prop) : Prop where
  request : ∀ k s, k < n → P k s → s.regs.held = false → 0 < s.regs.pending.toNat →
    A k (agentsMove (portEvent (.getNextBuffer (hint n k s.regs)) s))
  hold : ∀ k s a rest d, k < n → A k s → s.regs.held = false → 0 < s.regs.pending.toNat → s.provider = a :: rest →
    a.block = some d → d.frames ≠ 0 → descriptorOutOfRange s d = false → P k (holdBlock d (afterAnswer a rest s))
  consume : ∀ k s, k < n → P k s → s.regs.held = true → 0 < s.regs.pending.toNat → P k (consumeFrame s)
  produce : ∀ k s, k < n → P k s → s.regs.pending = 0 → P (k + 1) (produced (base + k) s)

theorem descriptorOutOfRange_eq_true {s : State} {d : Descriptor} :
    descriptorOutOfRange s d = true ↔ s.params.inpWords < d.base.toNat + d.frames.toNat * s.regs.c.toNat := by
  simp [descriptorOutOfRange, State.channels]

theorem descriptorOutOfRange_eq_false {s : State} {d : Descriptor} :
    descriptorOutOfRange s d = false ↔ d.base.toNat + d.frames.toNat * s.regs.c.toNat ≤ s.params.inpWords := by
  simp [descriptorOutOfRange, State.channels]

namespace LoopSteps

variable {n base : Nat} {P A P' A' : Nat → State → Prop}

/-- Steps that keep two predicates keep both. -/
theorem and (h : LoopSteps n base P A) (h' : LoopSteps n base P' A') :
    LoopSteps n base (fun k s => P k s ∧ P' k s) (fun k s => A k s ∧ A' k s) where
  request k s hk hP hh hp := ⟨h.request k s hk hP.1 hh hp, h'.request k s hk hP.2 hh hp⟩
  hold k s a rest d hk hA hh hp he hd h0 hr :=
    ⟨h.hold k s a rest d hk hA.1 hh hp he hd h0 hr, h'.hold k s a rest d hk hA.2 hh hp he hd h0 hr⟩
  consume k s hk hP hh hp := ⟨h.consume k s hk hP.1 hh hp, h'.consume k s hk hP.2 hh hp⟩
  produce k s hk hP hp := ⟨h.produce k s hk hP.1 hp, h'.produce k s hk hP.2 hp⟩

/-- Whatever the steps keep holds where the loop ends, in whichever way it does. -/
theorem rule (h : LoopSteps n base P A) : LoopRule n base P A (LoopEnd n base P A) where
  request := h.request
  wait k u hk hA hh hp he := .wait k u hk hA hh hp he
  short k u a rest hk hA hh hp he hx := .short k u a rest hk hA hh hp he hx
  bad k u a rest d hk hA hh hp he hd h0 hr :=
    .bad k u a rest hk hA hh hp he ⟨d, hd, h0, descriptorOutOfRange_eq_true.1 hr⟩
  hold := h.hold
  consume := h.consume
  produce := h.produce
  done u hP := .full u hP

end LoopSteps

/-! ### What a RESAMPLE has changed while it runs -/

/-- `u` is where a RESAMPLE that started at `s` stands: of the registers it has written only those of the phase, the
ring and the held block, and it has not answered. -/
structure Working (s u : State) : Prop where
  regs : u.regs = { s.regs with
    phase := u.regs.phase, pending := u.regs.pending, impulse := u.regs.impulse, held := u.regs.held
    heldBase := u.regs.heldBase, heldFrames := u.regs.heldFrames, inputIndex := u.regs.inputIndex }
  params : u.params = s.params
  responses : u.responses = s.responses
  acoef : u.acoef = s.acoef
  scoef : u.scoef = s.scoef
  host : u.host = s.host
  histEpoch : u.histEpoch = s.histEpoch

namespace Working

variable {s u v : State}

theorem refl (s : State) : Working s s := ⟨rfl, rfl, rfl, rfl, rfl, rfl, rfl⟩

theorem trans (h : Working s u) (h' : Working u v) : Working s v where
  regs := by
    rw [h'.regs, h.regs]
  params := h'.params.trans h.params
  responses := h'.responses.trans h.responses
  acoef := h'.acoef.trans h.acoef
  scoef := h'.scoef.trans h.scoef
  host := h'.host.trans h.host
  histEpoch := h'.histEpoch.trans h.histEpoch

/-- The registers that say which blocks are inside INP, and how fast input is consumed, stay. -/
theorem fixed (h : Working s u) : u.regs.c = s.regs.c ∧ u.regs.inc = s.regs.inc ∧ u.regs.wrap = s.regs.wrap ∧
    u.regs.state = s.regs.state ∧ u.regs.lastErr = s.regs.lastErr ∧ u.regs.faultCause = s.regs.faultCause ∧
    u.regs.result = s.regs.result ∧ u.regs.short = s.regs.short := by
  rw [h.regs]
  exact ⟨rfl, rfl, rfl, rfl, rfl, rfl, rfl, rfl⟩

theorem request (u : State) (e : PortEvent) : Working u (agentsMove (portEvent e u)) := by
  constructor <;> simp

theorem afterAnswer (a : ProviderAnswer) (rest : List ProviderAnswer) (u : State) :
    Working u (afterAnswer a rest u) := by
  rw [afterAnswer_keeps]
  exact ⟨rfl, rfl, rfl, rfl, rfl, rfl, rfl⟩

theorem holdBlock (d : Descriptor) (u : State) : Working u (holdBlock d u) := ⟨rfl, rfl, rfl, rfl, rfl, rfl, rfl⟩

theorem consumeFrame (u : State) : Working u (consumeFrame u) := by
  refine ⟨?_, by simp, by simp, by simp, by simp, by simp, by simp⟩
  rw [consumeFrame_regs]
  dsimp only
  split <;> rfl

theorem produced (f : Nat) (u : State) : Working u (produced f u) := by
  refine ⟨rfl, ?_, ?_, ?_, ?_, ?_, ?_⟩ <;> simp [Machine.produced]

/-- The state of a RESAMPLE at work as one record update. -/
theorem eq_update (h : Working s u) : u = { s with
    out := u.out, inp := u.inp, hist := u.hist, waiting := u.waiting, provider := u.provider, races := u.races
    observed := u.observed, events := u.events
    regs := { s.regs with
      phase := u.regs.phase, pending := u.regs.pending, impulse := u.regs.impulse, held := u.regs.held
      heldBase := u.regs.heldBase, heldFrames := u.regs.heldFrames, inputIndex := u.regs.inputIndex } } := by
  obtain ⟨hr, hp, hre, ha, hs, hh, he⟩ := h
  cases u
  dsimp only at hr hp hre ha hs hh he ⊢
  rw [← hr, hp, hre, ha, hs, hh, he]

theorem steps (n base : Nat) (s : State) :
    LoopSteps n base (fun _ => Working s) (fun _ => Working s) where
  request _ _ _ h _ _ := h.trans (request _ _)
  hold _ _ _ _ _ _ h _ _ _ _ _ _ := h.trans ((afterAnswer _ _ _).trans (holdBlock _ _))
  consume _ _ _ h _ _ := h.trans (consumeFrame _)
  produce _ _ _ h _ := h.trans (produced _ _)

end Working

/-! ### The range check (R301) -/

/-- A RESAMPLE that runs answers OK or ERR_FAULT, or not yet (R300, R366, R312). -/
theorem LoopEnd.responses {n base : Nat} {s t : State}
    (h : LoopEnd n base (fun _ => Working s) (fun _ => Working s) t) :
    t.responses = s.responses ∨
      ∃ st d, (st = .ok ∨ st = .errFault) ∧ t.responses = s.responses ++ [⟨st, d⟩] := by
  cases h with
  | full u hu => exact .inr ⟨.ok, _, .inl rfl, by rw [finishResample_responses, hu.responses]⟩
  | wait k u _ hu => exact .inl hu.responses
  | short k u a rest _ hu =>
    exact .inr ⟨.ok, _, .inl rfl, by
      rw [finishResample_responses, (hu.trans (.afterAnswer a rest u)).responses]⟩
  | bad k u a rest _ hu =>
    exact .inr ⟨.errFault, _, .inr rfl, by
      rw [raiseFault_responses, (hu.trans (.afterAnswer a rest u)).responses]⟩

/-- Settles O37: past the range check the loop runs, and no end of it answers ERR_RANGE. -/
theorem resampleChecksItsRange : Obligations.ResampleChecksItsRange := by
  intro s n base hready
  have hacc : ∀ m, exec (.resample m base) s = .next (resampleBody m base s) := fun m =>
    exec_accepted (i := .resample m base) (by rw [hready]; rfl)
  rw [hacc, hacc]
  refine ⟨fun hout => ?_, fun hin => ⟨_, rfl, fun d hd => ?_⟩, fun hin => ?_⟩
  · rw [resampleBody, if_pos hout, answer_error (by decide)]
  · rw [resampleBody, if_neg (by omega)] at hd
    rcases ((Working.steps n base s).rule.body (.refl s)).responses with hr | ⟨st, e, hst, hr⟩ <;> rw [hd] at hr
    · simp at hr
    · rcases hst with rfl | rfl <;> simp at hr
  · rw [resampleBody, if_neg (by omega)]
    rfl

/-! ### The answers taken (R305) -/

/-- `taken` are the answers that a RESAMPLE which started at `s` and stands at `u` has taken, blocks inside INP all. -/
structure Took (s : State) (taken : List ProviderAnswer) (u : State) : Prop where
  working : Working s u
  provider : s.provider = taken ++ u.provider
  blocks : ∀ a ∈ taken, isBlockInInp s a

namespace Took

variable {s u v : State} {taken : List ProviderAnswer}

theorem start (s : State) : Took s [] s := ⟨.refl s, rfl, by simp⟩

/-- What does not contact the provider. -/
theorem keep (h : Took s taken u) (hw : Working u v) (hp : v.provider = u.provider) : Took s taken v :=
  ⟨h.working.trans hw, hp ▸ h.provider, h.blocks⟩

/-- One more block is held. -/
theorem hold (h : Took s taken u) {a : ProviderAnswer} {rest : List ProviderAnswer} {d : Descriptor}
    (hp : u.provider = a :: rest) (hd : a.block = some d) (h0 : d.frames ≠ 0)
    (hr : descriptorOutOfRange u d = false) : Took s (taken ++ [a]) (holdBlock d (afterAnswer a rest u)) where
  working := h.working.trans ((Working.afterAnswer a rest u).trans (.holdBlock d _))
  provider := by
    rw [h.provider, hp, holdBlock_provider, afterAnswer_keeps]
    simp
  blocks b hb := by
    rcases List.mem_append.1 hb with hb | hb
    · exact h.blocks b hb
    · obtain rfl := List.mem_singleton.1 hb
      rw [descriptorOutOfRange_eq_false, h.working.params, h.working.fixed.1] at hr
      exact ⟨d, hd, h0, hr⟩

/-- The answer that ends the command is the next one after those taken. -/
theorem next (h : Took s taken u) {a : ProviderAnswer} {rest : List ProviderAnswer} (hp : u.provider = a :: rest) :
    s.provider = taken ++ a :: (afterAnswer a rest u).provider := by
  rw [h.provider, hp, afterAnswer_keeps]

end Took

/-! ### The input consumed (R310) -/

theorem releasedFrames_append (xs ys : List PortEvent) :
    releasedFrames (xs ++ ys) = releasedFrames xs + releasedFrames ys := by
  induction xs with
  | nil => simp [releasedFrames]
  | cons e xs ih => cases e <;> simp [releasedFrames, ih, Nat.add_assoc]

theorem handedFrames_append (xs ys : List ProviderAnswer) :
    handedFrames (xs ++ ys) = handedFrames xs + handedFrames ys := by
  induction xs with
  | nil => simp [handedFrames]
  | cons a xs ih => simp [handedFrames, ih, Nat.add_assoc]

/-- A consumed frame raises INPUT_INDEX, or ends a block whose frames are then counted as released (R303). -/
theorem consumeFrame_released {p : Params} {s : State} (h : s.regs.Inv p) (hh : s.regs.held = true) :
    releasedFrames (consumeFrame s).events + (consumeFrame s).regs.inputIndex.toNat =
      releasedFrames s.events + s.regs.inputIndex.toNat + 1 := by
  have hnext := succ_toNat (h.heldBlock hh).1
  rw [consumeFrame_events, consumeFrame_regs]
  dsimp only
  split
  · next hlast =>
    rw [releasedFrames_append, ← hlast]
    simp only [releasedFrames, State.heldBlock, Regs.dropHeld, ← hlast, hnext]
    rfl
  · simp only [hnext]
    omega

/-- The input account of a RESAMPLE of n frames that started at `s` and stands at `u` in round k: it has consumed `j`
input frames, and the provider has handed over `h` (R310). -/
structure Account (n : Nat) (s : State) (k j h : Nat) (u : State) : Prop where
  inv : u.regs.Inv s.params
  ready : u.regs.state = .ready
  owed : ∀ m, j + owedBefore u.regs m = owedBefore s.regs (k + m)
  reached : 0 < k → owedBefore s.regs (k - 1) ≤ j
  atEnd : 0 < k → k = n → j = owedBefore s.regs (k - 1)
  left : heldInput u.regs + j = heldInput s.regs + h
  counted : releasedFrames u.events + u.regs.inputIndex.toNat =
    releasedFrames s.events + s.regs.inputIndex.toNat + j
  phase : u.regs.phase.toNat = (s.regs.phase.toNat + k * s.regs.inc.toNat) % s.regs.wrap

namespace Account

variable {n k j h : Nat} {s u v : State}

theorem valid (ha : Account n s k j h u) : u.regs.constValid = true ∧ u.regs.histValid = true :=
  ha.inv.ready_valid ha.ready

theorem start (hinv : s.Inv) (hr : s.regs.state = .ready) (n : Nat) : Account n s 0 0 0 s where
  inv := hinv.regs
  ready := hr
  owed m := by simp
  reached hk := absurd hk (lt_irrefl 0)
  atEnd hk := absurd hk (lt_irrefl 0)
  left := rfl
  counted := rfl
  phase := by
    rw [Nat.zero_mul, Nat.add_zero, Nat.mod_eq_of_lt (hinv.regs.phase (hinv.regs.ready_valid hr).1).1]

/-- The frames consumed and those owed are what the output frame of this round reaches for (R302). -/
theorem owed_now (ha : Account n s k j h u) : j + u.regs.pending.toNat = owedBefore s.regs k := by
  have howed := ha.owed 0
  have hphase := Nat.div_eq_of_lt (ha.inv.phase ha.valid.1).1
  rwa [owedBefore, Nat.zero_mul, Nat.add_zero, hphase] at howed

/-- What changes no register and releases no block. -/
theorem keep (ha : Account n s k j h u) (hr : v.regs = u.regs)
    (he : releasedFrames v.events = releasedFrames u.events) : Account n s k j h v := by
  obtain ⟨hinv, hready, howed, hreached, hend, hleft, hcounted, hphase⟩ := ha
  rw [← hr] at hinv hready howed hleft hcounted hphase
  exact ⟨hinv, hready, howed, hreached, hend, hleft, he ▸ hcounted, hphase⟩

theorem request (ha : Account n s k j h u) (m : Nat) :
    Account n s k j h (agentsMove (portEvent (.getNextBuffer m) u)) :=
  ha.keep (by simp) (by simp [releasedFrames_append, releasedFrames])

theorem afterAnswer (ha : Account n s k j h u) (a : ProviderAnswer) (rest : List ProviderAnswer) :
    Account n s k j h (afterAnswer a rest u) :=
  ha.keep (by rw [afterAnswer_keeps]) (by rw [afterAnswer_keeps])

/-- A block is handed over where none is held (R300). -/
theorem holdBlock (ha : Account n s k j h u) (hh : u.regs.held = false) {d : Descriptor} (h0 : d.frames ≠ 0)
    (hr : d.base.toNat + d.frames.toNat * u.regs.c.toNat ≤ s.params.inpWords) :
    Account n s k j (h + d.frames.toNat) (holdBlock d u) where
  inv := ha.inv.hold d h0 ha.valid.1 hr
  ready := ha.ready
  owed := ha.owed
  reached := ha.reached
  atEnd := ha.atEnd
  left := by
    have hleft := ha.left
    have hnone : heldInput u.regs = 0 := if_neg (by simp [hh])
    have hall : heldInput (Machine.holdBlock d u).regs = d.frames.toNat := by simp [heldInput]
    omega
  counted := by
    have hcounted := ha.counted
    rwa [(ha.inv.heldZero hh).2.2] at hcounted
  phase := ha.phase

/-- One frame of the held block consumed (R302). -/
theorem consumeFrame (ha : Account n s k j h u) (hl : s.params.legal = true) (hk : k < n) (hh : u.regs.held = true)
    (hp : 0 < u.regs.pending.toNat) : Account n s k (j + 1) h (consumeFrame u) where
  inv := consumeFrame_inv hl ha.inv ha.valid.1 hh hp
  ready := (consumeFrame_bankRegs u).2.2.2.2.trans ha.ready
  owed m := by
    have := consumeFrame_owedBefore hp m
    have := ha.owed m
    omega
  reached h0 := (ha.reached h0).trans (Nat.le_succ j)
  atEnd _ hn := absurd hn hk.ne
  left := by
    have := consumeFrame_heldInput ha.inv hh
    have := ha.left
    omega
  counted := by
    rw [consumeFrame_released ha.inv hh, ha.counted, Nat.add_assoc]
  phase := by
    rw [← ha.phase, consumeFrame_regs]
    dsimp only
    split <;> rfl

/-- With nothing owed a frame is produced, and the input it reached for has all been consumed (R260, R310). -/
theorem produced (ha : Account n s k j h u) (hw : Working s u) (hp : u.regs.pending = 0) (f : Nat) :
    Account n s (k + 1) j h (produced f u) := by
  obtain ⟨hv, -⟩ := ha.valid
  obtain ⟨hphase, hpend⟩ := ha.inv.phaseStep_values hv hp
  obtain ⟨-, hinc, hwrap, -⟩ := hw.fixed
  have hj : j = owedBefore s.regs k := by simpa [hp] using ha.owed_now
  refine ⟨ha.inv.stepPhase hv hp, ha.ready, fun m => ?_, fun _ => hj.ge, fun _ _ => hj, ha.left, ?_, ?_⟩
  · have hstep : owedBefore (Machine.produced f u).regs m = owedBefore u.regs (m + 1) :=
      ha.inv.phaseStep_owedBefore hv hp m
    rw [hstep, ha.owed, Nat.add_assoc, Nat.add_comm 1]
  · have he : (Machine.produced f u).events = u.events := by simp [Machine.produced]
    rw [he]
    exact ha.counted
  · refine hphase.trans ?_
    rw [ha.phase, hinc, hwrap, Nat.mod_add_mod, Nat.succ_mul, Nat.add_assoc]

/-- PENDING at the end of the last round (R310). -/
theorem pending_atEnd (ha : Account n s n j h u) (hn : 1 ≤ n) :
    u.regs.pending.toNat + owedBefore s.regs (n - 1) = owedBefore s.regs n := by
  rw [← ha.owed_now, ← ha.atEnd hn rfl, Nat.add_comm]

end Account

end Sys2Proof.Machine
end

section
/-! PROOFS. The ways a RESAMPLE ends, with the input each of them has consumed (43_commands.md R300 to R306, R310). -/

namespace Sys2Proof.Machine

open Claims

/-! ### The ways a RESAMPLE ends (R300, R305, R306, R310, R312) -/

/-- What is known of a RESAMPLE of n frames at work in round k: the answers it has taken and, from a state that meets
the invariant, the input it has consumed. -/
structure AtRound (n : Nat) (s : State) (k : Nat) (taken : List ProviderAnswer) (u : State) : Prop where
  took : Took s taken u
  account : s.Inv → ∃ j, Account n s k j (handedFrames taken) u

namespace AtRound

variable {n base k : Nat} {s u : State} {taken : List ProviderAnswer}

theorem start (hr : s.regs.state = .ready) (n : Nat) : AtRound n s 0 [] s :=
  ⟨.start s, fun hinv => ⟨0, .start hinv hr n⟩⟩

/-- The request of round k is the last event (R304). -/
theorem lastRequested_request (n k : Nat) (u : State) :
    lastRequested n k (agentsMove (portEvent (.getNextBuffer (hint n k u.regs)) u)) := by
  refine ⟨u.events, ?_⟩
  obtain ⟨-, hregs, -, -, -, -, -, -, -, hevents, -⟩ :=
    agentsMove_keeps (portEvent (.getNextBuffer (hint n k u.regs)) u)
  rw [hevents, hregs]
  rfl

theorem request (h : AtRound n s k taken u) : AtRound n s k taken
    (agentsMove (portEvent (.getNextBuffer (hint n k u.regs)) u)) where
  took := h.took.keep (.request u _) (by simp)
  account hinv := (h.account hinv).imp fun _ ha => ha.request _

theorem hold (h : AtRound n s k taken u) (hh : u.regs.held = false) {a : ProviderAnswer} {rest : List ProviderAnswer}
    {d : Descriptor} (hp : u.provider = a :: rest) (hd : a.block = some d) (h0 : d.frames ≠ 0)
    (hr : descriptorOutOfRange u d = false) :
    AtRound n s k (taken ++ [a]) (holdBlock d (afterAnswer a rest u)) where
  took := h.took.hold hp hd h0 hr
  account hinv := by
    obtain ⟨j, ha⟩ := h.account hinv
    have hin := descriptorOutOfRange_eq_false.1 hr
    rw [h.took.working.params] at hin
    have hhold := (ha.afterAnswer a rest).holdBlock (by rw [afterAnswer_keeps]; exact hh) h0
      (by rw [afterAnswer_keeps]; exact hin)
    rw [handedFrames_append]
    simp only [handedFrames, hd, Nat.add_zero]
    exact ⟨j, hhold⟩

theorem consumeFrame (h : AtRound n s k taken u) (hk : k < n) (hh : u.regs.held = true)
    (hp : 0 < u.regs.pending.toNat) : AtRound n s k taken (consumeFrame u) where
  took := h.took.keep (.consumeFrame u) (by simp)
  account hinv := by
    obtain ⟨j, ha⟩ := h.account hinv
    exact ⟨j + 1, ha.consumeFrame hinv.params hk hh hp⟩

theorem produced (h : AtRound n s k taken u) (hp : u.regs.pending = 0) (f : Nat) :
    AtRound n s (k + 1) taken (produced f u) where
  took := h.took.keep (.produced f u) (by simp [Machine.produced])
  account hinv := (h.account hinv).imp fun _ ha => ha.produced h.took.working hp f

/-- The loop keeps the account, round by round. -/
theorem steps (n base : Nat) (s : State) :
    LoopSteps n base (fun k u => u.waiting = none ∧ ∃ taken, AtRound n s k taken u)
      (fun k u => lastRequested n k u ∧ ∃ taken, AtRound n s k taken u) where
  request k u _ h _ _ := ⟨lastRequested_request n k u, h.2.imp fun _ ht => ht.request⟩
  hold k u a rest d _ h hh _ hp hd h0 hr := by
    obtain ⟨-, taken, ht⟩ := h
    exact ⟨by rw [holdBlock_waiting, afterAnswer_keeps], _, ht.hold hh hp hd h0 hr⟩
  consume k u hk h hh hp := ⟨by simpa using h.1, h.2.imp fun _ ht => ht.consumeFrame hk hh hp⟩
  produce k u _ h hp :=
    ⟨by simpa [Machine.produced] using h.1, h.2.imp fun _ ht => ht.produced hp _⟩

/-- Frame k − 1 needed no more input than there was. -/
theorem had (h : AtRound n s k taken u) (hinv : s.Inv) (h0 : 0 < k) :
    owedBefore s.regs (k - 1) ≤ heldInput s.regs + handedFrames taken := by
  obtain ⟨j, ha⟩ := h.account hinv
  have := ha.reached h0
  have := ha.left
  omega

/-- At a request frame k needs more input than there was (R302). -/
theorem lacks (h : AtRound n s k taken u) (hinv : s.Inv) (hh : u.regs.held = false) (hp : 0 < u.regs.pending.toNat) :
    heldInput s.regs + handedFrames taken < owedBefore s.regs k := by
  obtain ⟨j, ha⟩ := h.account hinv
  have := ha.owed_now
  have := ha.left
  have : heldInput u.regs = 0 := if_neg (by simp [hh])
  omega

end AtRound

theorem lastRequested_afterAnswer {n k : Nat} {u : State} (h : lastRequested n k u) (a : ProviderAnswer)
    (rest : List ProviderAnswer) : lastRequested n k (afterAnswer a rest u) := by
  rw [afterAnswer_keeps]
  exact h

/-- Settles O43: the four ways the loop ends, each with the account of the answers taken and the input consumed. -/
theorem resampleEndsInOneOfFourWays : Obligations.ResampleEndsInOneOfFourWays := by
  intro s n base hcan
  have ⟨hw, hready, _, _⟩ := hcan
  have hend := (AtRound.steps n base s).rule.body (s := s) ⟨hw, [], .start hready n⟩
  refine ⟨resampleLoop n base n s, ?_⟩
  rw [exec_resample_eq_loop hcan]
  generalize resampleLoop n base n s = t at hend
  cases hend with
  | full u hu =>
    obtain ⟨hwu, taken, hu⟩ := hu
    obtain ⟨-, -, -, hst, hle, hfc, -, -⟩ := hu.took.working.fixed
    refine ⟨n, taken, rfl, le_rfl, hu.took.blocks, .inl ⟨hwu, ?_, rfl, rfl, hst.trans hready, hle, hfc,
      .inl ⟨rfl, hu.took.provider⟩⟩, fun hinv => ⟨hu.had hinv, fun hn => absurd hn (lt_irrefl n)⟩⟩
    rw [finishResample_responses, hu.took.working.responses]
  | wait k u hk hu hh hp he =>
    obtain ⟨hreq, taken, hu⟩ := hu
    obtain ⟨-, -, -, hst, -, -, hres, hsh⟩ := hu.took.working.fixed
    refine ⟨k, taken, rfl, hk.le, hu.took.blocks, .inr (.inr ⟨rfl, hk, he, hu.took.working.responses,
      hst.trans hready, hh, hres, hsh, hreq, ?_⟩), fun hinv => ⟨hu.had hinv, fun _ => hu.lacks hinv hh hp⟩⟩
    rw [hu.took.provider, he, List.append_nil]
  | short k u a rest hk hu hh hp he hx =>
    obtain ⟨hreq, taken, hu⟩ := hu
    have hv := hu.took.working.trans (.afterAnswer a rest u)
    obtain ⟨-, -, -, hst, hle, hfc, -, -⟩ := hv.fixed
    refine ⟨k, taken, rfl, hk.le, hu.took.blocks, .inl ⟨?_, ?_, rfl, rfl, hst.trans hready, hle, hfc,
      .inr ⟨hk, ?_, lastRequested_afterAnswer hreq a rest, a, hx, hu.took.next he⟩⟩,
      fun hinv => ⟨hu.had hinv, fun _ => hu.lacks hinv hh hp⟩⟩
    · rw [finishResample_waiting, afterAnswer_keeps]
    · rw [finishResample_responses, hv.responses]
    · show (afterAnswer a rest u).regs.held = false
      rw [afterAnswer_keeps]
      exact hh
  | bad k u a rest hk hu hh hp he hx =>
    obtain ⟨hreq, taken, hu⟩ := hu
    have hv := hu.took.working.trans (.afterAnswer a rest u)
    refine ⟨k, taken, rfl, hk.le, hu.took.blocks, .inr (.inl ⟨?_, hk, ?_, rfl, rfl, rfl, rfl, rfl, ?_,
      lastRequested_afterAnswer hreq a rest, a, ?_, hu.took.next he⟩),
      fun hinv => ⟨hu.had hinv, fun _ => hu.lacks hinv hh hp⟩⟩
    · rw [raiseFault_waiting, afterAnswer_keeps]
    · rw [raiseFault_responses, hv.responses]
    · show (afterAnswer a rest u).regs.held = false
      rw [afterAnswer_keeps]
      exact hh
    · obtain ⟨d, hd, h0, hr⟩ := hx
      rw [hu.took.working.params, hu.took.working.fixed.1] at hr
      exact ⟨d, hd, h0, hr⟩

/-- Two counts of frames below 2^24 are the same number where their words are (R31, R111). -/
theorem count_inj {k n : Nat} (hk : k < 2 ^ 24) (hn : n < 2 ^ 24) (h : BitVec.ofNat 32 k = BitVec.ofNat 32 n) :
    k = n := by
  have h' := congrArg BitVec.toNat h
  rw [BitVec.toNat_ofNat, BitVec.toNat_ofNat] at h'
  omega

/-- A RESAMPLE that answers {OK, n} has produced all of its frames (R300). -/
theorem LoopEnd.full_of_response {n base : Nat} {P A : Nat → State → Prop} {rs : List Response} {t : State}
    (h : LoopEnd n base P A t) (hA : ∀ k u, A k u → u.responses = rs)
    (hn : n < 2 ^ 24) (ht : t.responses = rs ++ [⟨.ok, BitVec.ofNat 32 n⟩]) :
    ∃ u, P n u ∧ t = finishResample n n u := by
  cases h with
  | full u hu => exact ⟨u, hu, rfl⟩
  | wait k u _ hu =>
    have hr : u.responses = rs ++ _ := ht
    rw [hA k u hu] at hr
    simp at hr
  | short k u a rest hk hu =>
    rw [finishResample_responses, (Working.afterAnswer a rest u).responses, hA k u hu] at ht
    have hkn : k = n := count_inj (by omega) hn (by simpa using ht)
    omega
  | bad k u a rest _ hu =>
    rw [raiseFault_responses, (Working.afterAnswer a rest u).responses, hA k u hu] at ht
    simp at ht

/-- Settles O42: the account of a RESAMPLE that reached its last frame. -/
theorem inputConsumptionFollowsTheFormula : Obligations.InputConsumptionFollowsTheFormula := by
  intro s t n base hinv hcan hn he ht
  dsimp only
  have ⟨hw, hready, hn24, _⟩ := hcan
  have hend := (AtRound.steps n base s).rule.body (s := s) ⟨hw, [], .start hready n⟩
  obtain rfl : resampleLoop n base n s = t := by
    rw [exec_resample_eq_loop hcan] at he
    injection he
  obtain ⟨u, ⟨-, taken, hu⟩, heq⟩ := hend.full_of_response
    (fun k u hu => hu.2.elim fun _ h => h.took.working.responses) hn24 ht
  obtain ⟨j, ha⟩ := hu.account hinv
  have hj := ha.atEnd hn rfl
  have hpend := ha.pending_atEnd hn
  unfold owedBefore at hj hpend
  rw [heq]
  refine ⟨hj ▸ ha.counted, ?_, ha.phase⟩
  show u.regs.pending.toNat = _
  omega

end Sys2Proof.Machine
end

section
/-! PROOFS. A RESAMPLE at its first provider request (43_commands.md R304 to R306, 20_memory.md R92, R93). -/

namespace Sys2Proof.Machine

open Claims

/-! ### The first request (R304 to R306, R92, R93) -/

/-- The provider writes INP only (R92). -/
theorem providerWrites_eq (ws : List (Nat × Sample)) (s : State) :
    providerWrites ws s = { s with inp := (providerWrites ws s).inp } := by
  have h := providerWrites_keeps ws s
  cases hx : providerWrites ws s
  rw [hx] at h
  simp_all

/-- A write of an element that INP does not have takes no effect (R87). -/
theorem agentWrite_inp_missing {s : State} {e : Nat} (he : ¬e < s.params.inpWords) (v : Sample) :
    agentWrite (.inp e v) s = s :=
  if_neg (by simpa [AgentWrite.inRange] using he)

/-- The provider's writes look at INP and its size only. -/
theorem providerWrites_inp_congr (ws : List (Nat × Sample)) {s u : State} (hp : u.params = s.params)
    (hi : u.inp = s.inp) : (providerWrites ws u).inp = (providerWrites ws s).inp := by
  induction ws generalizing s u with
  | nil => exact hi
  | cons w rest ih =>
    refine ih (by simpa using hp) ?_
    by_cases he : w.1 < s.params.inpWords
    · rw [agentWrite_inp he, agentWrite_inp (hp ▸ he)]
      exact congrArg (Mem.write · w.1 w.2) hi
    · rw [agentWrite_inp_missing he, agentWrite_inp_missing (hp ▸ he)]
      exact hi

/-- What the provider's writes leave in element i of INP (R92, R87). -/
theorem providerWrites_read (ws : List (Nat × Sample)) {s : State} (hw : s.inp.wf = true) (i : Nat) :
    (providerWrites ws s).inp.read i =
      if i < s.params.inpWords then (lastWrite ws i).getD (s.inp.read i) else s.inp.read i := by
  induction ws generalizing s with
  | nil => simp [providerWrites, lastWrite]
  | cons w rest ih =>
    obtain ⟨j, v⟩ := w
    have hstep : (agentWrite (.inp j v) s).inp.wf = true ∧ (agentWrite (.inp j v) s).inp.read i =
        if j < s.params.inpWords ∧ j = i then v else s.inp.read i := by
      by_cases hj : j < s.params.inpWords
      · rw [agentWrite_inp hj]
        refine ⟨Mem.wf_write hw j v, (Mem.read_write hw j i v).trans ?_⟩
        simp [hj, eq_comm]
      · rw [agentWrite_inp_missing hj]
        exact ⟨hw, by simp [hj]⟩
    rw [providerWrites, ih hstep.1, hstep.2, (agentWrite_keeps _ s).1]
    simp only [lastWrite]
    by_cases hi : i < s.params.inpWords
    · rw [if_pos hi, if_pos hi]
      cases lastWrite rest i with
      | some u => rfl
      | none =>
        by_cases hji : j = i
        · simp [hji, hi]
        · simp [hji]
    · rw [if_neg hi, if_neg hi, if_neg (by omega)]

/-- The state with the first request made, other agents having moved at it (R304, R93). -/
theorem request_eq (s : State) (e : PortEvent) :
    agentsMove (portEvent e s) = { agentsMove s with events := s.events ++ [e] } := by
  have h := agentsMove_port s s.provider s.waiting (s.events ++ [e])
  rw [show portEvent e s = { s with events := s.events ++ [e] } from rfl, h]
  simp

/-- The answer's arrival as the writes of INP and then the moves of other agents (R92, R93). -/
theorem afterAnswer_eq {s : State} (hw : s.waiting = none) (a : ProviderAnswer) (rest : List ProviderAnswer) :
    afterAnswer a rest s =
      agentsMove { s with provider := rest, inp := (providerWrites a.writes s).inp } := by
  have hstart : ({ s with provider := rest, waiting := none } : State) = { s with provider := rest } := by rw [hw]
  have hinp := providerWrites_inp_congr a.writes (s := s) (u := { s with provider := rest }) rfl rfl
  unfold afterAnswer
  rw [hstart, providerWrites_eq, hinp]

theorem receiveAnswer_unanswered {n base k : Nat} {s : State} (he : s.provider = []) :
    receiveAnswer n base k s = .stop { s with waiting := some ⟨n, base, k⟩ } := by
  rw [receiveAnswer, he]

/-- With no answer there the command waits at its request (R312, U10). -/
theorem resampleLoop_unanswered {n base k : Nat} {s : State} (hk : k < n) (hh : s.regs.held = false)
    (hp : 0 < s.regs.pending.toNat) (he : s.provider = []) :
    resampleLoop n base (n - k) s =
      { agentsMove (portEvent (.getNextBuffer (hint n k s.regs)) s) with waiting := some ⟨n, base, k⟩ } := by
  obtain ⟨p, hp⟩ : ∃ p, s.regs.pending.toNat = p + 1 := ⟨s.regs.pending.toNat - 1, by omega⟩
  obtain ⟨m, hm⟩ : ∃ m, n - k = m + 1 := ⟨n - k - 1, by omega⟩
  rw [hm, resampleLoop_succ, hp, show n - (m + 1) = k by omega, consumeOwed_pull hh, pullBlock,
    receiveAnswer_unanswered (by simpa using he)]

/-- The answer that ends a resumed RESAMPLE short (R306). -/
theorem resumeResample_exhausted {n base k : Nat} {s : State} {a : ProviderAnswer} {rest : List ProviderAnswer}
    (hp : s.provider = a :: rest) (hx : isExhaustion a) :
    resumeResample ⟨n, base, k⟩ s = finishResample n k (afterAnswer a rest s) := by
  have hstop : takeBlock n k a.block (afterAnswer a rest s) = .stop (finishResample n k (afterAnswer a rest s)) := by
    rcases hx with hb | ⟨d, hb, h0⟩
    · rw [hb, takeBlock]
    · rw [hb, takeBlock, if_pos h0]
  have hr : receiveAnswer n base k s = takeBlock n k a.block (afterAnswer a rest s) := by
    rw [receiveAnswer, hp]
    rfl
  rw [resume_loop (n := n) (base := base) rfl rfl (by simp [hp])]
  dsimp only
  rw [hr, hstop]

/-- The answer that ends a resumed RESAMPLE in Fault (R305, R366). -/
theorem resumeResample_pastInp {n base k : Nat} {s : State} {a : ProviderAnswer} {rest : List ProviderAnswer}
    {d : Descriptor} (hp : s.provider = a :: rest) (hd : a.block = some d) (h0 : d.frames ≠ 0)
    (hr : descriptorOutOfRange s d = true) :
    resumeResample ⟨n, base, k⟩ s = raiseFault .providerRange k (afterAnswer a rest s) := by
  have hstop : receiveAnswer n base k s = .stop (raiseFault .providerRange k (afterAnswer a rest s)) := by
    rw [receiveAnswer, hp]
    dsimp only
    rw [hd, takeBlock, if_neg h0]
    exact if_pos (by rw [← hr]; exact descriptorOutOfRange_afterAnswer a rest s d)
  rw [resume_loop (n := n) (base := base) rfl rfl (by simp [hp])]
  dsimp only
  rw [hstop]

/-- A RESAMPLE of one frame whose one owed input frame comes from a block just held: the block is released with its only
frame, or held with one frame used (R302, R303). -/
theorem exec_resample_one_held {s : State} {base : Nat} {d : Descriptor} (hcan : canResample s 1 base)
    (hp : s.regs.pending = 1) :
    ∃ t, exec (.resample 1 base) (holdBlock d s) = .next t ∧ t.responses = s.responses ++ [⟨.ok, 1⟩] ∧
      t.provider = s.provider ∧
      if d.frames = 1 then
        t.regs.held = false ∧ t.regs.heldBase = 0 ∧ t.regs.heldFrames = 0 ∧ t.regs.inputIndex = 0 ∧
          t.events = s.events ++ [.releaseBuffer d]
      else
        t.regs.held = true ∧ t.regs.heldBase = d.base ∧ t.regs.heldFrames = d.frames ∧ t.regs.inputIndex = 1 ∧
          t.events = s.events := by
  have hregs := consumeFrame_regs (holdBlock d s)
  have hevents := consumeFrame_events (holdBlock d s)
  have hworks := Working.consumeFrame (holdBlock d s)
  have hprovider : (consumeFrame (holdBlock d s)).provider = s.provider := by simp
  refine ⟨_, exec_resample_one_owed (s := holdBlock d s) hcan hp rfl, ?_⟩
  generalize consumeFrame (holdBlock d s) = v at hregs hevents hworks hprovider ⊢
  have hlast : (0 : Word) + 1 = d.frames ↔ d.frames = 1 := eq_comm
  have hev : (produced base v).events = v.events := by simp [produced]
  refine ⟨?_, by simpa [produced] using hprovider, ?_⟩
  · rw [finishResample_responses, (hworks.trans (.produced base v)).responses]
    rfl
  · rw [finishResample_events, hev]
    simp only [holdBlock_regs, holdBlock_events, hlast] at hregs hevents
    split
    · next h1 =>
      rw [if_pos h1] at hregs hevents
      exact ⟨congrArg (·.held) hregs, congrArg (·.heldBase) hregs, congrArg (·.heldFrames) hregs,
        congrArg (·.inputIndex) hregs, hevents⟩
    · next h1 =>
      rw [if_neg h1] at hregs hevents
      exact ⟨congrArg (·.held) hregs, congrArg (·.heldBase) hregs, congrArg (·.heldFrames) hregs,
        congrArg (·.inputIndex) hregs, hevents⟩

/-- Settles O44: the request, then the loop from the provider's answer on. -/
theorem resampleAtItsFirstRequest : Obligations.ResampleAtItsFirstRequest := by
  intro s n base hcan hn hp hh request asked
  have ⟨hw, hready, hn24, hrange⟩ := hcan
  have hasked : agentsMove (portEvent (.getNextBuffer (hint n 0 s.regs)) s) = asked := request_eq s request
  have hfree : s.raceFree → asked = { s with events := s.events ++ [request] } := fun hr => by
    simp only [asked, agentsMove_raceFree hr]
  have hexec := exec_resample_eq_loop hcan
  refine ⟨hfree, fun he => ?_, fun a rest he => ?_⟩
  · rw [hexec, ← hasked]
    exact congrArg _ (resampleLoop_unanswered (k := 0) hn hh hp he)
  intro written answered
  have hp' : asked.provider = a :: rest := by simpa [asked] using he
  have hregs : asked.regs = s.regs := by simp [asked]
  have hparams : asked.params = s.params := by simp [asked]
  have hanswered : afterAnswer a rest asked = answered := afterAnswer_eq (by simpa [asked] using hw) a rest
  have hresumed : resampleLoop n base n s = resumeResample ⟨n, base, 0⟩ asked := by
    rw [← hasked]
    exact resampleLoop_request (k := 0) hn hh hp (by simp [he])
  have hansregs : answered.regs = s.regs := by rw [← hanswered, afterAnswer_keeps]; exact hregs
  have hansparams : answered.params = s.params := by rw [← hanswered, afterAnswer_keeps]; exact hparams
  have hansresp : answered.responses = s.responses := by simp [answered, written, asked]
  have hinRange : ∀ d, d.base.toNat + d.frames.toNat * s.regs.c.toNat ≤ s.params.inpWords →
      descriptorOutOfRange asked d = false := fun d hd =>
    descriptorOutOfRange_eq_false.2 (by rwa [hregs, hparams])
  refine ⟨fun hr => ?_, fun hwf i => ?_, fun hx => ?_, fun d hd h0 => ⟨fun hout => ?_, fun hin => ?_⟩⟩
  · refine agentsMove_raceFree (s := written) ?_
    show (agentsMove s).races = []
    rw [agentsMove_raceFree hr]
    exact hr
  · have hwf' : asked.inp.wf = true :=
      agentsMove_inp_induct (Mem.wf · = true) s (fun _ i v _ hm => Mem.wf_write hm i v) hwf
    have hread := providerWrites_read a.writes hwf' i
    rwa [hparams] at hread
  · rw [hexec, hresumed, resumeResample_exhausted hp' hx, hanswered, finishResample, answer, hansresp, hansregs,
      decide_eq_true (show 0 < n from hn)]
    rfl
  · have hpast : descriptorOutOfRange asked d = true := descriptorOutOfRange_eq_true.2 (by rwa [hregs, hparams])
    rw [hexec, hresumed, resumeResample_pastInp hp' hd h0 hpast, hanswered, raiseFault, answer, hansresp, hansregs]
    rfl
  · have hcan' : canResample answered n base := by
      refine ⟨?_, hansregs ▸ hready, hn24, hansparams ▸ hrange⟩
      rw [← hanswered, afterAnswer_keeps]
    have hblock : ({ answered with regs := { s.regs with
        held := true, heldBase := d.base, heldFrames := d.frames, inputIndex := 0 } } : State) =
        holdBlock d answered := by
      rw [holdBlock, hansregs]
    have hheld : exec (.resample n base) s = exec (.resample n base) (holdBlock d answered) := by
      rw [hexec, exec_resample_eq_loop (s := holdBlock d answered) hcan', hresumed,
        resumeResample_hold hp' hd h0 (hinRange d hin), hanswered]
      rfl
    rw [hblock]
    refine ⟨hheld, fun hn1 hp1 => ?_⟩
    subst hn1
    obtain ⟨t, ht, hresp, hprov, hend⟩ := exec_resample_one_held (d := d) hcan' (by rw [hansregs, hp1])
    have hansevents : answered.events = s.events ++ [request] := by simp [answered, written, asked]
    rw [hansevents, List.append_assoc] at hend
    refine ⟨t, hheld.trans ht, by rw [hresp, hansresp], ?_, hend⟩
    rw [hprov, ← hanswered, afterAnswer_keeps]

end Sys2Proof.Machine
end

section
/-! PROOFS. The owed input a RESAMPLE consumes before an output frame (43_commands.md R302, R303). -/

namespace Sys2Proof.Machine

open Claims

/-! ### Owed input first (R302, R303) -/

/-- With no moves of other agents a consumed frame is what the claim writes out (R302). -/
theorem consumeFrame_eq_afterOneInput {s : State} (hr : s.races = []) (hh : s.regs.held = true) :
    consumeFrame s = afterOneInput s := by
  rw [consumeFrame_eq_raceFree hr, consumeFrame_regs, consumeFrame_events]
  unfold afterOneInput
  dsimp only
  by_cases hlast : s.regs.inputIndex + 1 = s.regs.heldFrames
  · simp only [if_pos hlast, decide_eq_false (not_not.2 hlast)]
    rfl
  · simp only [if_neg hlast, decide_eq_true hlast, List.append_nil, ← hh]

/-- So many owed frames consumed from the held block, none left owed in the end: the command goes on at the state after
them, which has them all in its window (R302). -/
theorem afterInputs_run {p : Params} (m : Nat) {s : State} (hs : s.Runs p) (hw : s.waiting = none)
    (hr : s.races = []) (hp : s.regs.pending.toNat = m) (hleft : m ≤ heldInput s.regs) :
    (afterInputs m s).Runs p ∧ (afterInputs m s).waiting = none ∧ (afterInputs m s).races = [] ∧
      (afterInputs m s).regs.pending = 0 ∧ Working s (afterInputs m s) ∧ (afterInputs m s).out = s.out ∧
      (afterInputs m s).regs.phase = s.regs.phase ∧
      ∀ n base k, k < n → resampleLoop n base (n - k) s = resampleLoop n base (n - k) (afterInputs m s) := by
  induction m generalizing s with
  | zero => exact ⟨hs, hw, hr, BitVec.eq_of_toNat_eq hp, .refl s, rfl, rfl, fun _ _ _ _ => rfl⟩
  | succ m ih =>
    have hh : s.regs.held = true := by
      by_contra hh
      rw [heldInput, if_neg hh] at hleft
      omega
    have hpos : 0 < s.regs.pending.toNat := by omega
    have hone := consumeFrame_heldInput hs.inv.regs hh
    obtain ⟨hr', -, hout, -⟩ := consumeFrame_raceFree hr
    obtain ⟨h1, h2, h3, h4, h5, h6, h7, h8⟩ := ih (hs.consumeFrame hw hh hpos) (by simpa using hw) hr'
      (by simpa using pred_toNat hp) (by omega)
    rw [consumeFrame_eq_afterOneInput hr hh] at h1 h2 h3 h4 h5 h6 h7 h8 hout
    refine ⟨h1, h2, h3, h4, ?_, h6.trans hout, h7, fun n base k hk => ?_⟩
    · exact Working.trans (consumeFrame_eq_afterOneInput hr hh ▸ .consumeFrame s) h5
    · rw [resampleLoop_consume hk hh hpos, consumeFrame_eq_afterOneInput hr hh, h8 n base k hk]
      rfl

/-- The term of a frame looks at TIER alone, beside the accumulator and the gain (R241, R246). -/
theorem termValue_congr {s u : State} (h : u.regs.tier = s.regs.tier) (acc : Int) (gain : BitVec 16) :
    termValue u acc gain = termValue s acc gain := by
  unfold termValue
  rw [h]

/-- Settles O39: owed frames are consumed one by one, then the frame is produced from the window they have moved. -/
theorem owedFrameEntersTheOutput : Obligations.OwedFrameEntersTheOutput := by
  refine ⟨fun s n base hr hcan hn hp hh => ?_, fun s base hinv hr hcan hp hleft => ?_⟩
  · have hcan' : canResample (afterOneInput s) n base := hcan
    rw [exec_resample_eq_loop hcan, exec_resample_eq_loop hcan', ← consumeFrame_eq_afterOneInput hr hh]
    exact congrArg _ (resampleLoop_consume (k := 0) hn hh hp)
  · intro w
    have ⟨hwait, hready, hn24, hrange⟩ := hcan
    obtain ⟨hrun, hww, hwr, hwp, hwork, hwout, hph, hloop⟩ :=
      afterInputs_run (p := s.params) _ ⟨hinv, hready, rfl⟩ hwait hr rfl hleft
    have hcan' : canResample w 1 base := ⟨hww, hrun.ready, hn24, by rw [hrun.params]; exact hrange⟩
    have hexec : exec (.resample 1 base) s = .next (finishResample 1 1 (produced base w)) := by
      rw [← exec_resample_one hcan' hwp, exec_resample_eq_loop hcan, exec_resample_eq_loop hcan']
      exact congrArg _ (hloop 1 base 0 (by decide))
    have hwf := hrun.inv.mems.out.1
    obtain ⟨hL, hR⟩ := frameTerm_eq hrun.histValid
    obtain ⟨hphase, hpend⟩ := hrun.inv.regs.phaseStep_values hrun.valid hwp
    have hfixed : w.regs.tier = s.regs.tier ∧ w.regs.volL = s.regs.volL ∧ w.regs.volR = s.regs.volR ∧
        w.regs.c = s.regs.c ∧ w.regs.inc = s.regs.inc ∧ w.regs.wrap = s.regs.wrap := by
      rw [hwork.regs]
      exact ⟨rfl, rfl, rfl, rfl, rfl, rfl⟩
    obtain ⟨htier, hvolL, hvolR, hc, hinc, hwrap⟩ := hfixed
    rw [termValue_congr htier, hvolL] at hL
    rw [termValue_congr htier, hvolR, hc] at hR
    rw [hph, hinc, hwrap] at hphase hpend
    have hat : ∀ f c, w.outAt f c = s.outAt f c := fun f c => congrArg (Mem.read · _) hwout
    refine ⟨_, hexec, ?_, ?_, fun f c hc2 hf => ?_, hphase, hpend, ?_⟩
    · rw [← hL, ← hat]
      exact produced_outAt_same hwr hwf base (c := 0) (by decide)
    · rw [← hR, ← hat]
      exact produced_outAt_same hwr hwf base (c := 1) (by decide)
    · rw [← hat]
      exact produced_outAt_other hwr hwf hc2 hf
    · rw [produced_eq_raceFree hwr, ← hwork.responses]
      rfl

end Sys2Proof.Machine
end

section
/-! PROOFS. A RESAMPLE whose input is in the held block, and the OUT frames a RESAMPLE writes (43_commands.md R303,
R309, R310). -/

namespace Sys2Proof.Machine

open Claims

/-! ### What a RESAMPLE writes of OUT (R247, R309) -/

/-- Between round `j` and round `k` of a RESAMPLE at `base`, with no moves of other agents, OUT changes from what it
is in `s` to what it is in `u` in the frames of those rounds only. -/
structure OutKept (base j : Nat) (s : State) (k : Nat) (u : State) : Prop where
  races : u.races = []
  wf : u.out.wf = true
  rounds : j ≤ k
  outside : ∀ f c, c < 2 → (f < base + j ∨ base + k ≤ f) → u.outAt f c = s.outAt f c

namespace OutKept

variable {base j k : Nat} {s u v : State}

theorem start (hr : s.races = []) (hw : s.out.wf = true) (base k : Nat) : OutKept base k s k s :=
  ⟨hr, hw, le_rfl, fun _ _ _ _ => rfl⟩

/-- What writes no element of OUT. -/
theorem keep (h : OutKept base j s k u) (hr : v.races = []) (ho : v.out = u.out) : OutKept base j s k v := by
  obtain ⟨-, hw, hjk, hout⟩ := h
  refine ⟨hr, ho ▸ hw, hjk, fun f c hc hf => ?_⟩
  rw [← hout f c hc hf]
  exact congrArg (Mem.read · _) ho

theorem request (h : OutKept base j s k u) (e : PortEvent) : OutKept base j s k (agentsMove (portEvent e u)) := by
  rw [agentsMove_raceFree (s := portEvent e u) h.races]
  exact h.keep h.races rfl

theorem afterAnswer (h : OutKept base j s k u) (a : ProviderAnswer) (rest : List ProviderAnswer) :
    OutKept base j s k (afterAnswer a rest u) := by
  rw [afterAnswer_raceFree h.races]
  exact h.keep (by simpa using h.races) (by simp)

theorem produced (h : OutKept base j s k u) : OutKept base j s (k + 1) (produced (base + k) u) := by
  obtain ⟨hr, hw, hjk, hout⟩ := h
  refine ⟨?_, produced_out_wf hr hw _, by omega, fun f c hc hf => ?_⟩
  · rw [produced_eq_raceFree hr]
    exact hr
  · rw [produced_outAt_other hr hw hc (by omega)]
    exact hout f c hc (by omega)

theorem steps (n base j : Nat) (s : State) : LoopSteps n base (OutKept base j s) (OutKept base j s) where
  request _ _ _ h _ _ := h.request _
  hold _ _ a rest _ _ h _ _ _ _ _ _ := (h.afterAnswer a rest).keep (h.afterAnswer a rest).races rfl
  consume _ _ _ h _ _ := by
    obtain ⟨hr, -, ho, -⟩ := consumeFrame_raceFree h.races
    exact h.keep hr ho
  produce _ _ _ h _ := h.produced

end OutKept

/-! ### A RESAMPLE whose input is held (R303, R310) -/

/-- `u` is where a RESAMPLE that started at `s` stands after `j` frames of the block held there, with no contact to the
provider: the block is still held, or it is used up and released (R303). -/
structure FromHeld (s : State) (j : Nat) (u : State) : Prop where
  untouched : u.inp = s.inp ∧ u.waiting = s.waiting ∧ u.provider = s.provider ∧ u.races = s.races ∧
    u.observed = s.observed
  block : if j < heldInput s.regs ∨ heldInput s.regs = 0 then
      u.regs.held = s.regs.held ∧ u.regs.heldBase = s.regs.heldBase ∧ u.regs.heldFrames = s.regs.heldFrames ∧
        u.regs.inputIndex.toNat = s.regs.inputIndex.toNat + j ∧ u.events = s.events
    else
      u.regs.held = false ∧ u.regs.heldBase = 0 ∧ u.regs.heldFrames = 0 ∧ u.regs.inputIndex = 0 ∧
        u.events = s.events ++ [.releaseBuffer s.heldBlock]

namespace FromHeld

variable {n base k j : Nat} {s u : State}

theorem start (s : State) : FromHeld s 0 s := by
  refine ⟨⟨rfl, rfl, rfl, rfl, rfl⟩, ?_⟩
  rw [if_pos (by omega)]
  exact ⟨rfl, rfl, rfl, rfl, rfl⟩

/-- One more frame of the held block, which is released if that was its last (R303). -/
theorem consumeFrame (h : FromHeld s j u) (hr : s.races = []) (ha : Account n s k j 0 u) (hh : u.regs.held = true) :
    FromHeld s (j + 1) (consumeFrame u) := by
  obtain ⟨⟨hinp, hwait, hprov, hraces, hobs⟩, hblock⟩ := h
  obtain ⟨hr', hinp', -, hobs'⟩ := consumeFrame_raceFree (hraces.trans hr)
  obtain ⟨hlt, -⟩ := ha.inv.heldBlock hh
  have hleft : u.regs.heldFrames.toNat - u.regs.inputIndex.toNat + j = heldInput s.regs := by
    have := ha.left
    rwa [heldInput, if_pos hh] at this
  rw [if_pos (by omega)] at hblock
  obtain ⟨hheld, hbase, hframes, hindex, hevents⟩ := hblock
  refine ⟨⟨hinp'.trans hinp, by simpa using hwait, by simpa using hprov, hr'.trans hr.symm, hobs'.trans hobs⟩, ?_⟩
  have hnext := succ_toNat hlt
  have hlast : u.regs.inputIndex + 1 = u.regs.heldFrames ↔ ¬(j + 1 < heldInput s.regs ∨ heldInput s.regs = 0) := by
    rw [← BitVec.toNat_inj, hnext]
    omega
  rw [consumeFrame_regs, consumeFrame_events]
  dsimp only
  by_cases hl : u.regs.inputIndex + 1 = u.regs.heldFrames
  · rw [if_pos hl, if_pos hl, if_neg (hlast.1 hl), hevents, State.heldBlock, State.heldBlock, hbase, hframes]
    exact ⟨rfl, rfl, rfl, rfl, rfl⟩
  · rw [if_neg hl, if_neg hl, if_pos (by_contra fun hn => hl (hlast.2 hn))]
    exact ⟨hheld, hbase, hframes, hnext.trans (by omega), hevents⟩

theorem produced (h : FromHeld s j u) (hr : s.races = []) (f : Nat) : FromHeld s j (produced f u) := by
  obtain ⟨huntouched, hblock⟩ := h
  have hraces : u.races = [] := huntouched.2.2.2.1.trans hr
  rw [produced_eq_raceFree hraces]
  exact ⟨huntouched, hblock⟩

/-- The provider is not asked while the held block has all the input the output frames need (R302). -/
theorem steps (base : Nat) (hl : s.params.legal = true) (hr : s.races = [])
    (hused : owedBefore s.regs (n - 1) ≤ heldInput s.regs) :
    LoopSteps n base (fun k u => Working s u ∧ ∃ j, Account n s k j 0 u ∧ FromHeld s j u) (fun _ _ => False) where
  request k u hk h hh hp := by
    obtain ⟨-, j, ha, -⟩ := h
    have hneeded : owedBefore s.regs k ≤ owedBefore s.regs (n - 1) :=
      Nat.add_le_add_left (Nat.div_le_div_right (Nat.add_le_add_left (Nat.mul_le_mul_right _ (by omega)) _)) _
    have := ha.owed_now
    have := ha.left
    have : heldInput u.regs = 0 := if_neg (by simp [hh])
    omega
  hold _ _ _ _ _ _ h := h.elim
  consume k u hk h hh hp := by
    obtain ⟨hw, j, ha, hf⟩ := h
    exact ⟨hw.trans (.consumeFrame u), j + 1, ha.consumeFrame hl hk hh hp, hf.consumeFrame hr ha hh⟩
  produce k u hk h hp := by
    obtain ⟨hw, j, ha, hf⟩ := h
    exact ⟨hw.trans (.produced _ u), j, ha.produced hw hp _, hf.produced hr _⟩

end FromHeld

/-- Settles O40: the loop never asks the provider, and at its end the account of R310 gives PHASE, PENDING and the
block. -/
theorem resampleConsumesByTheFormula : Obligations.ResampleConsumesByTheFormula := by
  intro s n base hinv hr hcan hn
  dsimp only
  intro hused
  have ⟨_, hready, _, _⟩ := hcan
  have hsteps := (FromHeld.steps (n := n) base hinv.params hr hused).and (OutKept.steps n base 0 s)
  have hend := hsteps.rule.body (s := s)
    ⟨⟨.refl s, 0, .start hinv hready n, .start s⟩, .start hr hinv.mems.out.1 base 0⟩
  refine ⟨_, exec_resample_eq_loop hcan, ?_⟩
  generalize resampleLoop n base n s = t at hend
  cases hend with
  | full u hu =>
    obtain ⟨⟨hw, j, ha, huntouched, hblock⟩, hout⟩ := hu
    have hpend := ha.pending_atEnd hn
    obtain rfl : j = owedBefore s.regs (n - 1) := ha.atEnd hn rfl
    refine ⟨ha.phase, ?_, hblock, hout.outside, ?_⟩
    · show u.regs.pending.toNat = _
      unfold owedBefore at hpend
      omega
    · obtain ⟨hinp, hwait, hprov, hraces, hobs⟩ := huntouched
      have hu := hw.eq_update
      rw [hinp, hwait, hprov, hraces, hobs] at hu
      rw [hu, finishResample, decide_eq_false (lt_irrefl n)]
      rfl
  | wait _ _ _ hA => exact hA.1.elim
  | short _ _ _ _ _ hA => exact hA.1.elim
  | bad _ _ _ _ _ hA => exact hA.1.elim

end Sys2Proof.Machine
end

section
/-! PROOFS. The frames before the stop: a RESAMPLE that ends short beside one whose provider goes on (43_commands.md
R307). -/

namespace Sys2Proof.Machine

open Claims

/-! ### The end of a RESAMPLE and the frames before it (R307) -/

/-- `t` is where a RESAMPLE ends, or waits, that stands at `u` in round k with the provider's last answer there: it
writes the registers of the answer and of Fault, and answers k if it answers (R300, R312, R366). -/
structure EndsAt (k : Nat) (u t : State) : Prop where
  eq : t = { u with
    waiting := t.waiting, responses := t.responses
    regs := { u.regs with
      state := t.regs.state, faultCause := t.regs.faultCause, lastErr := t.regs.lastErr, result := t.regs.result
      short := t.regs.short } }
  answered : t.responses = u.responses ∨ ∃ st, t.responses = u.responses ++ [⟨st, BitVec.ofNat 32 k⟩]

/-- What the loop and the arrival of an answer keep holds just before the end. -/
theorem LoopEnd.endsAt {n base : Nat} {P : Nat → State → Prop} {t : State} (h : LoopEnd n base P P t)
    (hP : ∀ k u a rest, u.provider = a :: rest → P k u → P k (afterAnswer a rest u)) :
    ∃ k u, k ≤ n ∧ P k u ∧ EndsAt k u t := by
  cases h with
  | full u hu => exact ⟨n, u, le_rfl, hu, rfl, .inr ⟨.ok, rfl⟩⟩
  | wait k u hk hu => exact ⟨k, u, hk.le, hu, rfl, .inl rfl⟩
  | short k u a rest hk hu _ _ hp => exact ⟨k, _, hk.le, hP k u a rest hp hu, rfl, .inr ⟨.ok, rfl⟩⟩
  | bad k u a rest hk hu _ _ hp => exact ⟨k, _, hk.le, hP k u a rest hp hu, rfl, .inr ⟨.errFault, rfl⟩⟩

/-- A RESAMPLE resumed in round k writes no frame before base + k (R309). -/
theorem resumeResample_outAt {n base k : Nat} {u : State} (hr : u.races = []) (hw : u.out.wf = true) (hk : k < n)
    (hh : u.regs.held = false) (hp : 0 < u.regs.pending.toNat) (he : u.provider ≠ []) {f c : Nat} (hc : c < 2)
    (hf : f < base + k) : (resumeResample ⟨n, base, k⟩ u).outAt f c = u.outAt f c := by
  have hend := (OutKept.steps n base k u).rule.resume (w := ⟨n, base, k⟩) rfl rfl hk (.start hr hw base k) hh hp he
  obtain ⟨k', v, -, hv, hlast⟩ := hend.endsAt fun _ _ a rest _ h => h.afterAnswer a rest
  rw [hlast.eq]
  exact hv.outside f c hc (.inl hf)

/-- A RESAMPLE whose provider has more to give than `s` has does in each round what the one from `s` does (R307). -/
theorem withLater_steps (n base : Nat) (s : State) :
    LoopSteps n base
      (fun k u => ∀ later, later ≠ [] → u.waiting = none ∧
        resampleLoop n base (n - k) (u.withLater later) = resampleLoop n base n (s.withLater later))
      (fun k u => ∀ later, later ≠ [] → u.waiting = none ∧
        resumeResample ⟨n, base, k⟩ (u.withLater later) = resampleLoop n base n (s.withLater later)) where
  request k u hk h hh hp later hl := (resampleRule_withLater hl n base _).request k u hk (h later hl) hh hp
  hold k u a rest d hk h hh hp he hd h0 hr later hl :=
    (resampleRule_withLater hl n base _).hold k u a rest d hk (h later hl) hh hp he hd h0 hr
  consume k u hk h hh hp later hl := (resampleRule_withLater hl n base _).consume k u hk (h later hl) hh hp
  produce k u hk h hp later hl := (resampleRule_withLater hl n base _).produce k u hk (h later hl) hp

/-- Where a RESAMPLE that is given the answers `before`, one of exhaustion and `after` leaves `after` to come, the one
given `before` alone waits, and the one given any others beyond `before` goes on from there (R307, R312). -/
theorem waits_of_stopped {s : State} {n base : Nat} {stop : ProviderAnswer} {after : List ProviderAnswer}
    (hw : s.waiting = none) (hr : s.races = []) (hwf : s.out.wf = true)
    (ht : (resampleLoop n base n (s.withLater (stop :: after))).provider = after) :
    ∃ k u, k < n ∧ Working s u ∧ OutKept base 0 s k u ∧ u.regs.held = false ∧ 0 < u.regs.pending.toNat ∧
      u.provider = [] ∧ resampleLoop n base n s = { u with waiting := some ⟨n, base, k⟩ } ∧
      ∀ later, later ≠ [] →
        resumeResample ⟨n, base, k⟩ (u.withLater later) = resampleLoop n base n (s.withLater later) := by
  have hsteps := ((Working.steps n base s).and (OutKept.steps n base 0 s)).and (withLater_steps n base s)
  have hend := hsteps.rule.body (s := s) ⟨⟨.refl s, .start hr hwf base 0⟩, fun _ _ => ⟨hw, rfl⟩⟩
  have hnot : ∀ front, (resampleLoop n base n (s.withLater (stop :: after))).provider ≠ front ++ stop :: after := by
    intro front hfront
    have hlength := congrArg List.length (ht.symm.trans hfront)
    simp at hlength
    omega
  generalize hrun : resampleLoop n base n s = t at hend
  cases hend with
  | full u hu =>
    obtain ⟨-, hlater⟩ := hu
    obtain ⟨-, hu⟩ := hlater (stop :: after) (by simp)
    refine absurd ?_ (hnot u.provider)
    rw [← hu, Nat.sub_self]
    rfl
  | wait k u hk hu hh hp he =>
    obtain ⟨⟨hwork, hout⟩, hlater⟩ := hu
    exact ⟨k, u, hk, hwork, hout, hh, hp, he, rfl, fun later hl => (hlater later hl).2⟩
  | short k u a rest hk hu hh hp he hx =>
    obtain ⟨-, hlater⟩ := hu
    obtain ⟨-, hu⟩ := hlater (stop :: after) (by simp)
    refine absurd ?_ (hnot rest)
    rw [← hu, resumeResample_exhausted (rest := rest ++ stop :: after) (by rw [withLater_provider, he]; rfl) hx,
      finishResample_provider, afterAnswer_keeps]
  | bad k u a rest hk hu hh hp he hx =>
    obtain ⟨-, hlater⟩ := hu
    obtain ⟨-, hu⟩ := hlater (stop :: after) (by simp)
    obtain ⟨d, hd, h0, hout⟩ := hx
    refine absurd ?_ (hnot rest)
    rw [← hu, resumeResample_pastInp (s := u.withLater (stop :: after)) (rest := rest ++ stop :: after)
      (by rw [withLater_provider, he]; rfl) hd h0 (descriptorOutOfRange_eq_true.2 hout), raiseFault_provider,
      afterAnswer_keeps]

/-- Settles O47: both runs are followed beside the one that waits at the stop; after it frames from base + k on are
written. -/
theorem shortResultIsAPrefix : Obligations.ShortResultIsAPrefix := by
  intro s t t' n base k before after more stop hwf hr hcan hprov hx he hafter hresp hk he' f c hc hf
  have ⟨hwait, hready, hn24, hrange⟩ := hcan
  let s₀ : State := { s with provider := before }
  have hs : s = s₀.withLater (stop :: after) := by rw [State.withLater, ← hprov]
  have hrun : resampleLoop n base n (s₀.withLater (stop :: after)) = t := by
    rw [exec_resample_eq_loop hcan, hs] at he
    injection he
  have hrun' : resampleLoop n base n (s₀.withLater more) = t' := by
    rw [exec_resample_eq_loop (s := { s with provider := before ++ more }) hcan] at he'
    injection he'
  obtain ⟨k', u, hk', hwork, hout, hh, hp, hnone, hwaits, hlater⟩ :=
    waits_of_stopped (s := s₀) hwait hr hwf (by rw [hrun, hafter])
  have hstop := hlater (stop :: after) (by simp)
  rw [hrun, resumeResample_exhausted (rest := after) (by rw [withLater_provider, hnone]; rfl) hx] at hstop
  have htout : t.out = u.out := by
    rw [← hstop, finishResample_out, afterAnswer_raceFree (s := u.withLater (stop :: after)) hout.races]
    simp [State.withLater]
  have hkk : k' = k := by
    rw [← hstop, finishResample_responses, (Working.afterAnswer stop after _).responses] at hresp
    have hresp' : u.responses ++ [⟨.ok, BitVec.ofNat 32 k'⟩] = s.responses ++ [⟨.ok, BitVec.ofNat 32 k⟩] := hresp
    rw [hwork.responses] at hresp'
    exact count_inj (by omega) (by omega) (by simpa [s₀] using hresp')
  subst hkk
  rw [show t.outAt f c = u.outAt f c from congrArg (Mem.read · _) htout, ← hrun']
  by_cases hmore : more = []
  · rw [hmore, State.withLater, List.append_nil, hwaits]
    rfl
  · rw [← hlater more hmore]
    exact resumeResample_outAt (u := u.withLater more) hout.races hout.wf hk' hh hp (by simp [hmore]) hc hf

end Sys2Proof.Machine
end

section
/-! PROOFS. What a RESAMPLE leaves unchanged of OUT, INP, HIST and the registers (43_commands.md R302, R309;
20_memory.md R92). -/

namespace Sys2Proof.Machine

open Claims

/-! ### What a RESAMPLE writes of INP (R92) -/

theorem lastWrite_eq_none {ws : List (Nat × Sample)} {i : Nat} (h : ∀ v, (i, v) ∉ ws) : lastWrite ws i = none := by
  induction ws with
  | nil => rfl
  | cons w rest ih =>
    obtain ⟨j, v⟩ := w
    have hj : j ≠ i := fun hj => h v (hj ▸ List.mem_cons_self)
    simp only [lastWrite, ih fun v hv => h v (List.mem_cons_of_mem _ hv), if_neg hj]

/-- With no moves of other agents INP is what the answers `taken` since `s` have written (R92). -/
structure InpKept (s : State) (taken : List ProviderAnswer) (u : State) : Prop where
  races : u.races = []
  observed : u.observed = s.observed
  provider : s.provider = taken ++ u.provider
  inp : u.inp = (providerWrites (taken.flatMap fun a => a.writes) s).inp

namespace InpKept

variable {s u v : State} {taken : List ProviderAnswer}

theorem start (hr : s.races = []) : InpKept s [] s := ⟨hr, rfl, rfl, rfl⟩

/-- What neither contacts the provider nor writes INP. -/
theorem keep (h : InpKept s taken u) (hr : v.races = [] ∧ v.observed = u.observed)
    (hi : v.provider = u.provider ∧ v.inp = u.inp) : InpKept s taken v :=
  ⟨hr.1, hr.2.trans h.observed, hi.1 ▸ h.provider, hi.2.trans h.inp⟩

theorem request (h : InpKept s taken u) (e : PortEvent) : InpKept s taken (agentsMove (portEvent e u)) := by
  rw [agentsMove_raceFree (s := portEvent e u) h.races]
  exact h.keep ⟨h.races, rfl⟩ ⟨rfl, rfl⟩

theorem afterAnswer (h : InpKept s taken u) (hp : u.params = s.params) {a : ProviderAnswer}
    {rest : List ProviderAnswer} (he : u.provider = a :: rest) : InpKept s (taken ++ [a]) (afterAnswer a rest u) := by
  obtain ⟨hr, hobs, hprov, hinp⟩ := h
  rw [afterAnswer_raceFree hr]
  refine ⟨by simpa using hr, by simpa using hobs, by simp [hprov, he], ?_⟩
  rw [List.flatMap_append, providerWrites_append, List.flatMap_singleton]
  exact providerWrites_inp_congr _ (by simpa using hp) hinp

theorem consumeFrame (h : InpKept s taken u) : InpKept s taken (consumeFrame u) := by
  obtain ⟨hr, hi, -, ho⟩ := consumeFrame_raceFree h.races
  exact h.keep ⟨hr, ho⟩ ⟨by simp, hi⟩

theorem produced (h : InpKept s taken u) (f : Nat) : InpKept s taken (produced f u) := by
  rw [produced_eq_raceFree h.races]
  exact h.keep ⟨h.races, rfl⟩ ⟨rfl, rfl⟩

/-- An element that no answer wrote reads as before. -/
theorem read_unwritten (h : InpKept s taken u) (hw : s.inp.wf = true) {i : Nat}
    (hi : ∀ a ∈ taken, ∀ v, (i, v) ∉ a.writes) : u.inp.read i = s.inp.read i := by
  have hnone : lastWrite (taken.flatMap fun a => a.writes) i = none :=
    lastWrite_eq_none fun v hv => by
      obtain ⟨a, ha, hav⟩ := List.mem_flatMap.1 hv
      exact hi a ha v hav
  rw [h.inp, providerWrites_read _ hw, hnone]
  exact ite_self _

end InpKept

/-! ### What a RESAMPLE writes of HIST (R207, R208, R213) -/

/-- A running RESAMPLE's ring is in range (R210). -/
theorem Regs.Inv.ringInRange {p : Params} {s : State} (h : s.regs.Inv p) (hl : p.legal = true)
    (hr : s.regs.state = .ready) (hw : s.hist.wf = true) : s.RingInRange := by
  obtain ⟨hc, hv⟩ := h.ready_valid hr
  obtain ⟨hframes, hfull, hlow, hhigh⟩ := h.ring hv
  have hH := h.h_range hc
  have hroom := (ringFrames_range hl hH.2).1
  exact ⟨hw, hv, by omega, by omega, hlow, hhigh⟩

/-- A consumed frame stages frame IMPULSE + H; every other element is what counting IMPULSE up leaves (R207). -/
theorem consumeFrame_read {s : State} (h : s.RingInRange) (hr : s.races = []) {e : Nat}
    (he : e < ((advanceImpulse s).regs.impulse.toNat + s.regs.h.toNat) * s.regs.c.toNat ∨
      ((advanceImpulse s).regs.impulse.toNat + s.regs.h.toNat + 1) * s.regs.c.toNat ≤ e) :
    (consumeFrame s).hist.read e = (advanceImpulse s).hist.read e := by
  have hH : (advanceImpulse s).regs.h = s.regs.h := by rw [advanceImpulse_regs]
  have hC : (advanceImpulse s).channels = s.regs.c.toNat := by unfold State.channels; rw [advanceImpulse_regs]
  rw [consumeFrame_hist, readAdvance, readAgain_read (by simpa using hr) h.advanceImpulse_wf, hH, hC]
  refine if_neg fun hstaged => ?_
  rw [Nat.succ_mul] at he
  omega

theorem consumeFrame_impulse (s : State) : (consumeFrame s).regs.impulse = (advanceImpulse s).regs.impulse := by
  rw [consumeFrame_regs, readAdvance_impulse]
  dsimp only
  split <;> rfl

/-- What `j` consumed frames have left of HIST and IMPULSE since `s`: only elements in use change, and before a
compaction only the frames that the consumed input goes to (R207, R208, R213). -/
structure HistKept (s : State) (j : Nat) (u : State) : Prop where
  wf : u.hist.wf = true
  untouched : j = 0 → u.hist = s.hist ∧ u.regs.impulse = s.regs.impulse
  beyond : ∀ e, s.regs.histFrames.toNat * s.regs.c.toNat ≤ e → u.hist.read e = s.hist.read e
  uncompacted : s.regs.impulse.toNat + j < s.regs.ringFull.toNat →
    u.regs.impulse.toNat = s.regs.impulse.toNat + j ∧
    ∀ e, (e < (s.regs.impulse.toNat + s.regs.h.toNat + 1) * s.regs.c.toNat ∨
        (s.regs.impulse.toNat + s.regs.h.toNat + 1 + j) * s.regs.c.toNat ≤ e) → u.hist.read e = s.hist.read e

namespace HistKept

variable {s u v : State} {j : Nat}

theorem start (hw : s.hist.wf = true) : HistKept s 0 s :=
  ⟨hw, fun _ => ⟨rfl, rfl⟩, fun _ _ => rfl, fun _ => ⟨rfl, fun _ _ => rfl⟩⟩

/-- What writes neither HIST nor IMPULSE. -/
theorem keep (h : HistKept s j u) (hh : v.hist = u.hist) (hi : v.regs.impulse = u.regs.impulse) : HistKept s j v := by
  obtain ⟨hw, h0, hbeyond, hun⟩ := h
  rw [← hh] at hw h0 hbeyond hun
  rw [← hi] at h0 hun
  exact ⟨hw, h0, hbeyond, hun⟩

/-- One more frame consumed (R302): it is staged in frame IMPULSE + H, after a compaction where RING_FULL is reached. -/
theorem consumeFrame (h : HistKept s j u) (hring : u.RingInRange) (hr : u.races = []) (hw : Working s u)
    (hsize : s.regs.ringFull.toNat + s.regs.h.toNat = s.regs.histFrames.toNat) :
    HistKept s (j + 1) (consumeFrame u) := by
  obtain ⟨hwf, -, hbeyond, hun⟩ := h
  have hfixed : u.regs.h = s.regs.h ∧ u.regs.c = s.regs.c ∧ u.regs.ringFull = s.regs.ringFull := by
    rw [hw.regs]
    exact ⟨rfl, rfl, rfl⟩
  obtain ⟨hH, hC, hF⟩ := hfixed
  have hstaged := fun e => consumeFrame_read hring hr (e := e)
  have hcases := hring.advanceImpulse_cases
  obtain ⟨-, hlt⟩ := hring.advanceImpulse_range
  have hhigh := hring.high
  have hdouble := hring.full
  rw [hH, hC] at hstaged
  rw [hH, hF] at hcases
  rw [hF] at hlt hhigh
  rw [hH, hF] at hdouble
  refine ⟨consumeFrame_hist_induct (Mem.wf · = true) (fun _ i v hm => Mem.wf_write hm i v) u hwf,
    fun h0 => absurd h0 (Nat.succ_ne_zero j), fun e he => ?_, fun hroom => ?_⟩
  · rw [hstaged e (.inr (le_trans (Nat.mul_le_mul_right _ (by omega)) he)), ← hbeyond e he]
    obtain ⟨-, hhist⟩ | ⟨-, -, hhist⟩ := hcases <;> rw [hhist]
    rw [compact_read hwf, if_neg]
    rw [hH, State.channels, hC, Nat.not_lt]
    exact le_trans (Nat.mul_le_mul_right _ (by omega)) he
  · obtain ⟨himp, houtside⟩ := hun (by omega)
    obtain ⟨hnext, hhist⟩ | ⟨hfull, -⟩ := hcases
    · rw [consumeFrame_impulse]
      refine ⟨by omega, fun e he => ?_⟩
      have hstep := Nat.succ_mul (s.regs.impulse.toNat + s.regs.h.toNat + 1 + j) s.regs.c.toNat
      have hfirst : (s.regs.impulse.toNat + s.regs.h.toNat + 1) * s.regs.c.toNat ≤
          (s.regs.impulse.toNat + s.regs.h.toNat + 1 + j) * s.regs.c.toNat := Nat.mul_le_mul_right _ (by omega)
      have hframe : (advanceImpulse u).regs.impulse.toNat + s.regs.h.toNat =
          s.regs.impulse.toNat + s.regs.h.toNat + 1 + j := by omega
      rw [← Nat.add_assoc, hstep] at he
      rw [hstaged e (by rw [hframe, hstep]; omega), hhist]
      exact houtside e (by omega)
    · omega

end HistKept

/-! ### The frame of a RESAMPLE -/

/-- What is known of a RESAMPLE of n frames at work in round k of what it has left unchanged since `s`. -/
structure Framed (n base : Nat) (s : State) (k : Nat) (u : State) : Prop where
  working : Working s u
  out : OutKept base 0 s k u
  input : ∃ taken, InpKept s taken u
  hist : s.Inv → ∃ j h, Account n s k j h u ∧ HistKept s j u

namespace Framed

variable {n base k : Nat} {s u : State}

theorem start (n base : Nat) (hr : s.races = []) (hw : s.out.wf = true) (hready : s.regs.state = .ready) :
    Framed n base s 0 s :=
  ⟨.refl s, .start hr hw base 0, ⟨[], .start hr⟩,
    fun hinv => ⟨0, 0, .start hinv hready n, .start hinv.mems.hist.1⟩⟩

theorem request (h : Framed n base s k u) (m : Nat) :
    Framed n base s k (agentsMove (portEvent (.getNextBuffer m) u)) where
  working := h.working.trans (.request u _)
  out := h.out.request _
  input := h.input.imp fun _ hi => hi.request _
  hist hinv := by
    obtain ⟨j, i, ha, hh⟩ := h.hist hinv
    exact ⟨j, i, ha.request m, hh.keep (by simp) (by simp)⟩

theorem afterAnswer (h : Framed n base s k u) {a : ProviderAnswer} {rest : List ProviderAnswer}
    (he : u.provider = a :: rest) : Framed n base s k (afterAnswer a rest u) where
  working := h.working.trans (.afterAnswer a rest u)
  out := h.out.afterAnswer a rest
  input := by
    obtain ⟨taken, hi⟩ := h.input
    exact ⟨_, hi.afterAnswer h.working.params he⟩
  hist hinv := by
    obtain ⟨j, i, ha, hh⟩ := h.hist hinv
    exact ⟨j, i, ha.afterAnswer a rest, hh.keep (by rw [afterAnswer_keeps]) (by rw [afterAnswer_keeps])⟩

theorem holdBlock (h : Framed n base s k u) (hh : u.regs.held = false) {d : Descriptor} (h0 : d.frames ≠ 0)
    (hr : descriptorOutOfRange u d = false) : Framed n base s k (holdBlock d u) where
  working := h.working.trans (.holdBlock d u)
  out := h.out.keep h.out.races rfl
  input := h.input.imp fun _ hi => hi.keep ⟨hi.races, rfl⟩ ⟨rfl, rfl⟩
  hist hinv := by
    obtain ⟨j, i, ha, hk⟩ := h.hist hinv
    have hin := descriptorOutOfRange_eq_false.1 hr
    rw [h.working.params] at hin
    exact ⟨j, _, ha.holdBlock hh h0 hin, hk.keep rfl rfl⟩

theorem consumeFrame (h : Framed n base s k u) (hk : k < n) (hh : u.regs.held = true) (hp : 0 < u.regs.pending.toNat) :
    Framed n base s k (consumeFrame u) where
  working := h.working.trans (.consumeFrame u)
  out := by
    obtain ⟨hr, -, ho, -⟩ := consumeFrame_raceFree h.out.races
    exact h.out.keep hr ho
  input := h.input.imp fun _ hi => hi.consumeFrame
  hist hinv := by
    obtain ⟨j, i, ha, hk'⟩ := h.hist hinv
    have hring := ha.inv.ringInRange hinv.params ha.ready hk'.wf
    have hsize := (ha.inv.ring hring.valid).2.1
    rw [h.working.regs] at hsize
    exact ⟨j + 1, i, ha.consumeFrame hinv.params hk hh hp, hk'.consumeFrame hring h.out.races h.working hsize⟩

theorem produced (h : Framed n base s k u) (hp : u.regs.pending = 0) :
    Framed n base s (k + 1) (produced (base + k) u) where
  working := h.working.trans (.produced _ u)
  out := h.out.produced
  input := h.input.imp fun _ hi => hi.produced _
  hist hinv := by
    obtain ⟨j, i, ha, hh⟩ := h.hist hinv
    exact ⟨j, i, ha.produced h.working hp _, hh.keep (by simp [Machine.produced]) rfl⟩

theorem steps (n base : Nat) (s : State) : LoopSteps n base (Framed n base s) (Framed n base s) where
  request _ _ _ h _ _ := h.request _
  hold _ _ a rest d _ h hh _ he _ h0 hr :=
    (h.afterAnswer he).holdBlock (by rw [afterAnswer_keeps]; exact hh) h0
      (by rw [← hr]; exact descriptorOutOfRange_afterAnswer a rest _ d)
  consume _ _ hk h hh hp := h.consumeFrame hk hh hp
  produce _ _ _ h hp := h.produced hp

end Framed

/-- What a RESAMPLE that ended after k frames, or was refused, has left unchanged (R302, R309, R366). -/
structure FrameKept (base : Nat) (s : State) (k : Nat) (u : State) : Prop where
  working : Working s u
  out : OutKept base 0 s k u
  input : ∃ taken, InpKept s taken u
  hist : s.Inv → ∃ j, releasedFrames u.events + u.regs.inputIndex.toNat =
    releasedFrames s.events + s.regs.inputIndex.toNat + j ∧ HistKept s j u

/-- A RESAMPLE runs its loop or answers an error at once (R281, R301); either way it has left the rest unchanged. -/
theorem resample_frameKept {s t : State} {n base : Nat} (hw : s.out.wf = true) (hr : s.races = [])
    (he : exec (.resample n base) s = .next t) : ∃ k u, k ≤ n ∧ FrameKept base s k u ∧ EndsAt k u t := by
  have hrefused : ∀ st, ∃ k u, k ≤ n ∧ FrameKept base s k u ∧ EndsAt k u (answer st 0 s) := fun st =>
    ⟨0, s, Nat.zero_le n, ⟨.refl s, .start hr hw base 0, ⟨[], .start hr⟩,
      fun hinv => ⟨0, rfl, .start hinv.mems.hist.1⟩⟩, rfl, .inr ⟨st, rfl⟩⟩
  refine exec_induct (Q := fun t => ∃ k u, k ≤ n ∧ FrameKept base s k u ∧ EndsAt k u t) he (fun hacc => ?_)
    (hrefused _) (hrefused _)
  rw [show bodyOf (.resample n base) s = resampleBody n base s from rfl]
  rcases resampleBody_cases n base s with ⟨-, hbody⟩ | ⟨-, hbody⟩ <;> rw [hbody]
  · exact hrefused _
  · have hend := (Framed.steps n base s).rule.body (.start n base hr hw (acceptance_resample hacc))
    obtain ⟨k, u, hk, ⟨hwork, hout, hinput, hhist⟩, hlast⟩ := hend.endsAt fun _ _ _ _ hp h => h.afterAnswer hp
    exact ⟨k, u, hk, ⟨hwork, hout, hinput, fun hinv =>
      (hhist hinv).imp fun _ hj => hj.elim fun _ h => ⟨h.1.counted, h.2⟩⟩, hlast⟩

/-- Settles O45: what the loop keeps round by round still holds at its end, which writes no memory. -/
theorem resampleKeepsItsFrame : Obligations.ResampleFrame := by
  intro s t n base hwo hwi hr he
  obtain ⟨k, u, hk, ⟨hwork, hout, ⟨taken, hinp⟩, hhist⟩, hend, hans⟩ := resample_frameKept hwo hr he
  have hto : t.out = u.out := by rw [hend]
  have hti : t.inp = u.inp ∧ t.provider = u.provider := by rw [hend]; exact ⟨rfl, rfl⟩
  have hth : t.hist = u.hist ∧ t.regs.impulse = u.regs.impulse ∧ t.events = u.events ∧
      t.regs.inputIndex = u.regs.inputIndex := by rw [hend]; exact ⟨rfl, rfl, rfl, rfl⟩
  have houtAt : ∀ f c, t.outAt f c = u.outAt f c := fun f c => congrArg (Mem.read · _) hto
  refine ⟨fun f c hc hf => ?_, fun st k' hk' hresp hn f c hc hf => ?_, ⟨taken, ?_, ?_, fun i hi => ?_⟩,
    fun hinv => ?_, ?_⟩
  · rw [houtAt]
    exact hout.outside f c hc (by omega)
  · rw [houtAt]
    rw [hwork.responses, hresp] at hans
    rcases hans with hnone | ⟨st', hsome⟩
    · simp at hnone
    · have hkk : k' = k := count_inj hk' (by omega) (by simpa using congrArg (·.map Response.data) hsome)
      exact hout.outside f c hc (.inr (hkk ▸ hf))
  · rw [hti.2]
    exact hinp.provider
  · rw [hti.1]
    exact hinp.inp
  · rw [hti.1]
    exact hinp.read_unwritten hwi hi
  · obtain ⟨j, hcount, -, hnone, hbeyond, hun⟩ := hhist hinv
    obtain ⟨hh, hi, hev, hidx⟩ := hth
    rw [hh, hi, hev, hidx]
    exact ⟨j, hcount, hnone, hbeyond, hun⟩
  · have hu := hwork.eq_update
    rw [hout.races, ← hr, hinp.observed] at hu
    rw [hend, hu]

end Sys2Proof.Machine
end

section
/-! PROOFS. Two RESAMPLEs side by side, the one a part of the other, hints aside (43_commands.md R308). -/

namespace Sys2Proof.Machine

open Claims

/-! ### A state with the records of another run -/

/-- State `u` with the port events `events` and, of `s`, the responses, RESULT and SHORT: what a command that started
at `s` and has not ended has of them. -/
def State.withRecordsOf (s : State) (events : List PortEvent) (u : State) : State :=
  { u with
    events := events, responses := s.responses
    regs := { u.regs with result := s.regs.result, short := s.regs.short } }

section Records

variable (s : State) (events : List PortEvent)

/-- Other agents look at INP and OUT only (R93). -/
theorem agentAccess_withRecordsOf (a : AgentAccess) (u : State) :
    agentAccess a (s.withRecordsOf events u) = s.withRecordsOf events (agentAccess a u) := by
  cases a with
  | read r =>
    unfold agentAccess agentRead
    rw [apply_ite (State.withRecordsOf s events)]
    rfl
  | write w =>
    unfold agentAccess agentWrite
    rw [apply_ite (State.withRecordsOf s events)]
    cases w <;> rfl

theorem agentAccesses_withRecordsOf (as : List AgentAccess) (u : State) :
    agentAccesses as (s.withRecordsOf events u) = s.withRecordsOf events (agentAccesses as u) := by
  induction as generalizing u with
  | nil => rfl
  | cons a rest ih => rw [agentAccesses, agentAccess_withRecordsOf, ih, agentAccesses]

theorem agentsMove_withRecordsOf (u : State) :
    agentsMove (s.withRecordsOf events u) = s.withRecordsOf events (agentsMove u) := by
  have hr : (s.withRecordsOf events u).races = u.races := rfl
  unfold agentsMove
  rw [hr]
  cases u.races with
  | nil => rfl
  | cons batch rest => exact agentAccesses_withRecordsOf s events batch { u with races := rest }

theorem afterAnswer_withRecordsOf (a : ProviderAnswer) (rest : List ProviderAnswer) (u : State) :
    afterAnswer a rest (s.withRecordsOf events u) = s.withRecordsOf events (afterAnswer a rest u) := by
  unfold afterAnswer
  rw [← agentsMove_withRecordsOf, providerWrites_eq_agentAccesses, providerWrites_eq_agentAccesses,
    ← agentAccesses_withRecordsOf]
  rfl

theorem stageChannel_withRecordsOf (c : Nat) (u : State) :
    stageChannel c (s.withRecordsOf events u) = s.withRecordsOf events (stageChannel c u) := by
  unfold stageChannel
  rw [agentsMove_withRecordsOf]
  rfl

theorem readAdvance_withRecordsOf (u : State) :
    readAdvance (s.withRecordsOf events u) = s.withRecordsOf events (readAdvance u) := by
  have hadv : advanceImpulse (s.withRecordsOf events u) = s.withRecordsOf events (advanceImpulse u) := by
    unfold advanceImpulse
    rw [apply_ite (State.withRecordsOf s events)]
    rfl
  have hstage : ∀ n v, forUp n stageChannel (s.withRecordsOf events v) =
      s.withRecordsOf events (forUp n stageChannel v) := by
    intro n v
    induction n with
    | zero => rfl
    | succ m ih => rw [forUp, ih, stageChannel_withRecordsOf, forUp]
  unfold readAdvance
  rw [hadv]
  exact hstage _ _

theorem accumulate_withRecordsOf (f c : Nat) (term : Int) (u : State) :
    accumulate f c term (s.withRecordsOf events u) = s.withRecordsOf events (accumulate f c term u) := by
  unfold accumulate
  dsimp only
  rw [agentsMove_withRecordsOf, agentsMove_withRecordsOf]
  rfl

theorem produced_withRecordsOf (f : Nat) (u : State) :
    produced f (s.withRecordsOf events u) = s.withRecordsOf events (produced f u) := by
  have hterm : (s.withRecordsOf events u).frameTerm = u.frameTerm := rfl
  rw [produced_eq_addFrame, produced_eq_addFrame, addFrame, addFrame, hterm, accumulate_withRecordsOf,
    accumulate_withRecordsOf, agentsMove_withRecordsOf]
  rfl

end Records

/-! ### Two runs side by side (R308) -/

/-- `v` is where a RESAMPLE from `s` stands that has not ended, `u` where one stands that does the same, hints aside. -/
structure Beside (s u v : State) : Prop where
  eq : v = s.withRecordsOf v.events u
  events : List.Forall₂ sameButHint v.events u.events

namespace Beside

variable {s u v : State}

theorem sameButHint_refl (e : PortEvent) : sameButHint e e := by
  cases e with
  | getNextBuffer m => exact trivial
  | releaseBuffer d => exact rfl

theorem refl (s : State) : Beside s s s := ⟨rfl, List.forall₂_same.2 fun e _ => sameButHint_refl e⟩

/-- What looks at none of the records, and makes no port event, keeps two runs side by side. -/
theorem map {f : State → State} (h : Beside s u v) (he : (f u).events = u.events)
    (hf : ∀ events w, f (s.withRecordsOf events w) = s.withRecordsOf events (f w)) : Beside s (f u) (f v) := by
  obtain ⟨heq, hevents⟩ := h
  have hv : f v = s.withRecordsOf v.events (f u) := by rw [← hf, ← heq]
  have hve : (f v).events = v.events := by rw [hv]; rfl
  exact ⟨by rw [hve]; exact hv, by rw [hve, he]; exact hevents⟩

/-- Two port events that agree but for a hint keep them side by side. -/
theorem portEvent (h : Beside s u v) {e e' : PortEvent} (he : sameButHint e' e) :
    Beside s (portEvent e u) (portEvent e' v) where
  eq := by
    rw [h.eq]
    rfl
  events := List.rel_append h.events (.cons he .nil)

theorem request (h : Beside s u v) (m m' : Nat) : Beside s
    (agentsMove (Machine.portEvent (.getNextBuffer m) u)) (agentsMove (Machine.portEvent (.getNextBuffer m') v)) :=
  (h.portEvent (e := .getNextBuffer m) (e' := .getNextBuffer m') trivial).map (by simp) (agentsMove_withRecordsOf s)

theorem afterAnswer (h : Beside s u v) (a : ProviderAnswer) (rest : List ProviderAnswer) :
    Beside s (afterAnswer a rest u) (afterAnswer a rest v) :=
  h.map (by rw [afterAnswer_keeps]) fun events => afterAnswer_withRecordsOf s events a rest

theorem holdBlock (h : Beside s u v) (d : Descriptor) : Beside s (holdBlock d u) (holdBlock d v) :=
  h.map rfl fun _ _ => rfl

theorem produced (h : Beside s u v) (f : Nat) : Beside s (produced f u) (produced f v) :=
  h.map (by simp [Machine.produced]) fun events => produced_withRecordsOf s events f

theorem regs (h : Beside s u v) :
    v.regs = { u.regs with result := s.regs.result, short := s.regs.short } := by
  rw [h.eq]
  rfl

/-- The registers that decide what a RESAMPLE does next, and the answers it can take, are the same. -/
theorem next (h : Beside s u v) : v.provider = u.provider ∧ v.regs.held = u.regs.held ∧
    v.regs.pending = u.regs.pending ∧ ∀ d, descriptorOutOfRange v d = descriptorOutOfRange u d := by
  rw [h.eq]
  exact ⟨rfl, rfl, rfl, fun _ => rfl⟩

/-- The blocks released are the same (R303). -/
theorem releaseHeld (h : Beside s u v) : Beside s (releaseHeld u) (releaseHeld v) := by
  have hblock : v.heldBlock = u.heldBlock := by
    rw [State.heldBlock, h.regs]
    rfl
  have hevent := h.portEvent (e := .releaseBuffer u.heldBlock) (e' := .releaseBuffer v.heldBlock) hblock
  exact hevent.map (f := fun w => { w with regs := w.regs.dropHeld }) rfl fun _ _ => rfl

theorem consumeFrame (h : Beside s u v) : Beside s (consumeFrame u) (consumeFrame v) := by
  have hread : Beside s (readAdvance u) (readAdvance v) := h.map (by simp) (readAdvance_withRecordsOf s)
  have hregs := hread.regs
  unfold Machine.consumeFrame
  generalize readAdvance u = x at hread hregs
  generalize readAdvance v = y at hread hregs
  have hcount : Beside s { x with regs := x.regs.countInput } { y with regs := y.regs.countInput } :=
    hread.map (f := fun w => { w with regs := w.regs.countInput }) rfl fun _ _ => rfl
  have hlast : y.regs.countInput.inputIndex = y.regs.countInput.heldFrames ↔
      x.regs.countInput.inputIndex = x.regs.countInput.heldFrames := by
    rw [hregs]
    exact Iff.rfl
  dsimp only
  by_cases hl : x.regs.countInput.inputIndex = x.regs.countInput.heldFrames
  · rw [if_pos hl, if_pos (hlast.2 hl)]
    exact hcount.releaseHeld
  · rw [if_neg hl, if_neg (mt hlast.1 hl)]
    exact hcount

/-- Of a run that has ended the other one differs in what the answer wrote. -/
theorem finish (h : Beside s u v) (n k : Nat) : Beside s (finishResample n k u) v where
  eq := by
    conv_lhs => rw [h.eq]
    rfl
  events := h.events

end Beside

/-- A RESAMPLE of n frames at B + o that starts at `u₀` does what one of N frames at B from `s` does from its round o
on, hints aside (R308); `goal` is where that one ends. -/
theorem beside_steps {n N B o : Nat} (hN : o + n ≤ N) (s goal : State) :
    LoopSteps n (B + o)
      (fun k u => u.waiting = none ∧ ∃ v, Beside s u v ∧ resampleLoop N B (N - (o + k)) v = goal)
      (fun k u => ∃ v, Beside s u v ∧ (v.provider ≠ [] → resumeResample ⟨N, B, o + k⟩ v = goal)) where
  request k u hk h hh hp := by
    obtain ⟨-, v, hv, hgoal⟩ := h
    obtain ⟨-, hheld, hpend, -⟩ := hv.next
    refine ⟨_, hv.request _ (hint N (o + k) v.regs), fun hanswered => ?_⟩
    rw [← hgoal, resampleLoop_request (by omega) (hheld.trans hh) (by rwa [hpend]) (by simpa using hanswered)]
  hold k u a rest d hk h hh hp he hd h0 hr := by
    obtain ⟨v, hv, hgoal⟩ := h
    obtain ⟨hprov, -, -, hrange⟩ := hv.next
    have hpv : v.provider = a :: rest := hprov.trans he
    refine ⟨by rw [holdBlock_waiting, afterAnswer_keeps], _, (hv.afterAnswer a rest).holdBlock d, ?_⟩
    rw [← hgoal (by simp [hpv]), resumeResample_hold hpv hd h0 ((hrange d).trans hr)]
  consume k u hk h hh hp := by
    obtain ⟨hw, v, hv, hgoal⟩ := h
    obtain ⟨-, hheld, hpend, -⟩ := hv.next
    refine ⟨by simpa using hw, _, hv.consumeFrame, ?_⟩
    rw [← hgoal, resampleLoop_consume (by omega) (hheld.trans hh) (by rwa [hpend])]
  produce k u hk h hp := by
    obtain ⟨hw, v, hv, hgoal⟩ := h
    obtain ⟨-, -, hpend, -⟩ := hv.next
    refine ⟨by simpa [produced] using hw, _, hv.produced _, ?_⟩
    rw [← hgoal, resampleLoop_produce (k := o + k) (by omega) (hpend.trans hp), Nat.add_assoc, Nat.add_assoc]

/-- A RESAMPLE of n frames that ran to its end, beside one of N frames from its round o on. -/
theorem beside_of_full {n N B o : Nat} {s goal u₀ v₀ t : State} (hN : o + n ≤ N) (hcan : canResample u₀ n (B + o))
    (hv : Beside s u₀ v₀) (hgoal : resampleLoop N B (N - o) v₀ = goal)
    (he : exec (.resample n (B + o)) u₀ = .next t)
    (ht : t.responses = u₀.responses ++ [⟨.ok, BitVec.ofNat 32 n⟩]) :
    ∃ u v, t = finishResample n n u ∧ u.waiting = none ∧ Working u₀ u ∧ Beside s u v ∧
      resampleLoop N B (N - (o + n)) v = goal := by
  have ⟨hw, _, hn24, _⟩ := hcan
  have hsteps := (Working.steps n (B + o) u₀).and (beside_steps (n := n) (B := B) hN s goal)
  have hend := hsteps.rule.body (s := u₀) ⟨.refl u₀, hw, v₀, hv, hgoal⟩
  obtain rfl : resampleLoop n (B + o) n u₀ = t := by
    rw [exec_resample_eq_loop hcan] at he
    injection he
  obtain ⟨u, ⟨hwork, hwu, v, hv, hgoal⟩, hfull⟩ :=
    hend.full_of_response (rs := u₀.responses) (fun _ _ h => h.1.responses) hn24 ht
  exact ⟨u, v, hfull, hwu, hwork, hv, hgoal⟩

/-- Settles O46: the run of n1 + n2 frames is followed beside the first command, then beside the second. -/
theorem resampleSplitsAnywhere : Obligations.ResampleSplitsAnywhere := by
  intro s t1 t2 n1 n2 b hcan he1 ht1 he2 ht2
  have ⟨hwait, hready, hn24, hrange⟩ := hcan
  obtain ⟨u1, v1, rfl, hw1, hwork1, hv1, hgoal1⟩ := beside_of_full (n := n1) (N := n1 + n2) (B := b) (o := 0)
    (by omega) ⟨hwait, hready, by omega, by omega⟩ (.refl s) rfl he1 ht1
  obtain ⟨-, -, -, hst, -⟩ := hwork1.fixed
  have hcan2 : canResample (finishResample n1 n1 u1) n2 (b + n1) :=
    ⟨hw1, hst.trans hready, by omega, by rw [finishResample_params, hwork1.params]; omega⟩
  rw [Nat.zero_add] at hgoal1
  obtain ⟨u2, v2, rfl, -, -, hv2, hgoal2⟩ := beside_of_full (n := n2) (N := n1 + n2) (B := b) (o := n1)
    le_rfl hcan2 (hv1.finish n1 n1) hgoal1 he2 ht2
  refine ⟨_, exec_resample_eq_loop hcan, ?_⟩
  have hgoal : resampleLoop (n1 + n2) b (n1 + n2) s = finishResample (n1 + n2) (n1 + n2) v2 := by
    rw [Nat.sub_self] at hgoal2
    exact hgoal2.symm
  rw [hgoal]
  have hv := hv2.eq
  refine ⟨?_, hv2.events, ?_⟩ <;> generalize v2.events = events at hv <;> subst hv
  · rfl
  · unfold finishResample
    rw [decide_eq_false (lt_irrefl (n1 + n2)), decide_eq_false (lt_irrefl n2)]
    rfl

end Sys2Proof.Machine
end

section
/-! PROOFS. Errors and exceptions (60_exceptions.md): what an error answer writes (R351), the ways out of Fault (R367),
and the steps that run no command (R380, R312, R395). -/

namespace Sys2Proof.Machine

open Claims

/-! ### Error answers (R351) -/

/-- From `s` to `t` an error answer, if that is what is sent, writes LAST_ERR and nothing else. -/
def RefusesOnly (s t : State) : Prop :=
  ∀ st d, t.responses = s.responses ++ [⟨st, d⟩] → st ≠ .ok → t = refuses st d s

/-- `t` is in the Fault of a provider violation, the answer being {st, d} (R366). -/
def RaisedFault (st : Status) (d : Word) (t : State) : Prop :=
  st = .errFault ∧ t.regs.state = .fault ∧ t.regs.faultCause = .providerRange ∧ t.regs.result = d ∧
    t.regs.short = true ∧ t.regs.lastErr = .errFault

/-- From `s` to `t` an error answer, if that is what is sent, is that of a raised Fault. -/
def RaisesOnly (s t : State) : Prop :=
  ∀ st d, t.responses = s.responses ++ [⟨st, d⟩] → st ≠ .ok → RaisedFault st d t

/-- A step sends one response only, so its status and data are determined. -/
theorem response_eq {s t : State} {st st' : Status} {d d' : Word} (h : t.responses = s.responses ++ [⟨st, d⟩])
    (h' : t.responses = s.responses ++ [⟨st', d'⟩]) : st = st' ∧ d = d' := by
  simpa using h.symm.trans h'

/-- What answers OK sends no error. -/
theorem RefusesOnly.of_ok {s t : State} {d : Word} (h : t.responses = s.responses ++ [⟨.ok, d⟩]) :
    RefusesOnly s t :=
  fun _ _ hr hst => absurd (response_eq hr h).1 hst

theorem RefusesOnly.answer (st : Status) (d : Word) (s : State) : RefusesOnly s (answer st d s) := by
  intro st' d' hr hst
  obtain ⟨rfl, rfl⟩ := response_eq hr (answer_responses st d s)
  exact answer_error hst _ s

theorem RaisesOnly.of_ok {s t : State} {d : Word} (h : t.responses = s.responses ++ [⟨.ok, d⟩]) : RaisesOnly s t :=
  fun _ _ hr hst => absurd (response_eq hr h).1 hst

theorem RaisesOnly.of_unanswered {s t : State} (h : t.responses = s.responses) : RaisesOnly s t :=
  fun _ _ hr _ => absurd (h.symm.trans hr) (by simp)

/-- Fault entry answers {ERR_FAULT, k} with RESULT = k (R366). -/
theorem RaisesOnly.raiseFault {s u : State} (h : u.responses = s.responses) (k : Nat) :
    RaisesOnly s (raiseFault .providerRange k u) := by
  intro st d hr _
  obtain ⟨rfl, rfl⟩ := response_eq hr ((raiseFault_responses _ _ _).trans (by rw [h]))
  exact ⟨rfl, rfl, rfl, rfl, rfl, rfl⟩

/-- A RESAMPLE that runs sends no error but that of a raised Fault (R300, R366). -/
theorem LoopEnd.raisesOnly {n base : Nat} {s t : State}
    (h : LoopEnd n base (fun _ => Working s) (fun _ => Working s) t) : RaisesOnly s t := by
  cases h with
  | full u hu => exact .of_ok (by rw [finishResample_responses, hu.responses])
  | wait k u _ hu => exact .of_unanswered hu.responses
  | short k u a rest _ hu =>
    exact .of_ok (by rw [finishResample_responses, (hu.trans (.afterAnswer a rest u)).responses])
  | bad k u a rest _ hu => exact .raiseFault (hu.trans (.afterAnswer a rest u)).responses k

/-- Nor does one that goes on after a wait (R312). -/
theorem resumeResample_raisesOnly (w : Waiting) (s : State) : RaisesOnly s (resumeResample w s) := by
  by_cases hp : s.provider = []
  · rw [resumeResample, hp]
    exact .of_unanswered (by simp)
  rw [resume_loop rfl rfl hp]
  rcases receiveAnswer_cases w.count w.base w.k s with ⟨hnil, -⟩ | ⟨a, rest, t, -, rfl, hc⟩
  · exact absurd hnil hp
  have hwork := Working.afterAnswer a rest s
  rcases hc with ⟨-, he⟩ | ⟨d, -, -, -, he⟩ | ⟨d, -, -, -, he⟩ <;> rw [he]
  · exact .of_ok (by rw [finishResample_responses, hwork.responses])
  · exact .raiseFault hwork.responses w.k
  · exact ((Working.steps w.count w.base s).rule.loop _ _ (Nat.sub_le _ _) (hwork.trans (.holdBlock d _))).raisesOnly

/-- The error answer of command `i`: a refusal, or that of the Fault that a RESAMPLE in Ready has raised. -/
def RefusesOrRaises (i : Instr) (s t : State) : Prop :=
  RefusesOnly s t ∨ (∃ n b, i = .resample n b) ∧ s.regs.state = .ready ∧ RaisesOnly s t

/-- Every command but RESAMPLE refuses with LAST_ERR alone written; so does RESAMPLE, or it has run and raised Fault. -/
theorem exec_refusesOrRaises {i : Instr} {s t : State} (he : exec i s = .next t) : RefusesOrRaises i s t := by
  refine exec_induct (Q := RefusesOrRaises i s) he (fun ha => ?_) (.inl (.answer _ _ _)) (.inl (.answer _ _ _))
  cases i with
  | nop => exact .inl (.answer _ _ _)
  | create tier chan bits rate =>
    rw [bodyOf]
    rcases createBody_cases tier chan bits rate s with he | ⟨t, -, -, -, -, he⟩ <;> rw [he]
    · exact .inl (.answer _ _ _)
    · exact .inl (.of_ok (d := 0) (by simp))
  | setRate rate =>
    rw [bodyOf]
    rcases setRateBody_cases rate s with he | ⟨-, -, he⟩ | ⟨-, -, k, -, he⟩ | ⟨-, -, he⟩ <;> rw [he]
    · exact .inl (.answer _ _ _)
    · exact .inl (.answer _ _ _)
    · have hr : (redesigned k rate.toNat s).responses = s.responses := by simp
      exact .inl (.of_ok (by rw [finishRate_responses, hr]))
    · exact .inl (.of_ok (finishRate_responses _ _))
  | setVolume l r => exact .inl (.of_ok rfl)
  | resample n base =>
    rw [bodyOf]
    rcases resampleBody_cases n base s with ⟨-, he⟩ | ⟨-, he⟩ <;> rw [he]
    · exact .inl (.answer _ _ _)
    · have hend := (Working.steps n base s).rule.body (.refl s)
      exact .inr ⟨⟨n, base, rfl⟩, acceptance_resample ha, hend.raisesOnly⟩
  | coefWrite start value =>
    rw [bodyOf]
    rcases coefWriteBody_cases start value s with he | ⟨idx, -, -, -, he⟩ <;> rw [he]
    · exact .inl (.answer _ _ _)
    · exact .inl (.of_ok rfl)
  | coefCommit =>
    rw [bodyOf]
    rcases coefCommitBody_cases s with ⟨-, he⟩ | ⟨-, he⟩ <;> rw [he]
    · exact .inl (.answer _ _ _)
    · exact .inl (.of_ok rfl)
  | reset =>
    rw [bodyOf, resetBody_eq]
    exact .inl (.of_ok (d := 0) (by simp))
  | readReg n =>
    rw [bodyOf]
    rcases readRegBody_cases n s with ⟨v, -, he⟩ | he <;> rw [he] <;> exact .inl (.answer _ _ _)

theorem answerIllegal_refusesOnly (p : Packet) (s : State) : RefusesOnly s (answerIllegal p s) := by
  unfold answerIllegal
  split <;> exact .answer _ _ _

/-- A step refuses the packet it takes with LAST_ERR alone written, or a RESAMPLE has raised Fault. -/
theorem step_refusesOrRaises {s t : State} (hstep : step s = .next t) :
    RefusesOnly { s with host := s.host.tail } t ∨ RaisesOnly s t := by
  obtain ⟨w, -, rfl⟩ | ⟨-, -, rfl⟩ | ⟨-, hact⟩ := step_cases hstep
  · exact .inr (resumeResample_raisesOnly w s)
  · exact .inr (.of_unanswered rfl)
  · cases hact with
    | packet p i rest hh _ he =>
      rw [hh]
      exact (exec_refusesOrRaises he).imp_right fun h => h.2.2
    | illegal p e rest hh _ he =>
      rw [hh, he]
      exact .inl (answerIllegal_refusesOnly p _)
    | write w rest _ _ he => exact .inr (.of_unanswered (by simp [he]))
    | read r rest _ _ he => exact .inr (.of_unanswered (by simp [he]))

/-- The commands of the two opcodes that clear LAST_ERR (R285, R320). -/
theorem opcode_createOrReset {i : Instr} (h : i.opcode = .create ∨ i.opcode = .reset) :
    i = .reset ∨ ∃ tier chan bits outRate, i = .create tier chan bits outRate := by
  cases i with
  | create tier chan bits rate => exact .inr ⟨tier, chan, bits, rate, rfl⟩
  | reset => exact .inl rfl
  | _ => simp [Instr.opcode] at h

/-- Settles O10: a command's error answer, a step's, and LAST_ERR in the command's frame. -/
theorem refusedCommandChangesOnlyLastErr : Obligations.RefusedCommandChangesOnlyLastErr := by
  refine ⟨fun i s t st d he hr hst => ?_, fun s t st d hstep hr hst => ?_, fun i s t he hs ht => ?_⟩
  · rcases exec_refusesOrRaises he with h | ⟨hi, hready, h⟩
    · have ht := h st d hr hst
      exact ⟨by rw [ht]; rfl, .inl ht⟩
    · obtain ⟨rfl, hf, hc, hres, hsh, hl⟩ := h st d hr hst
      exact ⟨hl, .inr ⟨hi, hready, rfl, hf, hc, hres, hsh⟩⟩
  · rcases step_refusesOrRaises hstep with h | h
    · have ht := h st d hr hst
      exact ⟨by rw [ht]; rfl, .inl ht⟩
    · obtain ⟨rfl, hf, hc, hres, hsh, hl⟩ := h st d hr hst
      exact ⟨hl, .inr ⟨rfl, hf, hc, hres, hsh⟩⟩
  · rcases (exec_frame he).lastErr with hl | ⟨hop, -⟩ | ⟨st, d, hst, -, hl⟩
    · exact absurd (hl.symm.trans ht) hs
    · exact opcode_createOrReset hop
    · exact absurd (hl.symm.trans ht) hst

/-! ### The ways out of Fault (R367) -/

/-- No command but RESET and CREATE has a listed move out of Fault (R282). -/
theorem exec_leavesFault {i : Instr} {s t : State} (hf : s.regs.state = .fault) (he : exec i s = .next t)
    (ht : t.regs.state ≠ .fault) : i = .reset ∨ ∃ tier chan bits outRate, i = .create tier chan bits outRate := by
  have hmove := stateTransitionsAreThoseListed i s t he (by rwa [hf])
  rw [hf] at hmove
  cases i with
  | create tier chan bits rate => exact .inr ⟨tier, chan, bits, rate, rfl⟩
  | reset => exact .inl rfl
  | _ => simp at hmove

/-- A CREATE that leaves Fault has configured the block, and so has cleared the error registers (R285, R321). -/
theorem createBody_clearsErrors {tier chan bits : Nat} {rate : Int} {s : State} (hf : s.regs.state = .fault)
    (hne : (createBody tier chan bits rate s).regs.state ≠ .fault) :
    (createBody tier chan bits rate s).regs.faultCause = .none ∧
      (createBody tier chan bits rate s).regs.lastErr = .ok := by
  rcases createBody_cases tier chan bits rate s with he | ⟨c, -, -, -, -, he⟩ <;> rw [he] at hne ⊢
  · exact absurd hf hne
  · exact ⟨rfl, rfl⟩

/-- The register map is full below 0x14 (R58). -/
theorem regValue_mapped (s : State) {n : Nat} (h : n < 0x14) : ∃ d, regValue s n = some d := by
  interval_cases n <;> exact ⟨_, rfl⟩

/-- Settles O53: the moves of STATE out of Fault, what the two commands clear, and the column Fault of the acceptance
table. -/
theorem onlyResetAndCreateLeaveFault : Obligations.OnlyResetAndCreateLeaveFault := by
  intro i s hf
  refine ⟨fun t he ht => ⟨exec_leavesFault hf he ht, ?_⟩, exec_refusedInFault hf, ?_, ?_⟩
  · obtain rfl | ⟨tier, chan, bits, rate, rfl⟩ := exec_leavesFault hf he ht
    · rw [exec_accepted rfl, bodyOf, resetBody_eq] at he
      cases he
      exact ⟨rfl, rfl⟩
    · rw [exec_accepted rfl, bodyOf] at he
      cases he
      exact createBody_clearsErrors hf ht
  · rintro rfl
    rfl
  · rintro n rfl hn
    obtain ⟨d, hd⟩ := regValue_mapped s hn
    exact ⟨d, exec_readReg_some hd⟩

/-! ### The steps that run no command (R380, R312, R395) -/

/-- A RESAMPLE that has no answer waits on, other agents moving (R312, R93). -/
theorem step_waits {s : State} {w : Waiting} (hw : s.waiting = some w) (hp : s.provider = []) :
    step s = .next (agentsMove s) := by
  unfold step nextAction resumeResample
  rw [hw, hp]

theorem agentsMove_batch {s : State} {batch : List AgentAccess} {rest : List (List AgentAccess)}
    (h : s.races = batch :: rest) : agentsMove s = agentAccesses batch { s with races := rest } := by
  rw [agentsMove, h]

/-- An access of another agent does not look at the accesses to come (R93). -/
theorem agentAccess_setRaces (a : AgentAccess) (races : List (List AgentAccess)) (s : State) :
    agentAccess a { s with races := races } = { agentAccess a s with races := races } := by
  cases a with
  | read r =>
    unfold agentAccess agentRead
    dsimp only
    split <;> rfl
  | write w =>
    unfold agentAccess agentWrite
    dsimp only
    split
    · cases w <;> rfl
    · rfl

section Wait

variable {s : State} {w : Waiting} {rest : List (List AgentAccess)} (hw : s.waiting = some w) (hp : s.provider = [])
include hw hp

/-- A batch of accesses in a wait is its first access, and then, a step later, the others (R93). -/
theorem step_splitsBatch {a : AgentAccess} {more : List AgentAccess} (hr : s.races = (a :: more) :: rest) :
    ∃ t, step { s with races := [a] :: more :: rest } = .next t ∧ step s = step t := by
  refine ⟨_, step_waits hw hp, ?_⟩
  have hfirst : agentsMove { s with races := [a] :: more :: rest } = { agentAccess a s with races := more :: rest } :=
    agentAccess_setRaces a (more :: rest) s
  have hrest : agentsMove s = agentsMove { agentAccess a s with races := more :: rest } :=
    calc agentsMove s = agentAccesses more (agentAccess a { s with races := rest }) := agentsMove_batch hr
      _ = agentAccesses more { agentAccess a s with races := rest } := by rw [agentAccess_setRaces]
  rw [hfirst, step_waits hw hp, hrest, step_waits (w := w) (by simpa using hw) (by simpa using hp)]

/-- One access in a wait is all the step makes (R93). -/
theorem step_oneAccess {a : AgentAccess} (hr : s.races = [a] :: rest) :
    step s = .next (agentAccess a { s with races := rest }) := by
  rw [step_waits hw hp, agentsMove_batch hr]
  rfl

theorem step_oneRead {r : AgentRead} (hr : s.races = [.read r] :: rest) (hin : r.inRange s.params = true) :
    step s = .next (({ s with races := rest } : State).withObserved (s.look r)) := by
  rw [step_oneAccess hw hp hr]
  exact congrArg _ (agentRead_inRange (s := { s with races := rest }) hin)

end Wait

section HostAccess

variable {s : State} {rest : List HostAction} (hw : s.waiting = none)
include hw

/-- With nothing waiting a step makes the host's next write, if the element exists (R50, R87). -/
theorem step_write {w : AgentWrite} (hh : s.host = .write w :: rest) :
    step s = if w.inRange s.params then .next (agentWrite w { s with host := rest }) else .fault .noSuchElement := by
  unfold step nextAction hostStep
  rw [hw, hh]

/-- And so with the host's next read (R395, R87). -/
theorem step_read {r : AgentRead} (hh : s.host = .read r :: rest) :
    step s = if r.inRange s.params then .next (agentRead r { s with host := rest }) else .fault .noSuchElement := by
  unfold step nextAction hostStep
  rw [hw, hh]

theorem step_read_inRange {r : AgentRead} (hh : s.host = .read r :: rest) (hin : r.inRange s.params = true) :
    step s = .next (({ s with host := rest } : State).withObserved (s.look r)) := by
  rw [step_read hw hh, if_pos hin]
  exact congrArg _ (agentRead_inRange (s := { s with host := rest }) hin)

end HostAccess

section InRange

variable {p : Params} {i f c : Nat}

theorem inRange_write_inp {v : Sample} : (AgentWrite.inp i v).inRange p = true ↔ i < p.inpWords := by
  simp [AgentWrite.inRange]

theorem inRange_write_out {v : Word} : (AgentWrite.out f c v).inRange p = true ↔ f < p.outFrames ∧ c < 2 := by
  simp [AgentWrite.inRange]

theorem inRange_read_inp : (AgentRead.inp i).inRange p = true ↔ i < p.inpWords := by
  simp [AgentRead.inRange]

theorem inRange_read_out : (AgentRead.out f c).inRange p = true ↔ f < p.outFrames ∧ c < 2 := by
  simp [AgentRead.inRange]

end InRange

/-- The OUT elements of different frames or channels are different (R11). -/
theorem outIndex_inj {f c g d : Nat} (hc : c < 2) (hd : d < 2) : outIndex g d = outIndex f c ↔ g = f ∧ d = c := by
  unfold outIndex
  omega

/-- Settles O12: a step in the wait makes the next batch of accesses, a step with nothing waiting the host's next
access; the host's access of an element that does not exist stops the machine. -/
theorem stepsThatRunNoCommand : Obligations.StepsThatRunNoCommand := by
  refine ⟨fun s hw hh => ?_, fun s w hw hp => ⟨fun hr => ?_, fun batch rest hr => ?_⟩, fun s rest hw => ?_⟩
  · unfold step nextAction hostStep
    rw [hw, hh]
  · rw [step_waits hw hp, agentsMove_raceFree hr]
  · refine ⟨?_, ?_, ?_, ?_, ?_, ?_⟩
    · rintro rfl
      rw [step_waits hw hp, agentsMove_batch hr]
      rfl
    · rintro i v rfl hi
      rw [step_oneAccess hw hp hr]
      exact congrArg _ (agentWrite_inp (s := { s with races := rest }) hi v)
    · rintro f c v rfl hf hc
      rw [step_oneAccess hw hp hr]
      exact congrArg _ (agentWrite_out (s := { s with races := rest }) hf hc v)
    · rintro i rfl hi
      exact step_oneRead hw hp hr (inRange_read_inp.2 hi)
    · rintro f c rfl hf hc
      exact step_oneRead hw hp hr (inRange_read_out.2 ⟨hf, hc⟩)
    · rintro a more rfl
      exact step_splitsBatch hw hp hr
  · refine ⟨fun i v hm hh hi => ?_, fun f c v hm hh hf hc => ?_, fun i hh hi => ?_, fun f c hh hf hc => ?_,
      fun i v hh hi => ?_, fun f c v hh hfc => ?_⟩
    · rw [step_write hw hh, if_pos (inRange_write_inp.2 hi), agentWrite_inp (s := { s with host := rest }) hi]
      exact ⟨_, rfl, rfl, fun j => Mem.read_write hm i j v⟩
    · rw [step_write hw hh, if_pos (inRange_write_out.2 ⟨hf, hc⟩),
        agentWrite_out (s := { s with host := rest }) hf hc]
      refine ⟨_, rfl, rfl, fun g d hd => ?_⟩
      have hread := Mem.read_write hm (outIndex f c) (outIndex g d) v
      simp only [outIndex_inj hc hd] at hread
      exact hread
    · exact step_read_inRange hw hh (inRange_read_inp.2 hi)
    · exact step_read_inRange hw hh (inRange_read_out.2 ⟨hf, hc⟩)
    · rcases hh with hh | hh
      · rw [step_write hw hh, if_neg (by rw [inRange_write_inp]; omega)]
      · rw [step_read hw hh, if_neg (by rw [inRange_read_inp]; omega)]
    · rcases hh with hh | hh
      · rw [step_write hw hh, if_neg (by rw [inRange_write_out]; omega)]
      · rw [step_read hw hh, if_neg (by rw [inRange_read_out]; omega)]

end Sys2Proof.Machine
end

section
/-! PROOFS. Reset (70_reset_and_hazards.md): what READ_REG answers at power-on (R391). -/

namespace Sys2Proof.Machine

/-- At power-on DISPATCH shows STRIDE alone: the flags beside it in the word are 0 (R59). -/
theorem dispatchWord_powerOn (stride : Nat) :
    Regs.powerOn.dispatchWord stride = BitVec.ofNat 32 (min stride 255 * 2 ^ 8) := by
  have hword : (Regs.powerOn.dispatchWord stride).toNat = 2 ^ 8 * min stride 255 := by
    rw [dispatchWord_toNat]
    exact Nat.zero_add _
  have hfits : min stride 255 * 2 ^ 8 < 2 ^ 32 := by omega
  apply BitVec.eq_of_toNat_eq
  rw [hword, BitVec.toNat_ofNat, Nat.mod_eq_of_lt hfits, Nat.mul_comm]

/-- The map's registers below DISPATCH are 0 wherever the stored registers are those of power-on (R391). -/
theorem regValue_powerOn {s : State} (hs : s.regs = Regs.powerOn) {n : Nat} (hn : n < 0x13) :
    regValue s n = some 0 := by
  interval_cases n <;> simp only [regValue, hs] <;> rfl

/-- Settles O56: DISPATCH by its word, every other register by the map. -/
theorem powerOnRegistersReadZero : Obligations.PowerOnRegistersReadZero := by
  refine ⟨rfl, fun p n hn => ?_⟩
  apply exec_readReg_some
  rcases eq_or_ne n 0x13 with rfl | hne
  · rw [if_pos rfl]
    exact congrArg some (dispatchWord_powerOn p.stride)
  · rw [if_neg hne]
    exact regValue_powerOn rfl (by omega)

end Sys2Proof.Machine
end

section
/-! PROOFS. The encoding round trip (30_encoding.md): a command's packet decodes to the command, because its fields do not
overlap; a packet that decodes is its command's packet, because the fields and the row's mask share no bit and cover all. -/

namespace Sys2Proof

/-! ### From a command to its packet and back (R112, R113, R114) -/

/-- The packet of every command lies in that command's row of the opcode map. -/
theorem encode_spellsItsRow : ∀ i : Instr, Laws.SpellsItsRow.Statement i
  | .nop => Laws.SpellsItsRow.nop
  | .create tier chan bits outRate => Laws.SpellsItsRow.create tier chan bits outRate
  | .setRate inRate => Laws.SpellsItsRow.setRate inRate
  | .setVolume gainL gainR => Laws.SpellsItsRow.setVolume gainL gainR
  | .resample count base => Laws.SpellsItsRow.resample count base
  | .coefWrite start value => Laws.SpellsItsRow.coefWrite start value
  | .coefCommit => Laws.SpellsItsRow.coefCommit
  | .reset => Laws.SpellsItsRow.reset
  | .readReg regnum => Laws.SpellsItsRow.readReg regnum

/-- One bit of a packet, as a field of width 1. -/
theorem ofBool_getLsbD (p : Packet) (lo : Nat) : BitVec.ofBool (p.getLsbD lo) = p.extractLsb' lo 1 := by
  ext i hi
  obtain rfl : i = 0 := by omega
  simp

/-- The START bit of a COEF_WRITE packet. -/
theorem encode_coefWrite_start (start : Bool) (value : Word) :
    (encode (.coefWrite start value)).getLsbD 32 = start := by
  apply BitVec.ofBool_eq_iff_eq.1
  rw [ofBool_getLsbD]
  simp (disch := decide) only [encode, BitVec.extractLsb'_or, extract_place_same, extract_place_apart,
    BitVec.zero_or, BitVec.or_zero]

/-- The fields of a well-formed command's packet are its operands: no field overlaps another, and each operand fits. -/
theorem fieldsOf_encode {i : Instr} (h : i.wellFormed = true) : fieldsOf i.opcode (encode i) = i := by
  cases i <;>
    simp (disch := decide) only [Instr.opcode, fieldsOf, encode, BitVec.extractLsb'_or, extract_place_same,
      extract_place_apart, BitVec.zero_or, BitVec.or_zero, BitVec.toNat_ofNat, Instr.wellFormed, Bool.and_eq_true,
      decide_eq_true_eq] at h ⊢
  case create tier chan bits outRate =>
    obtain ⟨⟨⟨htier, hchan⟩, hbits⟩, hrate⟩ := h
    rw [Nat.mod_eq_of_lt htier, Nat.mod_eq_of_lt hchan, Nat.mod_eq_of_lt hbits, toInt_ofInt_s32 hrate]
  case setRate inRate => rw [toInt_ofInt_s32 h]
  case resample count base =>
    obtain ⟨hcount, hbase⟩ := h
    rw [Nat.mod_eq_of_lt hcount, Nat.mod_eq_of_lt hbase]
  case coefWrite start value => exact congrArg (Instr.coefWrite · value) (encode_coefWrite_start start value)
  case readReg regnum => rw [Nat.mod_eq_of_lt h]

/-- Settles O2: the packet lies in the command's row, and the fields read from it are the operands. -/
theorem decodeInvertsEncode : Obligations.DecodeInvertsEncode := by
  intro i h
  obtain ⟨row, hrow, hop, hmask⟩ := encode_spellsItsRow i
  exact (decode_ok_iff _ i).2 ⟨row, hrow, hmask, by rw [hop, fieldsOf_encode h]⟩

/-! ### From a packet to its command and back (R123, R124) -/

/-- The bits that a command's operands take, a field of ones for each operand (R112). -/
def operandBits : Opcode → Packet
  | .nop | .coefCommit | .reset => 0
  | .create =>
      place 64 (BitVec.allOnes 6) 40 ||| place 64 (BitVec.allOnes 2) 36 ||| place 64 (BitVec.allOnes 2) 32 |||
        place 64 (BitVec.allOnes 32) 0
  | .setRate => place 64 (BitVec.allOnes 32) 0
  | .setVolume => place 64 (BitVec.allOnes 16) 16 ||| place 64 (BitVec.allOnes 16) 0
  | .resample => place 64 (BitVec.allOnes 24) 32 ||| place 64 (BitVec.allOnes 32) 0
  | .coefWrite => place 64 (BitVec.allOnes 1) 32 ||| place 64 (BitVec.allOnes 32) 0
  | .readReg => place 64 (BitVec.allOnes 8) 32

/-- A row's pattern is its opcode byte, and its mask covers every bit but the operands' (R123). -/
theorem opcodeRows_pattern_mask : ∀ row ∈ opcodeRows,
    row.pattern = place 64 row.opcode.byte 56 ∧ ~~~row.mask = operandBits row.opcode := by decide

/-- Encoding the fields read from any packet keeps the packet's operand bits and puts the opcode byte beside them. -/
theorem encode_fieldsOf (op : Opcode) (p : Packet) :
    encode (fieldsOf op p) = place 64 op.byte 56 ||| p &&& operandBits op := by
  cases op <;>
    simp only [fieldsOf, encode, operandBits, BitVec.ofNat_toNat, BitVec.setWidth_eq, BitVec.ofInt_toInt, ofBool_getLsbD,
      place_extract, and_or_packet, BitVec.or_assoc]
  case nop | coefCommit | reset => simp

/-- Settles O3: under the row's mask the packet is the row's pattern, and the operand bits are all the others. -/
theorem decodedPacketIsItsEncoding : Obligations.DecodedPacketIsItsEncoding := by
  intro p i hd
  obtain ⟨row, hrow, hmatch, rfl⟩ := (decode_ok_iff p i).1 hd
  obtain ⟨hpattern, hmask⟩ := opcodeRows_pattern_mask row hrow
  refine ⟨fieldsOf_wellFormed row.opcode p, ?_⟩
  rw [encode_fieldsOf, ← hpattern, ← hmask, ← hmatch, masked_or_rest]

end Sys2Proof
end
